-- ==== Sys2Proof/Word.lean ====
section
/-! DEFINITION. The word types of the block: a byte, and the beats of the byte ports and of the grid ports
(spec/20_memory.md R56; spec/30_encoding.md R74 to R77). -/

namespace Sys2Proof

/-- One byte of a frame (R15). -/
abbrev Byte := BitVec 8

/-- One beat of `dec_in` or `enc_out`: bit 8 is `eof`, bits 7:0 are `data` (R74, R77). -/
abbrev ByteBeat := BitVec 9

/-- One beat of `dec_out` or `enc_in`: bits 65:64 are `kind`, bits 63:0 are `payload` (R75, R76). -/
abbrev GridBeat := BitVec 66

end Sys2Proof
end

