-- ==== Sys2Proof/Config.lean ====
section
/-! DEFINITION. What a build of the block fixes (spec/00_scope.md R10, R11, R12), and the one thing the spec leaves
free from step to step: which of two units that could both move moves first (spec/20_memory.md R62), and how often the
other may be passed over (spec/70_reset_and_hazards.md R218). -/

namespace Sys2Proof

/-- The two agents of the block (R3). -/
inductive UnitId where
  | dec
  | enc
  deriving DecidableEq, Repr, Inhabited

/-- The two build-time parameters. `State` carries them in a field that no step writes (assumption log 1). -/
structure Config where
  /-- `LEN_BITS`, the width of the counter of pixel-data bytes still owed (R10). -/
  lenBits : Nat
  /-- `STRICT_TRAILING`, whether a byte after the declared pixel data fails the frame (R11). -/
  strictTrailing : Bool
  deriving DecidableEq, Repr

/-- The unit that is not `u`. -/
def UnitId.other : UnitId → UnitId
  | .dec => .enc
  | .enc => .dec

/-- The defaults of R10 and R11. -/
def Config.default : Config := ⟨64, true⟩

/-- `LEN_BITS` is "a positive integer" (R10). -/
abbrev Config.wf (c : Config) : Prop := 0 < c.lenBits

/-- FREE VALUE: the unit that is offered the `n`-th moment when both could move. R62 allows "any interleaving", so nothing
constrains it (assumption log 2). -/
opaque Config.freeTurn : Nat → UnitId

/-- FREE VALUE: how many more times the other unit may be passed over, counted from the `n`-th such moment. Any number, but
a number: R218 promises every beat to be taken, so no unit is passed over for ever (assumption log 2). -/
opaque Config.freePatience : Nat → Nat

end Sys2Proof
end

