-- ==== Sys2Proof/Syntax.lean ====
section
/-! DEFINITION. The names of the spec as types (phases, kinds of beats, tokens, status codes, pixels) and `Instr`, the
operations and wire-format fields of spec/opcode_table.json, one constructor per mnemonic. -/

namespace Sys2Proof

/-- The values of the 3-bit register `d_phase` (spec/30_encoding.md R79). No rule writes the last three (R83). -/
inductive DPhase where
  | magic | width | height | pay | drain
  | unused5 | unused6 | unused7
  deriving DecidableEq, Repr

/-- The values of the 2-bit register `e_phase` (R79). No rule writes the last one (R83). -/
inductive EPhase where
  | idle | body | drain
  | unused3
  deriving DecidableEq, Repr

/-- The 2-bit `kind` of a grid beat (R75, R76). `close` is `STAT` on `dec_out` and `END` on `enc_in`. -/
inductive GridKind where
  | hdr | pix | pixl | close
  deriving DecidableEq, Repr

/-- A pixel, four unsigned 16-bit channels (spec/10_state.md R22). -/
structure Pixel where
  r : BitVec 16
  g : BitVec 16
  b : BitVec 16
  a : BitVec 16
  deriving DecidableEq, Repr

/-- The named status codes of R78, in the order of their numbers. -/
inductive Status where
  | ok | invalidMagic | truncatedHeader | dimensionsTooLarge | truncatedPixelData | trailingData
  | irregularGrid | invalidChannelValue | protocolViolation
  deriving DecidableEq, Repr

/-- The tokens of `dec_out` (R75). -/
inductive GridTok where
  | hdr (w h : BitVec 32)
  | pix (p : Pixel)
  | pixl (p : Pixel)
  | stat (code : BitVec 4)
  deriving DecidableEq, Repr

/-- The tokens of `enc_out` (R77). -/
inductive ByteTok where
  | byte (b : Byte)
  | eof (code : BitVec 4)
  deriving DecidableEq, Repr

/-- The operations and wire-format fields of spec/opcode_table.json. An operation carries the bits of its beat, those
the rules ignore among them, so that no bit of a beat is lost between a port and a meaning (assumption log 10).
A wire field carries its value (assumption log 6). -/
inductive Instr where
  /-- `HDR.magic`: the 8 bytes at frame offset 0 (R70). -/
  | hdrMagic (m : BitVec 64)
  /-- `HDR.width`: the 4 bytes at frame offset 8 (R70). -/
  | hdrWidth (w : BitVec 32)
  /-- `HDR.height`: the 4 bytes at frame offset 12 (R70). -/
  | hdrHeight (h : BitVec 32)
  /-- `PIXEL.R`: the 2 bytes at offset 0 of a pixel (R71). -/
  | pixelR (v : BitVec 16)
  /-- `PIXEL.G`: the 2 bytes at offset 2 of a pixel (R71). -/
  | pixelG (v : BitVec 16)
  /-- `PIXEL.B`: the 2 bytes at offset 4 of a pixel (R71). -/
  | pixelB (v : BitVec 16)
  /-- `PIXEL.A`: the 2 bytes at offset 6 of a pixel (R71). -/
  | pixelA (v : BitVec 16)
  /-- `DEC.MAGIC` (R101). -/
  | decMagic (b : Byte)
  /-- `DEC.WIDTH` (R102). -/
  | decWidth (b : Byte)
  /-- `DEC.HEIGHT` (R103). -/
  | decHeight (b : Byte)
  /-- `DEC.PAY` (R104). -/
  | decPay (b : Byte)
  /-- `DEC.DRAIN` (R105). -/
  | decDrain (b : Byte)
  /-- `DEC.EOF` (R106); `data` is ignored. -/
  | decEof (data : Byte)
  /-- `ENC.HDR` (R131). -/
  | encHdr (w h : BitVec 32)
  /-- `ENC.PIX` (R132). -/
  | encPix (p : Pixel)
  /-- `ENC.PIXL` (R133). -/
  | encPixl (p : Pixel)
  /-- `ENC.END` (R134); `payload` is ignored. -/
  | encEnd (payload : BitVec 64)
  /-- `ENC.DRAIN` (R135); the beat is ignored. -/
  | encDrain (k : GridKind) (payload : BitVec 64)
  /-- `ENC.VIOL` (R136); the beat's payload is ignored. -/
  | encViol (k : GridKind) (payload : BitVec 64)
  deriving DecidableEq, Repr

/-- The mnemonic of spec/opcode_table.json, letter for letter. -/
def Instr.mnemonic : Instr → String
  | .hdrMagic _ => "HDR.magic"
  | .hdrWidth _ => "HDR.width"
  | .hdrHeight _ => "HDR.height"
  | .pixelR _ => "PIXEL.R"
  | .pixelG _ => "PIXEL.G"
  | .pixelB _ => "PIXEL.B"
  | .pixelA _ => "PIXEL.A"
  | .decMagic _ => "DEC.MAGIC"
  | .decWidth _ => "DEC.WIDTH"
  | .decHeight _ => "DEC.HEIGHT"
  | .decPay _ => "DEC.PAY"
  | .decDrain _ => "DEC.DRAIN"
  | .decEof _ => "DEC.EOF"
  | .encHdr _ _ => "ENC.HDR"
  | .encPix _ => "ENC.PIX"
  | .encPixl _ => "ENC.PIXL"
  | .encEnd _ => "ENC.END"
  | .encDrain _ _ => "ENC.DRAIN"
  | .encViol _ _ => "ENC.VIOL"

end Sys2Proof
end

