-- ==== Sys2Proof/Machine/Operands.lean ====
section
/-! DEFINITION. Bit fields, byte order and operand forms: the magic, the shift-in that assembles a field, the bytes a
field is sent as, the layouts of the beats, and the two selectors (spec/00_scope.md R14 to R16; spec/30_encoding.md
R70 to R81). -/

namespace Sys2Proof.Machine

/-! ### The magic (R20, R72) -/

/-- `MAGIC64`. Its bytes are the ASCII codes of `farbfeld`, which the spec supplies from general knowledge (G1). -/
def magic64 : BitVec 64 := 0x6661726266656C64#64

/-- `MAGIC[i]`, the byte of the magic at offset `i`. -/
def magicByte (i : BitVec 3) : Byte := (magic64 >>> (8 * (7 - i.toNat))).setWidth 8

/-! ### Byte order (R52, R73) -/

/-- `(r << 8 | b)[n-1:0]`, the shift register that takes a byte in at its low end (R14). -/
def shiftIn {n : Nat} (r : BitVec n) (b : Byte) : BitVec n := (r <<< 8) ||| b.setWidth n

/-- `v` as `k` bytes, most significant first: `(v >> 8*(k-1-i))[7:0]` for `i = 0, …, k-1` (R73, R130). -/
def beBytes {n : Nat} (k : Nat) (v : BitVec n) : List Byte :=
  (List.range k).map fun i => (v >>> (8 * (k - 1 - i))).setWidth 8

/-- The value of a field's bytes, most significant first, built by shifting each in (`be` of R15, by R73). -/
def beOf (n : Nat) (bytes : List Byte) : BitVec n := bytes.foldl shiftIn 0#n

/-- The eight bytes of the magic, in order. -/
def magicBytes : List Byte := beBytes 8 magic64

/-! ### Beats of the byte ports (R74, R77) -/

/-- The 9-bit beat `{eof, data}`. -/
def byteBeat (eof : Bool) (data : Byte) : ByteBeat := BitVec.ofBool eof ++ data

/-- Bit 8 of a byte-port beat. -/
def beatEof (t : ByteBeat) : Bool := t.getLsbD 8

/-- Bits 7:0 of a byte-port beat. -/
def beatData (t : ByteBeat) : Byte := t.setWidth 8

/-- An `enc_out` token as its beat; `data[7:4]` of an `EOF` is 0 (R77). -/
def byteTokWord : ByteTok → ByteBeat
  | .byte b => byteBeat false b
  | .eof code => byteBeat true (code.setWidth 8)

/-- An `enc_out` beat read as a token (R77). -/
def byteTokOf (t : ByteBeat) : ByteTok :=
  if beatEof t then .eof ((beatData t).setWidth 4) else .byte (beatData t)

/-! ### Beats of the grid ports (R75, R76) -/

/-- The 2-bit number of a kind. -/
def kindCode : GridKind → BitVec 2
  | .hdr => 0
  | .pix => 1
  | .pixl => 2
  | .close => 3

/-- The kind a 2-bit number stands for. -/
def kindOfCode (c : BitVec 2) : GridKind :=
  match c.toNat with
  | 0 => .hdr
  | 1 => .pix
  | 2 => .pixl
  | _ => .close

/-- The 66-bit beat `{kind, payload}`. -/
def gridBeat (k : GridKind) (payload : BitVec 64) : GridBeat := kindCode k ++ payload

/-- Bits 65:64 of a grid-port beat. -/
def beatKind (t : GridBeat) : GridKind := kindOfCode ((t >>> 64).setWidth 2)

/-- Bits 63:0 of a grid-port beat. -/
def beatPayload (t : GridBeat) : BitVec 64 := t.setWidth 64

/-- The payload of a `HDR` beat: `W` in bits 63:32, `H` in bits 31:0. -/
def hdrPayload (w h : BitVec 32) : BitVec 64 := w ++ h

/-- `payload[63:32]`. -/
def payloadW (p : BitVec 64) : BitVec 32 := (p >>> 32).setWidth 32

/-- `payload[31:0]`. -/
def payloadH (p : BitVec 64) : BitVec 32 := p.setWidth 32

/-- A pixel as the 64-bit word `{R, G, B, A}` (R22, R71). -/
def pixelWord (p : Pixel) : BitVec 64 := p.r ++ p.g ++ p.b ++ p.a

/-- The pixel a 64-bit word holds: `R` in bits 63:48, `G` in 47:32, `B` in 31:16, `A` in 15:0 (R22, R71). -/
def pixelOfWord (v : BitVec 64) : Pixel where
  r := (v >>> 48).setWidth 16
  g := (v >>> 32).setWidth 16
  b := (v >>> 16).setWidth 16
  a := v.setWidth 16

/-- A `dec_out` token as its beat; `payload[63:4]` of a `STAT` is 0 (R75). -/
def gridTokWord : GridTok → GridBeat
  | .hdr w h => gridBeat .hdr (hdrPayload w h)
  | .pix p => gridBeat .pix (pixelWord p)
  | .pixl p => gridBeat .pixl (pixelWord p)
  | .stat code => gridBeat .close (code.setWidth 64)

/-- A `dec_out` beat read as a token (R75). -/
def gridTokOf (t : GridBeat) : GridTok :=
  match beatKind t with
  | .hdr => .hdr (payloadW (beatPayload t)) (payloadH (beatPayload t))
  | .pix => .pix (pixelOfWord (beatPayload t))
  | .pixl => .pixl (pixelOfWord (beatPayload t))
  | .close => .stat ((beatPayload t).setWidth 4)

/-! ### Phases and selectors (R79 to R81) -/

/-- The 3-bit number of a `DEC` phase. -/
def dPhaseCode : DPhase → BitVec 3
  | .magic => 0
  | .width => 1
  | .height => 2
  | .pay => 3
  | .drain => 4
  | .unused5 => 5
  | .unused6 => 6
  | .unused7 => 7

/-- The `DEC` phase a 3-bit number stands for. -/
def dPhaseOfCode (c : BitVec 3) : DPhase :=
  match c.toNat with
  | 0 => .magic
  | 1 => .width
  | 2 => .height
  | 3 => .pay
  | 4 => .drain
  | 5 => .unused5
  | 6 => .unused6
  | _ => .unused7

/-- The 2-bit number of an `ENC` phase. -/
def ePhaseCode : EPhase → BitVec 2
  | .idle => 0
  | .body => 1
  | .drain => 2
  | .unused3 => 3

/-- The `ENC` phase a 2-bit number stands for. -/
def ePhaseOfCode (c : BitVec 2) : EPhase :=
  match c.toNat with
  | 0 => .idle
  | 1 => .body
  | 2 => .drain
  | _ => .unused3

/-- `dsel = {d_phase[2:0], eof}` (R80). -/
def dsel (ph : DPhase) (eof : Bool) : BitVec 4 := dPhaseCode ph ++ BitVec.ofBool eof

/-- `esel = {e_phase[1:0], kind[1:0]}` (R81). -/
def esel (ph : EPhase) (k : GridKind) : BitVec 4 := ePhaseCode ph ++ kindCode k

end Sys2Proof.Machine
end

