-- ==== Sys2Proof/WellFormed.lean ====
section
/-! DEFINITION. The well-formed instructions: the operand values for which spec/opcode_table.json has a row. -/

namespace Sys2Proof

/-- The checks, one per constructor. `HDR.magic` must be the magic (R70, R72); `ENC.DRAIN` and `ENC.VIOL` take a `HDR`,
`PIX` or `PIXL` beat, since an `END` beat selects `ENC.END` in every phase (R81). Every other operand is legal at every
value (R71, R82). -/
def Instr.wellFormed : Instr → Bool
  | .hdrMagic m => m == Machine.magic64
  | .hdrWidth _ => true
  | .hdrHeight _ => true
  | .pixelR _ => true
  | .pixelG _ => true
  | .pixelB _ => true
  | .pixelA _ => true
  | .decMagic _ => true
  | .decWidth _ => true
  | .decHeight _ => true
  | .decPay _ => true
  | .decDrain _ => true
  | .decEof _ => true
  | .encHdr _ _ => true
  | .encPix _ => true
  | .encPixl _ => true
  | .encEnd _ => true
  | .encDrain k _ => k != .close
  | .encViol k _ => k != .close

end Sys2Proof
end

