-- ==== Sys2Proof/Decode.lean ====
section
/-! DEFINITION. From the bits of a beat (or of a wire field) to an instruction or a rejection by name, and back
(spec/30_encoding.md R70, R71, R80, R81, R83, R88). -/

namespace Sys2Proof

open Machine

/-- The words the decoder reads. A unit's word is its 4-bit selector with the operand bits of the beat (R80, R81).
A wire word is the bytes of a frame at an offset, which is what tells one field from another (R50, R51). -/
inductive OpWord where
  | dec (sel : BitVec 4) (data : Byte)
  | enc (sel : BitVec 4) (payload : BitVec 64)
  | wire (off : Nat) (bytes : List Byte)
  deriving DecidableEq, Repr

/-- Why a word is no instruction. -/
inductive DecodeError where
  /-- `d_phase` in 5..7 (R83). -/
  | unreachableDecPhase
  /-- `e_phase` = 3 (R83). -/
  | unreachableEncPhase
  /-- Eight bytes at offset 0 that are not the magic (R70, R82). -/
  | notTheMagic
  /-- Bytes that are not one field of R70 or R71. -/
  | notAField
  deriving DecidableEq, Repr

/-- The operation of a `dec_in` beat, by the table of R80. -/
def decodeDec (sel : BitVec 4) (data : Byte) : Except DecodeError Instr :=
  match sel.toNat with
  | 0x0 => .ok (.decMagic data)
  | 0x2 => .ok (.decWidth data)
  | 0x4 => .ok (.decHeight data)
  | 0x6 => .ok (.decPay data)
  | 0x8 => .ok (.decDrain data)
  | 0x1 => .ok (.decEof data)
  | 0x3 => .ok (.decEof data)
  | 0x5 => .ok (.decEof data)
  | 0x7 => .ok (.decEof data)
  | 0x9 => .ok (.decEof data)
  | _ => .error .unreachableDecPhase

/-- The operation of an `enc_in` beat, by the table of R81. -/
def decodeEnc (sel : BitVec 4) (payload : BitVec 64) : Except DecodeError Instr :=
  match sel.toNat with
  | 0x0 => .ok (.encHdr (payloadW payload) (payloadH payload))
  | 0x1 => .ok (.encViol .pix payload)
  | 0x2 => .ok (.encViol .pixl payload)
  | 0x3 => .ok (.encEnd payload)
  | 0x4 => .ok (.encViol .hdr payload)
  | 0x5 => .ok (.encPix (pixelOfWord payload))
  | 0x6 => .ok (.encPixl (pixelOfWord payload))
  | 0x7 => .ok (.encEnd payload)
  | 0x8 => .ok (.encDrain .hdr payload)
  | 0x9 => .ok (.encDrain .pix payload)
  | 0xA => .ok (.encDrain .pixl payload)
  | 0xB => .ok (.encEnd payload)
  | _ => .error .unreachableEncPhase

/-- The field that bytes at a frame offset are (R50, R51, R70, R71). -/
def decodeWire (off : Nat) (bytes : List Byte) : Except DecodeError Instr :=
  if off = 0 ∧ bytes.length = 8 then
    if beOf 64 bytes = magic64 then .ok (.hdrMagic (beOf 64 bytes)) else .error .notTheMagic
  else if off = 8 ∧ bytes.length = 4 then .ok (.hdrWidth (beOf 32 bytes))
  else if off = 12 ∧ bytes.length = 4 then .ok (.hdrHeight (beOf 32 bytes))
  else if 16 ≤ off ∧ bytes.length = 2 then
    match (off - 16) % 8 with
    | 0 => .ok (.pixelR (beOf 16 bytes))
    | 2 => .ok (.pixelG (beOf 16 bytes))
    | 4 => .ok (.pixelB (beOf 16 bytes))
    | 6 => .ok (.pixelA (beOf 16 bytes))
    | _ => .error .notAField
  else .error .notAField

/-- The decoder, total on every word. -/
def decode : OpWord → Except DecodeError Instr
  | .dec sel data => decodeDec sel data
  | .enc sel payload => decodeEnc sel payload
  | .wire off bytes => decodeWire off bytes

/-- A word of a well-formed instruction. Where several selectors select one operation (`DEC.EOF`, `ENC.END`, R88) it is
the one of the unit's first phase; a channel's word is the first pixel's. -/
def encode : Instr → OpWord
  | .hdrMagic m => .wire 0 (beBytes 8 m)
  | .hdrWidth w => .wire 8 (beBytes 4 w)
  | .hdrHeight h => .wire 12 (beBytes 4 h)
  | .pixelR v => .wire 16 (beBytes 2 v)
  | .pixelG v => .wire 18 (beBytes 2 v)
  | .pixelB v => .wire 20 (beBytes 2 v)
  | .pixelA v => .wire 22 (beBytes 2 v)
  | .decMagic b => .dec (dsel .magic false) b
  | .decWidth b => .dec (dsel .width false) b
  | .decHeight b => .dec (dsel .height false) b
  | .decPay b => .dec (dsel .pay false) b
  | .decDrain b => .dec (dsel .drain false) b
  | .decEof data => .dec (dsel .magic true) data
  | .encHdr w h => .enc (esel .idle .hdr) (hdrPayload w h)
  | .encPix p => .enc (esel .body .pix) (pixelWord p)
  | .encPixl p => .enc (esel .body .pixl) (pixelWord p)
  | .encEnd payload => .enc (esel .idle .close) payload
  | .encDrain k payload => .enc (esel .drain k) payload
  | .encViol .hdr payload => .enc (esel .body .hdr) payload
  | .encViol k payload => .enc (esel .idle k) payload

/-! ### The selector rows of spec/opcode_table.json -/

/-- The two selector formats of the table (R88). -/
inductive SelFormat where
  | decSel
  | encSel
  deriving DecidableEq, Repr

/-- A row: its mnemonic, its format, `match` and `mask` over the 4-bit selector. -/
structure SelRow where
  mnemonic : String
  format : SelFormat
  value : BitVec 4
  mask : BitVec 4
  deriving DecidableEq, Repr

/-- The `dec_sel` rows, in the table's order. -/
def decSelRows : List SelRow := [
  ⟨"DEC.MAGIC", .decSel, 0x0, 0xF⟩, ⟨"DEC.WIDTH", .decSel, 0x2, 0xF⟩, ⟨"DEC.HEIGHT", .decSel, 0x4, 0xF⟩,
  ⟨"DEC.PAY", .decSel, 0x6, 0xF⟩, ⟨"DEC.DRAIN", .decSel, 0x8, 0xF⟩, ⟨"DEC.EOF", .decSel, 0x1, 0x1⟩]

/-- The `enc_sel` rows, in the table's order. -/
def encSelRows : List SelRow := [
  ⟨"ENC.HDR", .encSel, 0x0, 0xF⟩, ⟨"ENC.VIOL", .encSel, 0x1, 0xF⟩, ⟨"ENC.VIOL", .encSel, 0x2, 0xF⟩,
  ⟨"ENC.VIOL", .encSel, 0x4, 0xF⟩, ⟨"ENC.PIX", .encSel, 0x5, 0xF⟩, ⟨"ENC.PIXL", .encSel, 0x6, 0xF⟩,
  ⟨"ENC.DRAIN", .encSel, 0x8, 0xF⟩, ⟨"ENC.DRAIN", .encSel, 0x9, 0xF⟩, ⟨"ENC.DRAIN", .encSel, 0xA, 0xF⟩,
  ⟨"ENC.END", .encSel, 0x3, 0xF⟩, ⟨"ENC.END", .encSel, 0x7, 0xF⟩, ⟨"ENC.END", .encSel, 0xB, 0xF⟩]

/-- The selectors of the phases a run can reach: the patterns apply to these only (R83, R88). -/
def selReachable : SelFormat → BitVec 4 → Bool
  | .decSel, sel => sel >>> 1 ≤ 4
  | .encSel, sel => sel >>> 2 ≤ 2

/-- Whether a row covers a selector. -/
def selRowCovers (r : SelRow) (sel : BitVec 4) : Bool :=
  (sel &&& r.mask) == r.value && selReachable r.format sel

/-! ### Words numbered as the opcode table numbers them -/

/-- The word a selector stands for. The table gives `dec_sel` and `enc_sel` rows the same four bits and no bit that
tells them apart, so a number is read in the format of the first row whose `match` it is (assumption log 7). The beat's
other bits are 0. -/
def selectorWord (w : Nat) : OpWord :=
  match (decSelRows ++ encSelRows).find? (fun r => r.value == BitVec.ofNat 4 w) with
  | some r =>
    match r.format with
    | .decSel => .dec (BitVec.ofNat 4 w) 0
    | .encSel => .enc (BitVec.ofNat 4 w) 0
  | none => .dec (BitVec.ofNat 4 w) 0

/-- The wire field a 128-bit header word stands for: the magic where its bits are not 0; else the height where it alone
is not 0; else the width (assumption log 7). -/
def headerWord (w : Nat) : OpWord :=
  let hd := BitVec.ofNat 128 w
  let m : BitVec 64 := (hd >>> 64).setWidth 64
  let rest : BitVec 64 := hd.setWidth 64
  if m ≠ 0 then .wire 0 (beBytes 8 m)
  else if payloadW rest = 0 ∧ payloadH rest ≠ 0 then .wire 12 (beBytes 4 (payloadH rest))
  else .wire 8 (beBytes 4 (payloadW rest))

/-- The wire field a 64-bit pixel word stands for: the channel that alone is not 0, else `R` (assumption log 7). -/
def pixelFieldWord (w : Nat) : OpWord :=
  let p := pixelOfWord (BitVec.ofNat 64 w)
  if p.r = 0 ∧ p.g ≠ 0 ∧ p.b = 0 ∧ p.a = 0 then .wire 18 (beBytes 2 p.g)
  else if p.r = 0 ∧ p.g = 0 ∧ p.b ≠ 0 ∧ p.a = 0 then .wire 20 (beBytes 2 p.b)
  else if p.r = 0 ∧ p.g = 0 ∧ p.b = 0 ∧ p.a ≠ 0 then .wire 22 (beBytes 2 p.a)
  else .wire 16 (beBytes 2 p.r)

/-- The word of a table row of `nbits` bits: a selector (4 bits, in one byte), a pixel word or a header word. -/
def tableWord (nbits w : Nat) : OpWord :=
  if nbits ≤ 8 then selectorWord w else if nbits ≤ 64 then pixelFieldWord w else headerWord w

/-- The instruction the decoder reads from the table's word. -/
def decodeTableWord (nbits w : Nat) : Option Instr :=
  match decode (tableWord nbits w) with
  | .ok i => some i
  | .error _ => none

end Sys2Proof
end

