-- ==== Sys2Proof/Machine/State.lean ====
section
/-! DEFINITION. The state of the block: the eight registers of `DEC`, the six of `ENC`, the beats that stand on the four
ports, the reset input, the build-time parameters, and two fields of the model's own (spec/10_state.md R24 to R37, R40,
R45; spec/70_reset_and_hazards.md R210, R218). There is no addressable memory (R47). -/

namespace Sys2Proof.Machine

/-- The registers of `DEC` (R24 to R31), in the order of spec/95_test_vectors.md. -/
structure DecRegs where
  /-- `d_phase` (R25). -/
  phase : DPhase
  /-- `d_idx` (R26). -/
  idx : BitVec 3
  /-- `d_err`, the latched status code (R27). -/
  err : BitVec 4
  /-- `d_w` (R28). -/
  w : BitVec 32
  /-- `d_h` (R28). -/
  h : BitVec 32
  /-- `d_rem`, the bytes the frame still owes (R29). Its width is the parameter `LEN_BITS`, so it is a number here, and
  that it stays below `2^LEN_BITS` is an invariant (assumption log 9). -/
  rem : Nat
  /-- `d_sh` (R30). -/
  sh : BitVec 64
  /-- `d_col` (R31). -/
  col : BitVec 32
  deriving DecidableEq, Repr

/-- The registers of `ENC` (R32 to R37). -/
structure EncRegs where
  /-- `e_phase` (R32). -/
  phase : EPhase
  /-- `e_err`, the latched status code (R33). -/
  err : BitVec 4
  /-- `e_w` (R34). -/
  w : BitVec 32
  /-- `e_h` (R34). -/
  h : BitVec 32
  /-- `e_rem`, the pixels the grid still owes (R35). -/
  rem : BitVec 64
  /-- `e_col` (R36). -/
  col : BitVec 32
  deriving DecidableEq, Repr

/-- MODEL'S OWN: the choices made between the units (R62, R218, assumption log 2). -/
structure Arbiter where
  /-- How many choices were made; the argument of the free values. -/
  tick : Nat
  /-- The unit passed over at the last choice, and how many more times it may be. -/
  passed : Option (UnitId × Nat)
  deriving DecidableEq, Repr

/-- R45, the `DEC` registers. -/
def DecRegs.reset : DecRegs := ⟨.magic, 0, 0, 0, 0, 0, 0, 0⟩

/-- R45, the `ENC` registers. -/
def EncRegs.reset : EncRegs := ⟨.idle, 0, 0, 0, 0, 0⟩

end Sys2Proof.Machine

namespace Sys2Proof.Machine

/-- The state of the block and of its ports. Each port is the list of the beats that stand on it, the oldest first
(R61). -/
structure State where
  /-- The build-time parameters (R10, R11). No step writes them. -/
  cfg : Config
  dec : DecRegs
  enc : EncRegs
  /-- Beats `dec_in` accepted and `DEC` has not taken. -/
  decIn : List ByteBeat
  /-- Beats `DEC` emitted and the grid sink has not taken. -/
  decOut : List GridBeat
  /-- Beats `enc_in` accepted and `ENC` has not taken. -/
  encIn : List GridBeat
  /-- Beats `ENC` emitted and the byte sink has not taken. -/
  encOut : List ByteBeat
  /-- MODEL'S OWN: how many beats may stand untaken on `dec_out`, but at least what one step emits; no bound if `none`
  (R218, assumption log 4). -/
  decOutCap : Option Nat
  /-- MODEL'S OWN: the same for `enc_out`. -/
  encOutCap : Option Nat
  /-- The reset input `rst`: a reset event is due (R210, assumption log 5). -/
  rst : Bool
  /-- MODEL'S OWN: the choices between the units (R62, R218, assumption log 2). -/
  arb : Arbiter
  deriving DecidableEq, Repr

/-- The block right after reset (R45, R211), built with the default parameters, with nothing on any port (R210). -/
def State.reset : State where
  cfg := Config.default
  dec := DecRegs.reset
  enc := EncRegs.reset
  decIn := []
  decOut := []
  encIn := []
  encOut := []
  decOutCap := none
  encOutCap := none
  rst := false
  arb := ⟨0, none⟩

/-- The block has no event that stops it: an error of a frame is a status beat, and the next beat is taken as always
(R180, R192, R193). So there is no fault, and no step answers one. Safe. -/
inductive Fault where
  deriving DecidableEq, Repr

/-- Why a step or a meaning has no answer. -/
inductive Refusal where
  /-- The instruction has no meaning yet; raised by a rejected arm of `exec`, of which there is none. Safe. -/
  | notModelled (mnemonic : String)
  /-- The word selects no operation; raised by `step` when a phase register holds a value no rule writes, and by a
  meaning that reads such a phase ("a state with such a phase value is refused", R83, U6). Safe. -/
  | rejected (why : DecodeError)
  deriving DecidableEq, Repr

/-- What a meaning answers. -/
abbrev Answer := Host.Outcome State Fault Refusal

end Sys2Proof.Machine
end

