-- ==== Sys2Proof/Machine/Flags.lean ====
section
/-! DEFINITION. Status codes and the conditions under which an operation detects an error (spec/30_encoding.md R78;
spec/60_exceptions.md R180 to R188). The latched codes `d_err` and `e_err` are the block's only flags (R41). -/

namespace Sys2Proof.Machine

/-- `code(E)`, the number of a status (R78). -/
def statusCode : Status → BitVec 4
  | .ok => 0
  | .invalidMagic => 1
  | .truncatedHeader => 2
  | .dimensionsTooLarge => 3
  | .truncatedPixelData => 4
  | .trailingData => 5
  | .irregularGrid => 6
  | .invalidChannelValue => 7
  | .protocolViolation => 8

/-- The status a code names; codes 9 to 15 are reserved (R78). -/
def statusOfCode (c : BitVec 4) : Option Status :=
  match c.toNat with
  | 0 => some .ok
  | 1 => some .invalidMagic
  | 2 => some .truncatedHeader
  | 3 => some .dimensionsTooLarge
  | 4 => some .truncatedPixelData
  | 5 => some .trailingData
  | 6 => some .irregularGrid
  | 7 => some .invalidChannelValue
  | 8 => some .protocolViolation
  | _ => none

/-- `L = 8 * W * H` over the mathematical integers (R103, R170). -/
def payloadLength (w h : BitVec 32) : Nat := 8 * w.toNat * h.toNat

/-- `DimensionsTooLarge`: `L >= 2^LEN_BITS` (R10, R183). -/
def tooLarge (c : Config) (w h : BitVec 32) : Bool := 2 ^ c.lenBits ≤ payloadLength w h

/-- Column `col` is the last of a row of width `w`: `col = w - 1` over the integers, so never where `w` is 0
(R104, R132, assumption log 8). -/
def lastColumn (col w : BitVec 32) : Bool := col.toNat + 1 == w.toNat

/-- `IrregularGrid` at a `PIX`: the grid is full, or a `PIXL` was due (R132). -/
def pixIrregular (e : EncRegs) : Bool := e.rem == 0 || lastColumn e.col e.w

/-- `IrregularGrid` at a `PIXL`: the grid is full, or the row is short (R133). -/
def pixlIrregular (e : EncRegs) : Bool := e.rem == 0 || !lastColumn e.col e.w

/-- The status code `DEC.EOF` reports; none in a phase no rule writes (R106, R83). -/
def decEofCode (d : DecRegs) : Option (BitVec 4) :=
  match d.phase with
  | .magic => some (statusCode .invalidMagic)
  | .width => some (statusCode .truncatedHeader)
  | .height => some (statusCode .truncatedHeader)
  | .pay => some (if d.rem ≠ 0 then statusCode .truncatedPixelData else statusCode .ok)
  | .drain => some d.err
  | .unused5 => none
  | .unused6 => none
  | .unused7 => none

/-- The status code `ENC.END` reports; none in the phase no rule writes (R134, R83). -/
def encEndCode (e : EncRegs) : Option (BitVec 4) :=
  match e.phase with
  | .idle => some (statusCode .protocolViolation)
  | .body => some (if e.rem ≠ 0 then statusCode .irregularGrid else statusCode .ok)
  | .drain => some e.err
  | .unused3 => none

end Sys2Proof.Machine
end

