-- ==== Sys2Proof/Machine/Ops.lean ====
section
/-! DEFINITION. The shared operations over registers and ports: writing a unit's registers, `emit`, `send`, `take`,
`raise`, closing a frame, the reset event, and what the host does at the ports (spec/00_scope.md R16; spec/60_exceptions.md
R190 to R193; spec/70_reset_and_hazards.md R210). -/

namespace Sys2Proof.Machine

/-! ### Registers and output ports -/

/-- `name <- v` on the `DEC` registers. -/
def State.setDec (s : State) (d : DecRegs) : State := { s with dec := d }

/-- `name <- v` on the `ENC` registers. -/
def State.setEnc (s : State) (e : EncRegs) : State := { s with enc := e }

/-- `emit(dec_out, tok)` (R16). -/
def State.emitDec (s : State) (tok : GridTok) : State := { s with decOut := s.decOut ++ [gridTokWord tok] }

/-- `emit(enc_out, tok)` for each token in order (R16). -/
def State.emitEnc (s : State) (toks : List ByteTok) : State :=
  { s with encOut := s.encOut ++ toks.map byteTokWord }

/-- The beats of `send(v, k)` (R130). -/
def sendToks {n : Nat} (v : BitVec n) (k : Nat) : List ByteTok := (beBytes k v).map .byte

/-- The beats a pixel is sent as: `send(R, 2); send(G, 2); send(B, 2); send(A, 2)` (R132). -/
def pixelToks (p : Pixel) : List ByteTok :=
  sendToks p.r 2 ++ sendToks p.g 2 ++ sendToks p.b 2 ++ sendToks p.a 2

/-- The beats a header is sent as: the magic, `send(W, 4)`, `send(H, 4)` (R131). -/
def headerToks (w h : BitVec 32) : List ByteTok :=
  magicBytes.map .byte ++ sendToks w 4 ++ sendToks h 4

/-! ### Taking an error and returning from one (R192, R193) -/

/-- `raise E` in `DEC`: the code is latched and the unit drains; nothing else is saved (R192). -/
def State.raiseDec (s : State) (e : Status) : State :=
  s.setDec { s.dec with err := statusCode e, phase := .drain }

/-- `raise E` in `ENC` (R192). -/
def State.raiseEnc (s : State) (e : Status) : State :=
  s.setEnc { s.enc with err := statusCode e, phase := .drain }

/-- The return in `DEC`: the status beat is emitted and every register takes its reset value (R106, R193). -/
def State.closeDec (s : State) (code : BitVec 4) : State := (s.emitDec (.stat code)).setDec DecRegs.reset

/-- The return in `ENC` (R134, R193). -/
def State.closeEnc (s : State) (code : BitVec 4) : State := (s.emitEnc [.eof code]).setEnc EncRegs.reset

/-- The reset event: both units' registers take the values of R45, the beats in flight on all four ports are
discarded, nothing is emitted (R210). -/
def State.resetEvent (s : State) : State :=
  { s with
    dec := DecRegs.reset, enc := EncRegs.reset
    decIn := [], decOut := [], encIn := [], encOut := []
    rst := false }

/-! ### Input ports -/

/-- `take` of the beat at the head of a unit's input port (R16, R17). -/
def State.take (s : State) : UnitId → State
  | .dec => { s with decIn := s.decIn.tail }
  | .enc => { s with encIn := s.encIn.tail }

/-- An output port can take what a step emitted: it emitted nothing, or what now stands on the port is within the
bound (R218). A port holds at least `most`, what one step of its unit emits at most, since a port that never could take a
step's beats would stop its unit for ever, which R218 excludes (assumption log 4). -/
def portTakes (cap : Option Nat) (most before after : Nat) : Bool :=
  decide (after ≤ before) || match cap with
    | none => true
    | some c => decide (after ≤ max c most)

/-- The most beats one step of a unit emits (R108, R37). -/
def mostEmitted : UnitId → Nat
  | .dec => 1
  | .enc => 16

/-- The unit's output port can take what led from `s` to `t`. -/
def State.roomFor (s : State) (u : UnitId) (t : State) : Bool :=
  match u with
  | .dec => portTakes s.decOutCap (mostEmitted .dec) s.decOut.length t.decOut.length
  | .enc => portTakes s.encOutCap (mostEmitted .enc) s.encOut.length t.encOut.length

/-- A step that finds no room does not happen: the unit keeps its state and loses nothing (R218). -/
def State.settle (s : State) (u : UnitId) : Answer → Answer
  | .next t => if s.roomFor u t then .next t else .next s
  | .fault r => .fault r
  | .refused r => .refused r

/-- One answer after another. -/
def andThen (o : Answer) (f : State → Answer) : Answer :=
  match o with
  | .next s => f s
  | .fault r => .fault r
  | .refused r => .refused r

/-! ### What the host does between steps (R40, R210, R218) -/

/-- The byte source offers beats on `dec_in`. -/
def State.offerDec (s : State) (ts : List ByteBeat) : State := { s with decIn := s.decIn ++ ts }

/-- The grid source offers beats on `enc_in`. -/
def State.offerEnc (s : State) (ts : List GridBeat) : State := { s with encIn := s.encIn ++ ts }

/-- The grid sink takes the oldest beat of `dec_out`. -/
def State.sinkDec (s : State) : State := { s with decOut := s.decOut.tail }

/-- The byte sink takes the oldest beat of `enc_out`. -/
def State.sinkEnc (s : State) : State := { s with encOut := s.encOut.tail }

/-- `rst` is raised. -/
def State.raiseReset (s : State) : State := { s with rst := true }

end Sys2Proof.Machine
end

