-- ==== Sys2Proof/Machine/Enc.lean ====
section
/-! DEFINITION. The operations of `ENC` (spec/41_encode.md R131 to R136). -/

namespace Sys2Proof.Machine

/-- `ENC.HDR` (R131). -/
def execEncHdr (w h : BitVec 32) (s : State) : Answer :=
  .next ((s.setEnc { s.enc with
    w := w, h := h, rem := BitVec.ofNat 64 (w.toNat * h.toNat), col := 0, phase := .body }).emitEnc (headerToks w h))

/-- `ENC.PIX` (R132). -/
def execEncPix (p : Pixel) (s : State) : Answer :=
  if pixIrregular s.enc then .next (s.raiseEnc .irregularGrid)
  else .next ((s.emitEnc (pixelToks p)).setEnc { s.enc with rem := s.enc.rem - 1, col := s.enc.col + 1 })

/-- `ENC.PIXL` (R133). -/
def execEncPixl (p : Pixel) (s : State) : Answer :=
  if pixlIrregular s.enc then .next (s.raiseEnc .irregularGrid)
  else .next ((s.emitEnc (pixelToks p)).setEnc { s.enc with rem := s.enc.rem - 1, col := 0 })

/-- `ENC.END` (R134). -/
def execEncEnd (_payload : BitVec 64) (s : State) : Answer :=
  match encEndCode s.enc with
  | some code => .next (s.closeEnc code)
  | none => .refused (.rejected .unreachableEncPhase)

/-- `ENC.DRAIN`: no effect (R135). -/
def execEncDrain (_k : GridKind) (_payload : BitVec 64) (s : State) : Answer := .next s

/-- `ENC.VIOL` (R136). -/
def execEncViol (_k : GridKind) (_payload : BitVec 64) (s : State) : Answer :=
  .next (s.raiseEnc .protocolViolation)

end Sys2Proof.Machine
end

