-- ==== Sys2Proof/Machine/Dec.lean ====
section
/-! DEFINITION. The operations of `DEC` (spec/40_decode.md R101 to R106). Each is the rule's pseudocode; the selection
of R80 is the decoder's (assumption log 11). -/

namespace Sys2Proof.Machine

/-- `DEC.MAGIC` (R101). -/
def execDecMagic (b : Byte) (s : State) : Answer :=
  if b ≠ magicByte s.dec.idx then .next (s.raiseDec .invalidMagic)
  else if s.dec.idx = 7 then .next (s.setDec { s.dec with idx := 0, phase := .width })
  else .next (s.setDec { s.dec with idx := s.dec.idx + 1 })

/-- `DEC.WIDTH` (R102). -/
def execDecWidth (b : Byte) (s : State) : Answer :=
  let w := shiftIn s.dec.w b
  if s.dec.idx = 3 then .next (s.setDec { s.dec with w := w, idx := 0, phase := .height })
  else .next (s.setDec { s.dec with w := w, idx := s.dec.idx + 1 })

/-- The fourth byte of the height: the header is complete and its dimensions are checked (R103). -/
def headerComplete (s : State) : State :=
  if tooLarge s.cfg s.dec.w s.dec.h then s.raiseDec .dimensionsTooLarge
  else
    (s.setDec { s.dec with rem := payloadLength s.dec.w s.dec.h, col := 0, phase := .pay }).emitDec
      (.hdr s.dec.w s.dec.h)

/-- `DEC.HEIGHT` (R103). -/
def execDecHeight (b : Byte) (s : State) : Answer :=
  let h := shiftIn s.dec.h b
  if s.dec.idx ≠ 3 then .next (s.setDec { s.dec with h := h, idx := s.dec.idx + 1 })
  else .next (headerComplete (s.setDec { s.dec with h := h, idx := 0 }))

/-- The eighth byte of a pixel: the pixel in `d_sh` is sent, as `PIXL` in the last column (R104). -/
def pixelComplete (s : State) : State :=
  if lastColumn s.dec.col s.dec.w then
    (s.emitDec (.pixl (pixelOfWord s.dec.sh))).setDec { s.dec with col := 0 }
  else
    (s.emitDec (.pix (pixelOfWord s.dec.sh))).setDec { s.dec with col := s.dec.col + 1 }

/-- `DEC.PAY` (R104). -/
def execDecPay (b : Byte) (s : State) : Answer :=
  if s.dec.rem = 0 then
    if s.cfg.strictTrailing then .next (s.raiseDec .trailingData) else .next s
  else
    let d := { s.dec with rem := s.dec.rem - 1, sh := shiftIn s.dec.sh b }
    if s.dec.idx ≠ 7 then .next (s.setDec { d with idx := s.dec.idx + 1 })
    else .next (pixelComplete (s.setDec { d with idx := 0 }))

/-- `DEC.DRAIN`: no effect (R105). -/
def execDecDrain (_b : Byte) (s : State) : Answer := .next s

/-- `DEC.EOF` (R106). -/
def execDecEof (_data : Byte) (s : State) : Answer :=
  match decEofCode s.dec with
  | some code => .next (s.closeDec code)
  | none => .refused (.rejected .unreachableDecPhase)

end Sys2Proof.Machine
end

