-- ==== Sys2Proof/Machine/Wire.lean ====
section
/-! DEFINITION. The wire-format fields of spec/opcode_table.json as instructions: the field comes to `DEC`, which takes
its bytes most significant first, each by the operation its phase selects (spec/30_encoding.md R70, R71, R73, R80). No
single beat holds a field, so `step` never selects one of these; each is what the steps on the field's bytes do
(assumption log 6). -/

namespace Sys2Proof.Machine

/-- One byte of a frame, by the operation R80 selects at `eof` = 0. -/
def decByte (b : Byte) (s : State) : Answer :=
  match s.dec.phase with
  | .magic => execDecMagic b s
  | .width => execDecWidth b s
  | .height => execDecHeight b s
  | .pay => execDecPay b s
  | .drain => execDecDrain b s
  | .unused5 => .refused (.rejected .unreachableDecPhase)
  | .unused6 => .refused (.rejected .unreachableDecPhase)
  | .unused7 => .refused (.rejected .unreachableDecPhase)

/-- The bytes of a field, in offset order. -/
def decBytes : List Byte → State → Answer
  | [], s => .next s
  | b :: bs, s => andThen (decByte b s) (decBytes bs)

/-- `HDR.magic` (R70, R101). -/
def execHdrMagic (m : BitVec 64) (s : State) : Answer := decBytes (beBytes 8 m) s

/-- `HDR.width` (R70, R102). -/
def execHdrWidth (w : BitVec 32) (s : State) : Answer := decBytes (beBytes 4 w) s

/-- `HDR.height` (R70, R103). -/
def execHdrHeight (h : BitVec 32) (s : State) : Answer := decBytes (beBytes 4 h) s

/-- `PIXEL.R` (R71, R104). -/
def execPixelR (v : BitVec 16) (s : State) : Answer := decBytes (beBytes 2 v) s

/-- `PIXEL.G` (R71, R104). -/
def execPixelG (v : BitVec 16) (s : State) : Answer := decBytes (beBytes 2 v) s

/-- `PIXEL.B` (R71, R104). -/
def execPixelB (v : BitVec 16) (s : State) : Answer := decBytes (beBytes 2 v) s

/-- `PIXEL.A` (R71, R104). -/
def execPixelA (v : BitVec 16) (s : State) : Answer := decBytes (beBytes 2 v) s

end Sys2Proof.Machine
end

