-- ==== Sys2Proof/Machine/Dispatch.lean ====
section
/-! DEFINITION. One arm per instruction. -/

namespace Sys2Proof.Machine

def exec (i : Instr) (s : State) : Host.Outcome State Fault Refusal :=
  match i with
  -- wire-format fields
  | .hdrMagic m => Sys2Proof.Machine.execHdrMagic m s
  | .hdrWidth w => Sys2Proof.Machine.execHdrWidth w s
  | .hdrHeight h => Sys2Proof.Machine.execHdrHeight h s
  | .pixelR v => Sys2Proof.Machine.execPixelR v s
  | .pixelG v => Sys2Proof.Machine.execPixelG v s
  | .pixelB v => Sys2Proof.Machine.execPixelB v s
  | .pixelA v => Sys2Proof.Machine.execPixelA v s
  -- DEC
  | .decMagic b => Sys2Proof.Machine.execDecMagic b s
  | .decWidth b => Sys2Proof.Machine.execDecWidth b s
  | .decHeight b => Sys2Proof.Machine.execDecHeight b s
  | .decPay b => Sys2Proof.Machine.execDecPay b s
  | .decDrain b => Sys2Proof.Machine.execDecDrain b s
  | .decEof data => Sys2Proof.Machine.execDecEof data s
  -- ENC
  | .encHdr w h => Sys2Proof.Machine.execEncHdr w h s
  | .encPix p => Sys2Proof.Machine.execEncPix p s
  | .encPixl p => Sys2Proof.Machine.execEncPixl p s
  | .encEnd payload => Sys2Proof.Machine.execEncEnd payload s
  | .encDrain k payload => Sys2Proof.Machine.execEncDrain k payload s
  | .encViol k payload => Sys2Proof.Machine.execEncViol k payload s

end Sys2Proof.Machine
end

