-- ==== Sys2Proof/Machine/Fetch.lean ====
section
/-! DEFINITION. The choice between the units, and the word a unit's next beat is (spec/20_memory.md R61, R62;
spec/30_encoding.md R80, R81; spec/70_reset_and_hazards.md R218). -/

namespace Sys2Proof.Machine

/-- The unit that moves where both could: either one (R62), but one that has been passed over as often as it may be moves
(R218, assumption log 2). -/
def Arbiter.pick (a : Arbiter) : UnitId :=
  match a.passed with
  | some (u, 0) => u
  | _ => Config.freeTurn a.tick

/-- What is kept of a choice in which `v` moved: the other unit was passed over. -/
def Arbiter.moved (a : Arbiter) (v : UnitId) : Arbiter where
  tick := a.tick + 1
  passed :=
    match a.passed with
    | none => some (v.other, Config.freePatience a.tick)
    | some (u, k) => if v = u then some (v.other, Config.freePatience a.tick) else some (u, k - 1)

/-- The word a `dec_in` beat is in a phase of `DEC` (R80). -/
def decWord (ph : DPhase) (t : ByteBeat) : OpWord := .dec (dsel ph (beatEof t)) (beatData t)

/-- The word an `enc_in` beat is in a phase of `ENC` (R81). -/
def encWord (ph : EPhase) (t : GridBeat) : OpWord := .enc (esel ph (beatKind t)) (beatPayload t)

/-- The word at the head of a unit's input port, if a beat stands there. -/
def State.fetch (s : State) : UnitId → Option OpWord
  | .dec => s.decIn.head?.map (decWord s.dec.phase)
  | .enc => s.encIn.head?.map (encWord s.enc.phase)

/-- The state in which a word of a unit, or the first byte of a wire field, is the next and only thing to happen. A
field's bytes stand on `dec_in` and `DEC` stands at the field's offset, of a frame of one pixel if it is a channel. -/
def State.withWord (s : State) : OpWord → State
  | .dec sel data =>
    { s with
      rst := false, encIn := [], decOutCap := none
      dec := { s.dec with phase := dPhaseOfCode ((sel >>> 1).setWidth 3) }
      decIn := byteBeat (sel.getLsbD 0) data :: s.decIn }
  | .enc sel payload =>
    { s with
      rst := false, decIn := [], encOutCap := none
      enc := { s.enc with phase := ePhaseOfCode ((sel >>> 2).setWidth 2) }
      encIn := gridBeat (kindOfCode (sel.setWidth 2)) payload :: s.encIn }
  | .wire off bytes =>
    { s with
      rst := false, encIn := [], decOutCap := none
      dec :=
        if off = 0 then { DecRegs.reset with phase := .magic }
        else if off = 8 then { DecRegs.reset with phase := .width }
        else if off = 12 then { DecRegs.reset with phase := .height }
        else { DecRegs.reset with
          phase := .pay, w := 1, h := 1
          idx := BitVec.ofNat 3 ((off - 16) % 8), rem := 8 - (off - 16) % 8 }
      decIn := bytes.map (byteBeat false) ++ s.decIn }

end Sys2Proof.Machine
end

