-- ==== Sys2Proof/Machine/UnitStep.lean ====
section
/-! DEFINITION. The step of one unit, and which unit moves. A unit takes the beat at the head of its input port and runs the
operation that beat selects, if its output port can take what the operation emits (spec/00_scope.md R17;
spec/20_memory.md R62; spec/40_decode.md R100; spec/41_encode.md R130; spec/70_reset_and_hazards.md R218). -/

namespace Sys2Proof.Machine

/-- A unit with no beat does nothing (R202); a beat in a phase no rule writes is refused (R83). -/
def stepUnit (u : UnitId) (s : State) : Answer :=
  match s.fetch u with
  | none => .next s
  | some word =>
    match decode word with
    | .error why => .refused (.rejected why)
    | .ok i => s.settle u (exec i (s.take u))

/-- A unit can move: a beat stands on its input port, and its output port can take what the step emits (R100, R130,
R218). In a phase no rule writes the step is the refusal of R83. -/
def State.ready (s : State) (u : UnitId) : Bool :=
  match s.fetch u with
  | none => false
  | some word =>
    match decode word with
    | .error _ => true
    | .ok i =>
      match exec i (s.take u) with
      | .next t => s.roomFor u t
      | .fault _ => true
      | .refused _ => true

/-- The unit that moves: the one that can; where both can, either one (R62). -/
def State.turn (s : State) : Option UnitId :=
  match s.ready .dec, s.ready .enc with
  | false, false => none
  | true, false => some .dec
  | false, true => some .enc
  | true, true => some s.arb.pick

/-- A choice is kept where one was made. -/
def State.chosen (s : State) : State :=
  if s.ready .dec && s.ready .enc then { s with arb := s.arb.moved s.arb.pick } else s

/-- The steps of the units a schedule names, in order. -/
def runSchedule : List UnitId → State → Answer
  | [], s => .next s
  | u :: us, s => andThen (stepUnit u s) (runSchedule us)

end Sys2Proof.Machine
end

