-- ==== Sys2Proof/Machine/Step.lean ====
section
/-! DEFINITION. One step of the block: a reset event, or one step of one unit, or nothing (spec/00_scope.md R17;
spec/60_exceptions.md R202; spec/70_reset_and_hazards.md R210, R218). -/

namespace Sys2Proof.Machine

/-- A reset event comes before any beat (assumption log 5). Where no unit can move nothing happens
(R202, R218). Otherwise the unit whose turn it is makes its step. -/
def step (s : State) : Host.Outcome State Fault Refusal :=
  if s.rst then .next s.resetEvent
  else
    match s.turn with
    | none => .next s
    | some u => stepUnit u s.chosen

/-- `s` with the table's word where `step` fetches next (assumption logs 7 and 12). -/
def State.withFetchWord (s : State) (nbits w : Nat) : State := s.withWord (tableWord nbits w)

/-- `n` steps. -/
def run : Nat → State → Answer
  | 0, s => .next s
  | n + 1, s => andThen (step s) (run n)

end Sys2Proof.Machine
end

