-- ==== Sys2Proof/Machine/Environment.lean ====
section
/-! DEFINITION. The host at the ports: what it does between two steps, and runs under a host that goes on offering and
taking beats (spec/10_state.md R40; spec/70_reset_and_hazards.md R210, R218). -/

namespace Sys2Proof.Machine

/-- What a host agent does (R40). -/
inductive HostAct where
  | offerDec (ts : List ByteBeat)
  | offerEnc (ts : List GridBeat)
  | sinkDec
  | sinkEnc
  | reset
  deriving DecidableEq, Repr

def State.act (s : State) : HostAct → State
  | .offerDec ts => s.offerDec ts
  | .offerEnc ts => s.offerEnc ts
  | .sinkDec => s.sinkDec
  | .sinkEnc => s.sinkEnc
  | .reset => s.raiseReset

/-- Several acts, in order. -/
def State.acts (s : State) (as : List HostAct) : State := as.foldl State.act s

/-- `n` rounds: in round `k` the host does `env k`, and then the block makes a step. -/
def rounds (env : Nat → List HostAct) : Nat → State → Answer
  | 0, s => .next s
  | n + 1, s => andThen (rounds env n s) fun t => step (t.acts (env n))

/-- The beats an act puts on `dec_in`. -/
def HostAct.decBeats : HostAct → List ByteBeat
  | .offerDec ts => ts
  | .offerEnc _ => []
  | .sinkDec => []
  | .sinkEnc => []
  | .reset => []

/-- The beats an act puts on `enc_in`. -/
def HostAct.encBeats : HostAct → List GridBeat
  | .offerDec _ => []
  | .offerEnc ts => ts
  | .sinkDec => []
  | .sinkEnc => []
  | .reset => []

/-- What the byte source offers in the first `n` rounds. -/
def decOffers (env : Nat → List HostAct) (n : Nat) : List ByteBeat :=
  (List.range n).flatMap fun k => (env k).flatMap HostAct.decBeats

/-- What the grid source offers in the first `n` rounds. -/
def encOffers (env : Nat → List HostAct) (n : Nat) : List GridBeat :=
  (List.range n).flatMap fun k => (env k).flatMap HostAct.encBeats

end Sys2Proof.Machine
end

