-- ==== Sys2Proof/Machine/Frame.lean ====
section
/-! DEFINITION. The whole-frame contracts `decode` and `encode` of the source, the beats a frame and a grid cross a port
as, and what a host observes of each unit for one frame (spec/42_frame_contracts.md R160 to R164; spec/41_encode.md R138;
spec/30_encoding.md R87; spec/60_exceptions.md R190). -/

namespace Sys2Proof.Machine

/-- A pixel grid: rows, each a list of pixels (R23). -/
abbrev Grid := List (List Pixel)

/-- A pixel as the source's `encode` takes it: four integers, not yet known to be 16-bit (R162). -/
structure IntPixel where
  r : Int
  g : Int
  b : Int
  a : Int
  deriving DecidableEq, Repr

/-- The grid has `h` rows of `w` pixels (R23). -/
def regular {α : Type} (w h : Nat) (g : List (List α)) : Bool :=
  g.length == h && g.all fun row => row.length == w

/-- The derived width: the length of the first row, 0 if there is none (R138, R162). -/
def derivedWidth {α : Type} : List (List α) → Nat
  | [] => 0
  | row :: _ => row.length

/-! ### decode (R160) -/

/-- `be(F, off, k)`, which is `MemRead(off, k)` (R15, R16). R16 defines it only where `off + k` is at most the length of the
frame; beyond the end this is the value of the bytes that exist, which is the model's choice (DESIGN CHOICE, assumption log
19), and neither `decodeFrame` nor a statement reads there. -/
def memRead (f : List Byte) (off k : Nat) : Nat :=
  ((f.drop off).take k).foldl (fun acc b => acc * 256 + b.toNat) 0

/-- `pixel_at(p)` (R160). -/
def pixelAt (f : List Byte) (p : Nat) : Pixel where
  r := BitVec.ofNat 16 (memRead f p 2)
  g := BitVec.ofNat 16 (memRead f (p + 2) 2)
  b := BitVec.ofNat 16 (memRead f (p + 4) 2)
  a := BitVec.ofNat 16 (memRead f (p + 6) 2)

/-- The grid of gate 5 (R160). -/
def gridAt (f : List Byte) (w h : Nat) : Grid :=
  (List.range h).map fun y => (List.range w).map fun x => pixelAt f (16 + 8 * (y * w + x))

/-- The function `decode`, its gates in order (R160). -/
def decodeFrame (c : Config) (f : List Byte) : Except Status Grid :=
  let n := f.length
  if n < 8 ∨ f.take 8 ≠ magicBytes then .error .invalidMagic
  else if n < 16 then .error .truncatedHeader
  else
    let w := memRead f 8 4
    let h := memRead f 12 4
    let len := 8 * w * h
    if 2 ^ c.lenBits ≤ len then .error .dimensionsTooLarge
    else if n - 16 < len then .error .truncatedPixelData
    else if n - 16 > len ∧ c.strictTrailing then .error .trailingData
    else .ok (gridAt f w h)

/-! ### encode (R162) -/

/-- `MemWrite` of `k` bytes of `v`, most significant first, at the end of what was written (R16). -/
def natBytes (k v : Nat) : List Byte :=
  (List.range k).map fun i => BitVec.ofNat 8 (v / 256 ^ (k - 1 - i))

/-- A channel is in `[0, 65535]` (R162). -/
def channelOk (v : Int) : Bool := 0 ≤ v && v ≤ 65535

def intPixelOk (p : IntPixel) : Bool := channelOk p.r && channelOk p.g && channelOk p.b && channelOk p.a

def intPixelBytes (p : IntPixel) : List Byte :=
  natBytes 2 p.r.toNat ++ natBytes 2 p.g.toNat ++ natBytes 2 p.b.toNat ++ natBytes 2 p.a.toNat

/-- The function `encode`, its checks in order (R162). -/
def encodeFrame (g : List (List IntPixel)) : Except Status (List Byte) :=
  let w := derivedWidth g
  let h := g.length
  if ¬ regular w h g then .error .irregularGrid
  else if 2 ^ 32 ≤ w ∨ 2 ^ 32 ≤ h then .error .dimensionsTooLarge
  else if ¬ g.all (fun row => row.all intPixelOk) then .error .invalidChannelValue
  else .ok (magicBytes ++ natBytes 4 w ++ natBytes 4 h ++ g.flatMap fun row => row.flatMap intPixelBytes)

/-- A pixel of a grid port as four integers. -/
def intPixel (p : Pixel) : IntPixel := ⟨p.r.toNat, p.g.toNat, p.b.toNat, p.a.toNat⟩

def intGrid (g : Grid) : List (List IntPixel) := g.map fun row => row.map intPixel

/-! ### Frames and grids as beats -/

/-- `DECODE F`: the bytes of `F`, then `EOF`, whose `data` bits may be anything (R74, R87). -/
def decodeBeats (f : List Byte) (eofData : Byte) : List ByteBeat :=
  f.map (byteBeat false) ++ [byteBeat true eofData]

/-- A row's pixels, the last one marked (R138). -/
def rowToks : List Pixel → List GridTok
  | [] => []
  | [p] => [.pixl p]
  | p :: q :: ps => .pix p :: rowToks (q :: ps)

/-- A header and the pixels of a grid in row-major order (R138). -/
def gridToks (w h : BitVec 32) (g : Grid) : List GridTok := .hdr w h :: g.flatMap rowToks

/-- `stream(W, H, G)`; the `payload` bits of `END` may be anything (R76, R138). -/
def streamBeats (w h : BitVec 32) (g : Grid) (endPayload : BitVec 64) : List GridBeat :=
  (gridToks w h g).map gridTokWord ++ [gridBeat .close endPayload]

/-- `stream(G)`, with the derived dimensions (R138): `ENCODE G` (R87). R164 says that a grid with `2^32` rows or a first row
of `2^32` pixels is one "no beat sequence can express"; for such a grid the dimensions are cut to 32 bits here, which is the
model's choice (DESIGN CHOICE, assumption log 18), and no statement is about it. -/
def encodeBeats (g : Grid) (endPayload : BitVec 64) : List GridBeat :=
  streamBeats (BitVec.ofNat 32 (derivedWidth g)) (BitVec.ofNat 32 g.length) g endPayload

/-! ### Observations (R161, R164, R190) -/

/-- The pixel a token carries. -/
def tokPixel : GridTok → Option Pixel
  | .pix p => some p
  | .pixl p => some p
  | .hdr _ _ => none
  | .stat _ => none

/-- The byte a token carries. -/
def tokByte : ByteTok → Option Byte
  | .byte b => some b
  | .eof _ => none

/-- `grid_of(W, H, q)`: `h` rows, each the next `w` pixels (R161). -/
def gridOf {α : Type} (w : Nat) : Nat → List α → List (List α)
  | 0, _ => []
  | h + 1, q => q.take w :: gridOf w h (q.drop w)

/-- The tokens of one frame on `dec_out` (R108): at most one `HDR`, pixels only after it, and one `STAT`. The header, the
pixels and the code; none for any other tokens. -/
def decFrameToks : List GridTok → Option (Option (BitVec 32 × BitVec 32) × List Pixel × BitVec 4)
  | [.stat code] => some (none, [], code)
  | .hdr w h :: toks =>
    match toks.getLast? with
    | some (.stat code) => (toks.dropLast.mapM tokPixel).map fun q => (some (w, h), q, code)
    | _ => none
  | _ => none

/-- `obs_dec` of the beats of one frame on `dec_out`: the error of its closing `STAT`, or the grid if the code is `OK`
(R161). R161 defines it of one frame only, and of an `OK` frame with its `HDR` and its `W * H` pixels; for every other list
of beats (no closing `STAT`, more than one, a pixel with no `HDR`, an `OK` frame with another number of pixels, a reserved
code) there is none, which is the model's choice (DESIGN CHOICE, assumption log 17). The row marks are not read. -/
def obsDec (beats : List GridBeat) : Option (Except Status Grid) :=
  match decFrameToks (beats.map gridTokOf) with
  | none => none
  | some (header, q, code) =>
    match statusOfCode code with
    | none => none
    | some .ok =>
      match header with
      | none => none
      | some (w, h) => if q.length = w.toNat * h.toNat then some (.ok (gridOf w.toNat h.toNat q)) else none
    | some e => some (.error e)

/-- The tokens of one frame on `enc_out` (R137): bytes, and one `EOF`. -/
def encFrameToks (toks : List ByteTok) : Option (List Byte × BitVec 4) :=
  match toks.getLast? with
  | some (.eof code) => (toks.dropLast.mapM tokByte).map fun o => (o, code)
  | _ => none

/-- `obs_enc` of the beats of one frame on `enc_out`: the error of its closing `EOF`, or the bytes if the code is `OK`
(R164). R164 defines it of one frame only; for every other list of beats (no closing `EOF`, more than one, a reserved code)
there is none, which is the model's choice (DESIGN CHOICE, assumption log 17). -/
def obsEnc (beats : List ByteBeat) : Option (Except Status (List Byte)) :=
  match encFrameToks (beats.map byteTokOf) with
  | none => none
  | some (o, code) =>
    match statusOfCode code with
    | none => none
    | some .ok => some (.ok o)
    | some e => some (.error e)

/-- The closed frames among the beats of a byte port, in order, each with its `EOF`; `held` are the beats of the frame that
is open. Beats after the last `EOF` belong to no closed frame. -/
def closedFrames (held : List ByteBeat) : List ByteBeat → List (List ByteBeat)
  | [] => []
  | t :: ts => if beatEof t then (held ++ [t]) :: closedFrames [] ts else closedFrames (held ++ [t]) ts

/-- What the gate forwards of one closed frame: the frame if its code is `OK`, nothing otherwise (R219). -/
def gateFrame (eofData : Byte) (beats : List ByteBeat) : List ByteBeat :=
  match obsEnc beats with
  | some (.ok f) => decodeBeats f eofData
  | _ => []

/-- The gate of R219 between `enc_out` and `dec_in`: frame by frame it forwards the frame of an `EOF(OK)` and voids any
other; it forwards nothing of a frame that is not closed yet. -/
def gate (beats : List ByteBeat) (eofData : Byte) : List ByteBeat :=
  (closedFrames [] beats).flatMap (gateFrame eofData)

end Sys2Proof.Machine
end

