-- ==== Sys2Proof/Safety.lean ====
section
/-! DEFINITION. What holds of every state a run reaches (spec/40_decode.md R107; spec/41_encode.md R137;
spec/30_encoding.md R83), and the words claims are written in. -/

namespace Sys2Proof.Machine

/-- A phase some rule writes (R83). -/
def dPhaseReachable : DPhase → Bool
  | .magic => true
  | .width => true
  | .height => true
  | .pay => true
  | .drain => true
  | .unused5 => false
  | .unused6 => false
  | .unused7 => false

def ePhaseReachable : EPhase → Bool
  | .idle => true
  | .body => true
  | .drain => true
  | .unused3 => false

/-- Both units are in a phase some rule writes. -/
def State.phasesReachable (s : State) : Prop :=
  dPhaseReachable s.dec.phase = true ∧ ePhaseReachable s.enc.phase = true

/-- The unit whose operation an instruction is; a wire field is taken by `DEC` (assumption log 6). -/
def instrUnit : Instr → UnitId
  | .hdrMagic _ => .dec
  | .hdrWidth _ => .dec
  | .hdrHeight _ => .dec
  | .pixelR _ => .dec
  | .pixelG _ => .dec
  | .pixelB _ => .dec
  | .pixelA _ => .dec
  | .decMagic _ => .dec
  | .decWidth _ => .dec
  | .decHeight _ => .dec
  | .decPay _ => .dec
  | .decDrain _ => .dec
  | .decEof _ => .dec
  | .encHdr _ _ => .enc
  | .encPix _ => .enc
  | .encPixl _ => .enc
  | .encEnd _ => .enc
  | .encDrain _ _ => .enc
  | .encViol _ _ => .enc

/-- The fields of the wire format (R70, R71), which no single beat holds. -/
def isWireField : Instr → Bool
  | .hdrMagic _ => true
  | .hdrWidth _ => true
  | .hdrHeight _ => true
  | .pixelR _ => true
  | .pixelG _ => true
  | .pixelB _ => true
  | .pixelA _ => true
  | .decMagic _ => false
  | .decWidth _ => false
  | .decHeight _ => false
  | .decPay _ => false
  | .decDrain _ => false
  | .decEof _ => false
  | .encHdr _ _ => false
  | .encPix _ => false
  | .encPixl _ => false
  | .encEnd _ => false
  | .encDrain _ _ => false
  | .encViol _ _ => false

/-- A port with this bound, of a unit one step of which emits at most `most` beats, can go from `before` beats to `after`
(R218, assumption log 4). -/
abbrev canTake (cap : Option Nat) (most before after : Nat) : Prop :=
  after ≤ before ∨ ∀ c, cap = some c → after ≤ max c most

/-- The beat a 16-bit, 32-bit or 64-bit number's byte at position `j` (0 the lowest) is on a byte port. -/
def byteOfNat (v j : Nat) : ByteBeat := BitVec.ofNat 9 (v / 256 ^ j % 256)

/-- The eight byte beats of a pixel, high byte of each channel first (R132). -/
def pixelByteBeats (p : Pixel) : List ByteBeat :=
  [byteOfNat p.r.toNat 1, byteOfNat p.r.toNat 0, byteOfNat p.g.toNat 1, byteOfNat p.g.toNat 0,
   byteOfNat p.b.toNat 1, byteOfNat p.b.toNat 0, byteOfNat p.a.toNat 1, byteOfNat p.a.toNat 0]

/-- The sixteen byte beats of a header (R131). -/
def headerByteBeats (w h : BitVec 32) : List ByteBeat :=
  [0x66, 0x61, 0x72, 0x62, 0x66, 0x65, 0x6C, 0x64,
   byteOfNat w.toNat 3, byteOfNat w.toNat 2, byteOfNat w.toNat 1, byteOfNat w.toNat 0,
   byteOfNat h.toNat 3, byteOfNat h.toNat 2, byteOfNat h.toNat 1, byteOfNat h.toNat 0]

/-- The grid beat `{kind, payload}` as a number (R75). -/
def gridWordOf (kind payload : Nat) : GridBeat := BitVec.ofNat 66 (kind * 2 ^ 64 + payload)

/-- The payload `{R, G, B, A}` as a number (R22). -/
def pixelPayload (p : Pixel) : Nat :=
  p.r.toNat * 2 ^ 48 + p.g.toNat * 2 ^ 32 + p.b.toNat * 2 ^ 16 + p.a.toNat

/-- R107 in `D_PAY`: what `d_rem`, `d_idx` and `d_col` say of the `8 * d_w * d_h - d_rem` bytes taken. -/
def payInv (c : Config) (d : DecRegs) : Prop :=
  d.rem ≤ payloadLength d.w d.h ∧ payloadLength d.w d.h < 2 ^ c.lenBits ∧
    d.idx.toNat = (payloadLength d.w d.h - d.rem) % 8 ∧
    (d.w.toNat = 0 → d.col = 0) ∧
    (0 < d.w.toNat → d.col.toNat = (payloadLength d.w d.h - d.rem) / 8 % d.w.toNat)

/-- R107. -/
def decInv (c : Config) (d : DecRegs) : Prop :=
  match d.phase with
  | .magic => d.err = 0
  | .width => d.err = 0 ∧ d.idx.toNat ≤ 3
  | .height => d.err = 0 ∧ d.idx.toNat ≤ 3
  | .pay => d.err = 0 ∧ payInv c d
  | .drain => d.err = 1 ∨ d.err = 3 ∨ d.err = 5
  | .unused5 => False
  | .unused6 => False
  | .unused7 => False

/-- R137 in `E_BODY`. -/
def bodyInv (e : EncRegs) : Prop :=
  e.rem.toNat ≤ e.w.toNat * e.h.toNat ∧
    (e.w.toNat = 0 → e.col = 0) ∧
    (0 < e.w.toNat → e.col.toNat = (e.w.toNat * e.h.toNat - e.rem.toNat) % e.w.toNat)

/-- R137. -/
def encInv (e : EncRegs) : Prop :=
  match e.phase with
  | .idle => e.err = 0
  | .body => e.err = 0 ∧ bodyInv e
  | .drain => e.err = 6 ∨ e.err = 8
  | .unused3 => False

/-- The invariant of every state a run reaches. -/
def State.inv (s : State) : Prop := decInv s.cfg s.dec ∧ encInv s.enc

end Sys2Proof.Machine
end

