-- ==== Sys2Proof/Certificates/Slice0/Obligations.lean ====
section
/-! DEFINITION. The statements about the model. Each docstring names the rule of spec/ it formalises. -/

open Sys2Proof Sys2Proof.Machine

/-! ### Encodings -/

/-- R70, R71, R80, R81: decoding the word of a well-formed instruction gives the instruction back, every operand bit of
it. -/
def Obligations.DecodeOfEncodeIsTheInstruction : Prop :=
  ∀ i : Instr, i.wellFormed = true → decode (encode i) = .ok i

/-- R50, R51, R70, R71, R73, R80, R81, R88: what the decoder accepts is well formed; for a selector, it is an instruction of
a row of the opcode table that covers the selector; for bytes at a frame offset, it is the field that stands there, the
channels those of every pixel, with the big-endian value of the bytes. -/
def Obligations.DecodedWordIsCoveredByItsTableRow : Prop :=
  ∀ (word : OpWord) (i : Instr), decode word = .ok i →
    i.wellFormed = true ∧
    (∀ sel data, word = .dec sel data →
      ∃ r ∈ decSelRows, selRowCovers r sel = true ∧ r.mnemonic = i.mnemonic) ∧
    (∀ sel payload, word = .enc sel payload →
      ∃ r ∈ encSelRows, selRowCovers r sel = true ∧ r.mnemonic = i.mnemonic) ∧
    (∀ off bytes, word = .wire off bytes →
      (∃ v, i = .hdrMagic v ∧ off = 0 ∧ bytes.length = 8 ∧ v.toNat = memRead bytes 0 8) ∨
      (∃ v, i = .hdrWidth v ∧ off = 8 ∧ bytes.length = 4 ∧ v.toNat = memRead bytes 0 4) ∨
      (∃ v, i = .hdrHeight v ∧ off = 12 ∧ bytes.length = 4 ∧ v.toNat = memRead bytes 0 4) ∨
      ∃ (v : BitVec 16) (k : Nat), bytes.length = 2 ∧ v.toNat = memRead bytes 0 2 ∧
        (i = .pixelR v ∧ off = 16 + 8 * k ∨ i = .pixelG v ∧ off = 16 + 8 * k + 2 ∨
          i = .pixelB v ∧ off = 16 + 8 * k + 4 ∨ i = .pixelA v ∧ off = 16 + 8 * k + 6))

/-- R80, R83, R88: the selector of a `dec_in` beat, the operation of each selector, no operation for the unreachable ones
(the odd ones among them by R83 and R88, assumption log 13), and exactly one row for each reachable one. -/
def Obligations.DecSelectorPicksTheOperation : Prop :=
  (∀ (s : State) (t : ByteBeat) (ts : List ByteBeat), s.decIn = t :: ts →
    ∃ sel : BitVec 4, s.fetch .dec = some (.dec sel (t.extractLsb' 0 8)) ∧
      sel.toNat = 2 * (dPhaseCode s.dec.phase).toNat + (t.getLsbD 8).toNat) ∧
  (∀ data : Byte,
    decode (.dec 0x0#4 data) = .ok (.decMagic data) ∧ decode (.dec 0x2#4 data) = .ok (.decWidth data) ∧
    decode (.dec 0x4#4 data) = .ok (.decHeight data) ∧ decode (.dec 0x6#4 data) = .ok (.decPay data) ∧
    decode (.dec 0x8#4 data) = .ok (.decDrain data) ∧
    (∀ sel ∈ [0x1#4, 0x3#4, 0x5#4, 0x7#4, 0x9#4], decode (.dec sel data) = .ok (.decEof data)) ∧
    (∀ sel ∈ [0xA#4, 0xB#4, 0xC#4, 0xD#4, 0xE#4, 0xF#4],
      decode (.dec sel data) = .error .unreachableDecPhase)) ∧
  (∀ sel : BitVec 4, sel.toNat ≤ 9 → (decSelRows.filter fun r => selRowCovers r sel).length = 1)

/-- R81: the selector of an `enc_in` beat, the operation of each selector, no operation for the unreachable ones, and
exactly one row for each reachable one. -/
def Obligations.EncSelectorPicksTheOperation : Prop :=
  (∀ (s : State) (t : GridBeat) (ts : List GridBeat), s.encIn = t :: ts →
    ∃ sel : BitVec 4, s.fetch .enc = some (.enc sel (t.extractLsb' 0 64)) ∧
      sel.toNat = 4 * (ePhaseCode s.enc.phase).toNat + (t.extractLsb' 64 2).toNat) ∧
  (∀ p : BitVec 64,
    (∃ w h, decode (.enc 0x0#4 p) = .ok (.encHdr w h) ∧
      w.toNat = p.toNat / 2 ^ 32 ∧ h.toNat = p.toNat % 2 ^ 32) ∧
    decode (.enc 0x1#4 p) = .ok (.encViol .pix p) ∧ decode (.enc 0x2#4 p) = .ok (.encViol .pixl p) ∧
    decode (.enc 0x4#4 p) = .ok (.encViol .hdr p) ∧
    (∃ px, decode (.enc 0x5#4 p) = .ok (.encPix px) ∧ pixelPayload px = p.toNat) ∧
    (∃ px, decode (.enc 0x6#4 p) = .ok (.encPixl px) ∧ pixelPayload px = p.toNat) ∧
    decode (.enc 0x8#4 p) = .ok (.encDrain .hdr p) ∧ decode (.enc 0x9#4 p) = .ok (.encDrain .pix p) ∧
    decode (.enc 0xA#4 p) = .ok (.encDrain .pixl p) ∧
    (∀ sel ∈ [0x3#4, 0x7#4, 0xB#4], decode (.enc sel p) = .ok (.encEnd p)) ∧
    (∀ sel ∈ [0xC#4, 0xD#4, 0xE#4, 0xF#4], decode (.enc sel p) = .error .unreachableEncPhase)) ∧
  (∀ sel : BitVec 4, sel.toNat ≤ 11 → (encSelRows.filter fun r => selRowCovers r sel).length = 1)

/-- Words written out from spec/30_encoding.md R70 to R81 and spec/95_test_vectors.md decode to what they stand for. -/
def Obligations.WrittenOutWordsDecode : Prop :=
  decode (.dec 0b0000#4 0x66#8) = .ok (.decMagic 0x66#8) ∧
  decode (.dec 0b0110#4 0x04#8) = .ok (.decPay 0x04#8) ∧
  decode (.dec 0b0001#4 0xFF#8) = .ok (.decEof 0xFF#8) ∧
  decode (.enc 0b0000#4 0x0000000200000003#64) = .ok (.encHdr 2#32 3#32) ∧
  decode (.enc 0b0101#4 0x0001000200030004#64) = .ok (.encPix ⟨1, 2, 3, 4⟩) ∧
  decode (.enc 0b1011#4 0xFFFFFFFFFFFFFFFF#64) = .ok (.encEnd 0xFFFFFFFFFFFFFFFF#64) ∧
  decode (.wire 0 [0x66, 0x61, 0x72, 0x62, 0x66, 0x65, 0x6C, 0x64]) = .ok (.hdrMagic 0x6661726266656C64#64) ∧
  decode (.wire 0 [0x46, 0x61, 0x72, 0x62, 0x66, 0x65, 0x6C, 0x64]) = .error .notTheMagic ∧
  decode (.wire 8 [0x00, 0x00, 0x01, 0x02]) = .ok (.hdrWidth 258#32) ∧
  decode (.wire 12 [0x80, 0x00, 0x00, 0x00]) = .ok (.hdrHeight 2147483648#32) ∧
  decode (.wire 30 [0x12, 0x34]) = .ok (.pixelA 4660#16)

/-- R75: the fields of a `dec_out` beat, as one number. -/
def Obligations.DecOutBeatLayout : Prop :=
  (∀ w h : BitVec 32, gridTokWord (.hdr w h) = gridWordOf 0 (w.toNat * 2 ^ 32 + h.toNat)) ∧
  (∀ p : Pixel, gridTokWord (.pix p) = gridWordOf 1 (pixelPayload p)) ∧
  (∀ p : Pixel, gridTokWord (.pixl p) = gridWordOf 2 (pixelPayload p)) ∧
  (∀ c : BitVec 4, gridTokWord (.stat c) = gridWordOf 3 c.toNat)

/-- R77: the fields of an `enc_out` beat, as one number. -/
def Obligations.EncOutBeatLayout : Prop :=
  (∀ b : Byte, byteTokWord (.byte b) = BitVec.ofNat 9 b.toNat) ∧
  (∀ c : BitVec 4, byteTokWord (.eof c) = BitVec.ofNat 9 (256 + c.toNat))

/-- R73: a shift register takes the value of the field's bytes, most significant first, whatever it held, and a value is
sent as the bytes that build it. -/
def Obligations.ShiftRegisterHoldsTheBytesOfItsField : Prop :=
  (∀ (r : BitVec 32) (a b c d : Byte),
    (([a, b, c, d].foldl shiftIn r : BitVec 32)).toNat
      = a.toNat * 256 ^ 3 + b.toNat * 256 ^ 2 + c.toNat * 256 + d.toNat) ∧
  (∀ (r v : BitVec 32), (beBytes 4 v).foldl shiftIn r = v) ∧
  (∀ (r v : BitVec 64), (beBytes 8 v).foldl shiftIn r = v) ∧
  (∀ (r v : BitVec 16), (beBytes 2 v).foldl shiftIn r = v)

/-! ### The step -/

/-- R17, R100, R130: with one unit's beat at hand, a step runs the instruction the beat selects on the state without
that beat, and answers its next state if the output port can take what it emitted; where one unit cannot move, the step is
the other's; where both can, it is that of one of them, and the choice is kept. -/
def Obligations.StepRunsTheDecodedInstruction : Prop :=
  (∀ (s t : State) (b : ByteBeat) (bs : List ByteBeat) (i : Instr),
    s.rst = false → s.decIn = b :: bs → s.encIn = [] →
    decode (decWord s.dec.phase b) = .ok i → exec i { s with decIn := bs } = .next t →
    canTake s.decOutCap 1 s.decOut.length t.decOut.length → step s = .next t) ∧
  (∀ (s t : State) (b : GridBeat) (bs : List GridBeat) (i : Instr),
    s.rst = false → s.encIn = b :: bs → s.decIn = [] →
    decode (encWord s.enc.phase b) = .ok i → exec i { s with encIn := bs } = .next t →
    canTake s.encOutCap 16 s.encOut.length t.encOut.length → step s = .next t) ∧
  (∀ (s : State) (u v : UnitId), s.rst = false → u ≠ v → s.ready v = false → step s = stepUnit u s) ∧
  (∀ s : State, s.rst = false → s.ready .dec = true → s.ready .enc = true →
    ∃ u : UnitId, step s = stepUnit u { s with arb := s.arb.moved u } ∧ ∀ v, s.arb.passed = some (v, 0) → u = v)

/-- R202: a unit with no input beat does nothing and keeps its state, and a block with none does nothing. -/
def Obligations.UnitWithoutBeatKeepsItsState : Prop :=
  ∀ s t : State, s.rst = false → step s = .next t →
    (s.decIn = [] → t.dec = s.dec ∧ t.decIn = [] ∧ t.decOut = s.decOut) ∧
    (s.encIn = [] → t.enc = s.enc ∧ t.encIn = [] ∧ t.encOut = s.encOut) ∧
    (s.decIn = [] → s.encIn = [] → t = s)

/-- R218: an output port that cannot take what a step emits stops the unit, whichever operation it is, and the unit keeps
its state and its beat, while the other unit goes on. The bounds on the ports are the model's (assumption log 4). -/
def Obligations.FullOutputPortStopsTheUnit : Prop :=
  (∀ (s t : State) (b : ByteBeat) (bs : List ByteBeat) (i : Instr),
    s.decIn = b :: bs → decode (decWord s.dec.phase b) = .ok i → exec i { s with decIn := bs } = .next t →
    ¬ canTake s.decOutCap 1 s.decOut.length t.decOut.length →
    stepUnit .dec s = .next s ∧ (s.rst = false → step s = stepUnit .enc s)) ∧
  (∀ (s t : State) (b : GridBeat) (bs : List GridBeat) (i : Instr),
    s.encIn = b :: bs → decode (encWord s.enc.phase b) = .ok i → exec i { s with encIn := bs } = .next t →
    ¬ canTake s.encOutCap 16 s.encOut.length t.encOut.length →
    stepUnit .enc s = .next s ∧ (s.rst = false → step s = stepUnit .dec s)) ∧
  (∀ (s : State) (data : Byte) (bs : List ByteBeat) (c : Nat),
    dPhaseReachable s.dec.phase = true → s.decIn = byteBeat true data :: bs → s.decOutCap = some c →
    max c 1 ≤ s.decOut.length → stepUnit .dec s = .next s) ∧
  (∀ (s : State) (w h : BitVec 32) (bs : List GridBeat) (c : Nat),
    s.enc.phase = .idle → s.encIn = gridBeat .hdr (hdrPayload w h) :: bs → s.encOutCap = some c →
    max c 16 < s.encOut.length + 16 → stepUnit .enc s = .next s) ∧
  (∀ (s : State) (p : Pixel) (bs : List GridBeat) (c : Nat),
    s.enc.phase = .body → s.enc.rem ≠ 0 → s.enc.col.toNat + 1 ≠ s.enc.w.toNat →
    s.encIn = gridBeat .pix (pixelWord p) :: bs → s.encOutCap = some c →
    max c 16 < s.encOut.length + 8 → stepUnit .enc s = .next s)

/-- R210: a reset event puts every register of both units to its reset value, discards the beats on all four ports and
emits none; and no state changes without a reset event or an input beat. -/
def Obligations.ResetEventAndNothingElseWithoutABeat : Prop :=
  (∀ s : State, s.rst = true →
    step s = .next { s with
      dec := ⟨.magic, 0, 0, 0, 0, 0, 0, 0⟩, enc := ⟨.idle, 0, 0, 0, 0, 0⟩
      decIn := [], decOut := [], encIn := [], encOut := [], rst := false }) ∧
  (∀ s : State, s.rst = false → s.decIn = [] → s.encIn = [] → step s = .next s)

/-- R211: the values after reset, which are those after any frame's `EOF` or `END`; a reset between frames changes
nothing. -/
def Obligations.ResetStateIsTheStateBetweenFrames : Prop :=
  (State.reset.dec = ⟨.magic, 0, 0, 0, 0, 0, 0, 0⟩ ∧ State.reset.enc = ⟨.idle, 0, 0, 0, 0, 0⟩) ∧
  (∀ (s t : State) (data : Byte), exec (.decEof data) s = .next t → t.dec = State.reset.dec) ∧
  (∀ (s t : State) (p : BitVec 64), exec (.encEnd p) s = .next t → t.enc = State.reset.enc) ∧
  (∀ s : State, s.rst = true → s.dec = State.reset.dec → s.enc = State.reset.enc → s.decIn = [] →
    s.decOut = [] → s.encIn = [] → s.encOut = [] → step s = .next { s with rst := false })

/-- R83: a state whose phase no rule writes has no step of that unit. -/
def Obligations.UnreachablePhaseIsRefused : Prop :=
  (∀ (s : State) (b : ByteBeat) (bs : List ByteBeat), dPhaseReachable s.dec.phase = false → s.decIn = b :: bs →
    stepUnit .dec s = .refused (.rejected .unreachableDecPhase)) ∧
  (∀ (s : State) (b : GridBeat) (bs : List GridBeat), ePhaseReachable s.enc.phase = false → s.encIn = b :: bs →
    stepUnit .enc s = .refused (.rejected .unreachableEncPhase))

/-! ### What each `DEC` operation does -/

/-- R101: a byte of the magic that differs raises `InvalidMagic`; one that matches moves on, the eighth to `D_WIDTH`. -/
def Obligations.DecMagicChecksOneByte : Prop :=
  (∀ b : Byte, decode (.dec 0x0#4 b) = .ok (.decMagic b)) ∧
  ∀ (b m : Byte) (s : State), s.dec.phase = .magic →
    ([0x66, 0x61, 0x72, 0x62, 0x66, 0x65, 0x6C, 0x64] : List Byte)[s.dec.idx.toNat]? = some m →
    (b ≠ m → exec (.decMagic b) s = .next { s with dec := { s.dec with err := 1#4, phase := .drain } }) ∧
    (b = m → s.dec.idx.toNat = 7 →
      exec (.decMagic b) s = .next { s with dec := { s.dec with idx := 0#3, phase := .width } }) ∧
    (b = m → s.dec.idx.toNat < 7 →
      exec (.decMagic b) s =
        .next { s with dec := { s.dec with idx := BitVec.ofNat 3 (s.dec.idx.toNat + 1) } })

/-- R102: a byte of the width is shifted in, the fourth moves to `D_HEIGHT`, and four bytes give their value whatever `d_w` held. -/
def Obligations.DecWidthTakesOneByte : Prop :=
  (∀ b : Byte, decode (.dec 0x2#4 b) = .ok (.decWidth b)) ∧
  (∀ (b : Byte) (s : State), s.dec.phase = .width →
    (s.dec.idx.toNat = 3 → exec (.decWidth b) s = .next { s with dec := { s.dec with
      w := BitVec.ofNat 32 (s.dec.w.toNat * 256 + b.toNat), idx := 0#3, phase := .height } }) ∧
    (s.dec.idx.toNat ≠ 3 → exec (.decWidth b) s = .next { s with dec := { s.dec with
      w := BitVec.ofNat 32 (s.dec.w.toNat * 256 + b.toNat), idx := BitVec.ofNat 3 (s.dec.idx.toNat + 1) } })) ∧
  (∀ (a b c d : Byte) (s : State), s.dec.phase = .width → s.dec.idx = 0 →
    andThen (exec (.decWidth a) s) (fun s => andThen (exec (.decWidth b) s) fun s =>
      andThen (exec (.decWidth c) s) (exec (.decWidth d))) =
    .next { s with dec := { s.dec with
      w := BitVec.ofNat 32 (a.toNat * 256 ^ 3 + b.toNat * 256 ^ 2 + c.toNat * 256 + d.toNat)
      idx := 0#3, phase := .height } })

/-- R103: a byte of the height is shifted in; the fourth checks `8 * W * H` over the integers and raises `DimensionsTooLarge`, or
enters `D_PAY` owing that many bytes and sends `HDR`. -/
def Obligations.DecHeightTakesOneByteAndChecksTheSize : Prop :=
  (∀ b : Byte, decode (.dec 0x4#4 b) = .ok (.decHeight b)) ∧
  ∀ (b : Byte) (s : State) (h : BitVec 32), s.dec.phase = .height →
    h = BitVec.ofNat 32 (s.dec.h.toNat * 256 + b.toNat) →
    (s.dec.idx.toNat ≠ 3 → exec (.decHeight b) s = .next { s with dec := { s.dec with
      h := h, idx := BitVec.ofNat 3 (s.dec.idx.toNat + 1) } }) ∧
    (s.dec.idx.toNat = 3 → 2 ^ s.cfg.lenBits ≤ 8 * s.dec.w.toNat * h.toNat →
      exec (.decHeight b) s = .next { s with dec := { s.dec with
        h := h, idx := 0#3, err := 3#4, phase := .drain } }) ∧
    (s.dec.idx.toNat = 3 → 8 * s.dec.w.toNat * h.toNat < 2 ^ s.cfg.lenBits →
      exec (.decHeight b) s = .next { s with
        dec := { s.dec with
          h := h, idx := 0#3, rem := 8 * s.dec.w.toNat * h.toNat, col := 0#32, phase := .pay }
        decOut := s.decOut ++ [gridWordOf 0 (s.dec.w.toNat * 2 ^ 32 + h.toNat)] })

/-- R104: a byte of pixel data is shifted in, the eighth of a pixel sends it, marked in the last column; a byte beyond the
declared length raises `TrailingData` or is discarded, as `STRICT_TRAILING` says. -/
def Obligations.DecPayTakesOneByteAndSendsThePixel : Prop :=
  (∀ b : Byte, decode (.dec 0x6#4 b) = .ok (.decPay b)) ∧
  ∀ (b : Byte) (s : State) (sh : BitVec 64), s.dec.phase = .pay →
    sh = BitVec.ofNat 64 (s.dec.sh.toNat * 256 + b.toNat) →
    (s.dec.rem = 0 → s.cfg.strictTrailing = true →
      exec (.decPay b) s = .next { s with dec := { s.dec with err := 5#4, phase := .drain } }) ∧
    (s.dec.rem = 0 → s.cfg.strictTrailing = false → exec (.decPay b) s = .next s) ∧
    (0 < s.dec.rem → s.dec.idx.toNat < 7 →
      exec (.decPay b) s = .next { s with dec := { s.dec with
        rem := s.dec.rem - 1, sh := sh, idx := BitVec.ofNat 3 (s.dec.idx.toNat + 1) } }) ∧
    (0 < s.dec.rem → s.dec.idx.toNat = 7 → s.dec.col.toNat + 1 = s.dec.w.toNat →
      exec (.decPay b) s = .next { s with
        dec := { s.dec with rem := s.dec.rem - 1, sh := sh, idx := 0#3, col := 0#32 }
        decOut := s.decOut ++ [gridWordOf 2 sh.toNat] }) ∧
    (0 < s.dec.rem → s.dec.idx.toNat = 7 → s.dec.col.toNat + 1 ≠ s.dec.w.toNat →
      exec (.decPay b) s = .next { s with
        dec := { s.dec with
          rem := s.dec.rem - 1, sh := sh, idx := 0#3, col := BitVec.ofNat 32 (s.dec.col.toNat + 1) }
        decOut := s.decOut ++ [gridWordOf 1 sh.toNat] })

/-- R105: a byte of a failed frame has no effect, and any number of them is drained. -/
def Obligations.DecDrainHasNoEffect : Prop :=
  (∀ b : Byte, decode (.dec 0x8#4 b) = .ok (.decDrain b)) ∧
  (∀ (b : Byte) (s : State), s.dec.phase = .drain → exec (.decDrain b) s = .next s) ∧
  (∀ (bs : List Byte) (s : State), s.rst = false → s.encIn = [] → s.dec.phase = .drain →
    s.decIn = bs.map (byteBeat false) → run bs.length s = .next { s with decIn := [] })

/-- R106: `EOF` sends the status of the frame, by phase, and puts all eight registers to their reset values. -/
def Obligations.DecEofReportsTheStatusAndResets : Prop :=
  (∀ (sel : BitVec 4) (data : Byte), sel.toNat ≤ 9 → sel.toNat % 2 = 1 →
    decode (.dec sel data) = .ok (.decEof data)) ∧
  ∀ (data : Byte) (s : State) (closed : Nat → State),
    (∀ c, closed c = { s with
      dec := ⟨.magic, 0, 0, 0, 0, 0, 0, 0⟩, decOut := s.decOut ++ [gridWordOf 3 c] }) →
    (s.dec.phase = .magic → exec (.decEof data) s = .next (closed 1)) ∧
    (s.dec.phase = .width ∨ s.dec.phase = .height → exec (.decEof data) s = .next (closed 2)) ∧
    (s.dec.phase = .pay → 0 < s.dec.rem → exec (.decEof data) s = .next (closed 4)) ∧
    (s.dec.phase = .pay → s.dec.rem = 0 → exec (.decEof data) s = .next (closed 0)) ∧
    (s.dec.phase = .drain → exec (.decEof data) s = .next (closed s.dec.err.toNat))

/-! ### What each `ENC` operation does -/

/-- R131: `HDR` starts a frame, with `W * H` pixels owed, and sends the sixteen header bytes. -/
def Obligations.EncHdrStartsAFrame : Prop :=
  (∀ w h : BitVec 32, decode (.enc 0x0#4 (BitVec.ofNat 64 (w.toNat * 2 ^ 32 + h.toNat))) = .ok (.encHdr w h)) ∧
  ∀ (w h : BitVec 32) (s : State), s.enc.phase = .idle →
    exec (.encHdr w h) s = .next { s with
      enc := { s.enc with
        w := w, h := h, rem := BitVec.ofNat 64 (w.toNat * h.toNat), col := 0#32, phase := .body }
      encOut := s.encOut ++ headerByteBeats w h } ∧
    w.toNat * h.toNat < 2 ^ 64

/-- R132: `PIX` sends the eight bytes of its pixel and moves one column on, or raises `IrregularGrid` and sends nothing. -/
def Obligations.EncPixSerialisesAPixel : Prop :=
  (∀ p : Pixel, decode (.enc 0x5#4 (BitVec.ofNat 64 (pixelPayload p))) = .ok (.encPix p)) ∧
  ∀ (p : Pixel) (s : State), s.enc.phase = .body →
    (s.enc.rem = 0 ∨ s.enc.col.toNat + 1 = s.enc.w.toNat →
      exec (.encPix p) s = .next { s with enc := { s.enc with err := 6#4, phase := .drain } }) ∧
    (s.enc.rem ≠ 0 → s.enc.col.toNat + 1 ≠ s.enc.w.toNat →
      exec (.encPix p) s = .next { s with
        enc := { s.enc with
          rem := BitVec.ofNat 64 (s.enc.rem.toNat - 1), col := BitVec.ofNat 32 (s.enc.col.toNat + 1) }
        encOut := s.encOut ++ pixelByteBeats p })

/-- R133: `PIXL` sends the eight bytes of its pixel and starts a new row, or raises `IrregularGrid` and sends nothing. -/
def Obligations.EncPixlSerialisesTheLastPixelOfARow : Prop :=
  (∀ p : Pixel, decode (.enc 0x6#4 (BitVec.ofNat 64 (pixelPayload p))) = .ok (.encPixl p)) ∧
  ∀ (p : Pixel) (s : State), s.enc.phase = .body →
    (s.enc.rem = 0 ∨ s.enc.col.toNat + 1 ≠ s.enc.w.toNat →
      exec (.encPixl p) s = .next { s with enc := { s.enc with err := 6#4, phase := .drain } }) ∧
    (s.enc.rem ≠ 0 → s.enc.col.toNat + 1 = s.enc.w.toNat →
      exec (.encPixl p) s = .next { s with
        enc := { s.enc with rem := BitVec.ofNat 64 (s.enc.rem.toNat - 1), col := 0#32 }
        encOut := s.encOut ++ pixelByteBeats p })

/-- R134: `END` sends the status of the grid, by phase, and puts all six registers to their reset values. -/
def Obligations.EncEndReportsTheStatusAndResets : Prop :=
  (∀ (sel : BitVec 4) (p : BitVec 64), sel.toNat ≤ 11 → sel.toNat % 4 = 3 →
    decode (.enc sel p) = .ok (.encEnd p)) ∧
  ∀ (p : BitVec 64) (s : State) (closed : Nat → State),
    (∀ c, closed c = { s with
      enc := ⟨.idle, 0, 0, 0, 0, 0⟩, encOut := s.encOut ++ [BitVec.ofNat 9 (256 + c)] }) →
    (s.enc.phase = .idle → exec (.encEnd p) s = .next (closed 8)) ∧
    (s.enc.phase = .body → s.enc.rem ≠ 0 → exec (.encEnd p) s = .next (closed 6)) ∧
    (s.enc.phase = .body → s.enc.rem = 0 → exec (.encEnd p) s = .next (closed 0)) ∧
    (s.enc.phase = .drain → exec (.encEnd p) s = .next (closed s.enc.err.toNat))

/-- R135: a beat of a failed grid has no effect, a `HDR` among them; only `END` leaves `E_DRAIN`. -/
def Obligations.EncDrainHasNoEffect : Prop :=
  (∀ p : BitVec 64, decode (.enc 0x8#4 p) = .ok (.encDrain .hdr p) ∧
    decode (.enc 0x9#4 p) = .ok (.encDrain .pix p) ∧ decode (.enc 0xA#4 p) = .ok (.encDrain .pixl p)) ∧
  (∀ (k : GridKind) (p : BitVec 64) (s : State), s.enc.phase = .drain → k ≠ .close →
    exec (.encDrain k p) s = .next s) ∧
  (∀ (s t : State) (b : GridBeat) (bs : List GridBeat), s.enc.phase = .drain → s.encIn = b :: bs →
    beatKind b ≠ .close → stepUnit .enc s = .next t → t = { s with encIn := bs })

/-- R136: a pixel with no grid open, or a header inside a grid, raises `ProtocolViolation` and sends nothing. -/
def Obligations.EncViolRaisesProtocolViolation : Prop :=
  (∀ p : BitVec 64, decode (.enc 0x1#4 p) = .ok (.encViol .pix p) ∧
    decode (.enc 0x2#4 p) = .ok (.encViol .pixl p) ∧ decode (.enc 0x4#4 p) = .ok (.encViol .hdr p)) ∧
  ∀ (k : GridKind) (p : BitVec 64) (s : State),
    (s.enc.phase = .idle ∧ (k = .pix ∨ k = .pixl) ∨ s.enc.phase = .body ∧ k = .hdr) →
    exec (.encViol k p) s = .next { s with enc := { s.enc with err := 8#4, phase := .drain } }

/-! ### The fields of the wire format -/

/-- R70, R71, R73: a field that `DEC` takes at its place in a frame. That a field's bytes are taken one after another is
the model's meaning of a wire field (assumption log 6). -/
def Obligations.WireFieldsAreTakenMostSignificantByteFirst : Prop :=
  (∀ s : State, s.dec.phase = .magic → s.dec.idx = 0 →
    exec (.hdrMagic 0x6661726266656C64#64) s = .next { s with dec := { s.dec with phase := .width } }) ∧
  (∀ (m : BitVec 64) (s : State), s.dec.phase = .magic → s.dec.idx = 0 → m ≠ 0x6661726266656C64#64 →
    ∃ k, exec (.hdrMagic m) s = .next { s with dec := { s.dec with idx := k, err := 1#4, phase := .drain } }) ∧
  (∀ (w : BitVec 32) (s : State), s.dec.phase = .width → s.dec.idx = 0 →
    exec (.hdrWidth w) s = .next { s with dec := { s.dec with w := w, phase := .height } }) ∧
  (∀ (h : BitVec 32) (s : State), s.dec.phase = .height → s.dec.idx = 0 →
    8 * s.dec.w.toNat * h.toNat < 2 ^ s.cfg.lenBits →
    exec (.hdrHeight h) s = .next { s with
      dec := { s.dec with h := h, rem := 8 * s.dec.w.toNat * h.toNat, col := 0#32, phase := .pay }
      decOut := s.decOut ++ [gridTokWord (.hdr s.dec.w h)] }) ∧
  (∀ (h : BitVec 32) (s : State), s.dec.phase = .height → s.dec.idx = 0 →
    2 ^ s.cfg.lenBits ≤ 8 * s.dec.w.toNat * h.toNat →
    exec (.hdrHeight h) s = .next { s with dec := { s.dec with h := h, err := 3#4, phase := .drain } }) ∧
  (∀ (v : BitVec 16) (s : State) (i : Instr) (k : Nat), s.dec.phase = .pay → s.dec.idx.toNat = k → 2 ≤ s.dec.rem →
    (i = .pixelR v ∧ k = 0 ∨ i = .pixelG v ∧ k = 2 ∨ i = .pixelB v ∧ k = 4) →
    exec i s = .next { s with dec := { s.dec with
      rem := s.dec.rem - 2, sh := BitVec.ofNat 64 (s.dec.sh.toNat * 2 ^ 16 + v.toNat)
      idx := BitVec.ofNat 3 (k + 2) } }) ∧
  (∀ (p : Pixel) (s : State), s.dec.phase = .pay → s.dec.idx = 0 → 8 ≤ s.dec.rem →
    andThen (exec (.pixelR p.r) s) (fun s => andThen (exec (.pixelG p.g) s) fun s =>
      andThen (exec (.pixelB p.b) s) (exec (.pixelA p.a))) =
    .next { s with
      dec := { s.dec with
        rem := s.dec.rem - 8, sh := pixelWord p
        col := if s.dec.col.toNat + 1 = s.dec.w.toNat then 0#32 else BitVec.ofNat 32 (s.dec.col.toNat + 1) }
      decOut := s.decOut ++
        [gridTokWord (if s.dec.col.toNat + 1 = s.dec.w.toNat then .pixl p else .pix p)] })

/-- R17, R73, R80: a wire field's meaning is what the machine's steps on the field's bytes do, and it completes in every
phase some rule writes (assumption log 6). -/
def Obligations.WireFieldIsTheStepsOnItsBytes : Prop :=
  (∀ (i : Instr) (off : Nat) (bytes : List Byte) (rest : List ByteBeat) (s : State),
    isWireField i = true → encode i = .wire off bytes →
    s.rst = false → s.encIn = [] → s.decOutCap = none → s.decIn = bytes.map (byteBeat false) ++ rest →
    run bytes.length s = exec i { s with decIn := rest }) ∧
  (∀ (i : Instr) (s : State), isWireField i = true → dPhaseReachable s.dec.phase = true →
    ∃ t, exec i s = .next t ∧ dPhaseReachable t.dec.phase = true)

/-! ### Frames: what an operation leaves alone -/

/-- R100: a `DEC` operation writes only `DEC`'s registers and appends only to `dec_out`. So does a wire field, whose meaning
is the model's (DESIGN CHOICE, assumption log 6). -/
def Obligations.DecOperationsLeaveTheRestAlone : Prop :=
  ∀ (i : Instr) (s t : State), instrUnit i = .dec → exec i s = .next t →
    ∃ beats, t = { s with dec := t.dec, decOut := s.decOut ++ beats }

/-- R130: an `ENC` operation writes only `ENC`'s registers and appends only to `enc_out`. -/
def Obligations.EncOperationsLeaveTheRestAlone : Prop :=
  ∀ (i : Instr) (s t : State), instrUnit i = .enc → exec i s = .next t →
    ∃ beats, t = { s with enc := t.enc, encOut := s.encOut ++ beats }

/-- R25 to R36: each register is unchanged by the operations its rule does not name as writers, the latched code where no
error is raised; an operation that closes a frame writes them all and is not among these. -/
def Obligations.RegistersChangeOnlyByTheirWriters : Prop :=
  (∀ (b : Byte) (s t : State), exec (.decMagic b) s = .next t →
    t.dec.w = s.dec.w ∧ t.dec.h = s.dec.h ∧ t.dec.rem = s.dec.rem ∧ t.dec.sh = s.dec.sh ∧
    t.dec.col = s.dec.col ∧ t.decOut = s.decOut ∧ (t.dec.phase ≠ .drain → t.dec.err = s.dec.err)) ∧
  (∀ (b : Byte) (s t : State), exec (.decWidth b) s = .next t →
    t.dec.err = s.dec.err ∧ t.dec.h = s.dec.h ∧ t.dec.rem = s.dec.rem ∧ t.dec.sh = s.dec.sh ∧
    t.dec.col = s.dec.col ∧ t.decOut = s.decOut) ∧
  (∀ (b : Byte) (s t : State), exec (.decHeight b) s = .next t →
    t.dec.w = s.dec.w ∧ t.dec.sh = s.dec.sh ∧ (s.dec.idx ≠ 3 ∨ t.dec.phase ≠ .drain → t.dec.err = s.dec.err) ∧
    (t.dec.rem = s.dec.rem ∧ t.dec.col = s.dec.col ∧ t.decOut = s.decOut ∨
      s.dec.idx = 3 ∧ t.dec.phase = .pay ∧ t.dec.err = s.dec.err)) ∧
  (∀ (b : Byte) (s t : State), exec (.decPay b) s = .next t →
    t.dec.w = s.dec.w ∧ t.dec.h = s.dec.h ∧
    (t.dec.err = s.dec.err ∧ t.dec.phase = s.dec.phase ∨
      s.dec.rem = 0 ∧ t.dec = { s.dec with err := 5#4, phase := .drain } ∧ t.decOut = s.decOut)) ∧
  (∀ (w h : BitVec 32) (s t : State), exec (.encHdr w h) s = .next t → t.enc.err = s.enc.err) ∧
  (∀ (p : Pixel) (s t : State), exec (.encPix p) s = .next t ∨ exec (.encPixl p) s = .next t →
    t.enc.w = s.enc.w ∧ t.enc.h = s.enc.h ∧ (t.enc.phase ≠ .drain → t.enc.err = s.enc.err)) ∧
  (∀ (k : GridKind) (p : BitVec 64) (s t : State), exec (.encViol k p) s = .next t →
    t.enc.w = s.enc.w ∧ t.enc.h = s.enc.h ∧ t.enc.rem = s.enc.rem ∧ t.enc.col = s.enc.col ∧
    t.encOut = s.encOut)

/-! ### Errors -/

/-- R192: a step that raises latches a code and drains, answers no beat, and changes nothing that the same step's
operation had not written before the `raise`; which codes, by the phase it raises in (R180). -/
def Obligations.RaiseLatchesTheCodeAndDrains : Prop :=
  (∀ s t : State, stepUnit .dec s = .next t → s.dec.phase ≠ .drain → t.dec.phase = .drain →
    t.decOut = s.decOut ∧ t.decIn = s.decIn.tail ∧
    (s.dec.phase = .magic ∧ t.dec.err = 1 ∧ t.dec = { s.dec with err := 1, phase := .drain } ∨
     s.dec.phase = .height ∧ t.dec.err = 3 ∧
       t.dec = { s.dec with err := 3, phase := .drain, h := t.dec.h, idx := 0 } ∨
     s.dec.phase = .pay ∧ t.dec.err = 5 ∧ t.dec = { s.dec with err := 5, phase := .drain })) ∧
  (∀ s t : State, stepUnit .enc s = .next t → s.enc.phase ≠ .drain → t.enc.phase = .drain →
    t.encOut = s.encOut ∧ t.encIn = s.encIn.tail ∧
    (t.enc = { s.enc with err := 8, phase := .drain } ∨
     s.enc.phase = .body ∧ t.enc = { s.enc with err := 6, phase := .drain }))

/-- R27, R33, R193: in a drain phase the latched code and every other register stay until the frame's last beat, which
reports that code and resets the unit. -/
def Obligations.FirstErrorIsKeptAndReported : Prop :=
  (∀ s t : State, s.dec.phase = .drain → stepUnit .dec s = .next t →
    t.dec = s.dec ∧ t.decOut = s.decOut ∨
    t.dec = DecRegs.reset ∧ t.decOut = s.decOut ++ [gridWordOf 3 s.dec.err.toNat] ∧
      ∃ data, s.decIn.head? = some (byteBeat true data)) ∧
  (∀ s t : State, s.enc.phase = .drain → stepUnit .enc s = .next t →
    t.enc = s.enc ∧ t.encOut = s.encOut ∨
    t.enc = EncRegs.reset ∧ t.encOut = s.encOut ++ [BitVec.ofNat 9 (256 + s.enc.err.toNat)] ∧
      ∃ p, s.encIn.head? = some (gridBeat .close p))

/-- R78, R83: the codes the units report, in every state that meets the invariant. -/
def Obligations.ReservedStatusCodesAreNeverReported : Prop :=
  (∀ (s t : State) (c : BitVec 4), s.inv → stepUnit .dec s = .next t →
    t.decOut = s.decOut ++ [gridTokWord (.stat c)] → c.toNat ≤ 5) ∧
  (∀ (s t : State) (c : BitVec 4), s.inv → stepUnit .enc s = .next t →
    t.encOut = s.encOut ++ [byteTokWord (.eof c)] → c = 0 ∨ c = 6 ∨ c = 8)

/-! ### Control transfer, one step at a time -/

/-- R100, R110: in every phase a rule writes, a `dec_in` beat has a step where the port, bounded or not, can take what the
step emits, and that step moves `d_phase` as the table says. -/
def Obligations.DecPhaseTableIsComplete : Prop :=
  ∀ (s : State) (b : ByteBeat) (bs : List ByteBeat), s.decIn = b :: bs →
    dPhaseReachable s.dec.phase = true →
    (∀ i u, decode (decWord s.dec.phase b) = .ok i → exec i { s with decIn := bs } = .next u →
      canTake s.decOutCap 1 s.decOut.length u.decOut.length) →
    ∃ t, stepUnit .dec s = .next t ∧ t.decIn = bs ∧
      (beatEof b = true → t.dec.phase = .magic) ∧
      (beatEof b = false → s.dec.phase = .magic → beatData b = magicByte s.dec.idx →
        t.dec.phase = if s.dec.idx.toNat = 7 then .width else .magic) ∧
      (beatEof b = false → s.dec.phase = .magic → beatData b ≠ magicByte s.dec.idx →
        t.dec.phase = .drain ∧ t.dec.err = 1) ∧
      (beatEof b = false → s.dec.phase = .width →
        t.dec.phase = if s.dec.idx.toNat = 3 then .height else .width) ∧
      (beatEof b = false → s.dec.phase = .height → s.dec.idx.toNat ≠ 3 → t.dec.phase = .height) ∧
      (beatEof b = false → s.dec.phase = .height → s.dec.idx.toNat = 3 →
        8 * s.dec.w.toNat * t.dec.h.toNat < 2 ^ s.cfg.lenBits → t.dec.phase = .pay) ∧
      (beatEof b = false → s.dec.phase = .height → s.dec.idx.toNat = 3 →
        2 ^ s.cfg.lenBits ≤ 8 * s.dec.w.toNat * t.dec.h.toNat → t.dec.phase = .drain ∧ t.dec.err = 3) ∧
      (beatEof b = false → s.dec.phase = .pay → 0 < s.dec.rem ∨ s.cfg.strictTrailing = false →
        t.dec.phase = .pay) ∧
      (beatEof b = false → s.dec.phase = .pay → s.dec.rem = 0 → s.cfg.strictTrailing = true →
        t.dec.phase = .drain ∧ t.dec.err = 5) ∧
      (beatEof b = false → s.dec.phase = .drain → t.dec.phase = .drain)

/-- R130, R140: the same of `ENC` and `e_phase`. -/
def Obligations.EncPhaseTableIsComplete : Prop :=
  ∀ (s : State) (b : GridBeat) (bs : List GridBeat), s.encIn = b :: bs →
    ePhaseReachable s.enc.phase = true →
    (∀ i u, decode (encWord s.enc.phase b) = .ok i → exec i { s with encIn := bs } = .next u →
      canTake s.encOutCap 16 s.encOut.length u.encOut.length) →
    ∃ t, stepUnit .enc s = .next t ∧ t.encIn = bs ∧
      (beatKind b = .close → t.enc.phase = .idle) ∧
      (s.enc.phase = .idle → beatKind b = .hdr → t.enc.phase = .body) ∧
      (s.enc.phase = .idle → beatKind b = .pix ∨ beatKind b = .pixl →
        t.enc.phase = .drain ∧ t.enc.err = 8) ∧
      (s.enc.phase = .body → beatKind b = .hdr → t.enc.phase = .drain ∧ t.enc.err = 8) ∧
      (s.enc.phase = .body → beatKind b = .pix →
        if s.enc.rem = 0 ∨ s.enc.col.toNat + 1 = s.enc.w.toNat then t.enc.phase = .drain ∧ t.enc.err = 6
        else t.enc.phase = .body) ∧
      (s.enc.phase = .body → beatKind b = .pixl →
        if s.enc.rem = 0 ∨ s.enc.col.toNat + 1 ≠ s.enc.w.toNat then t.enc.phase = .drain ∧ t.enc.err = 6
        else t.enc.phase = .body) ∧
      (s.enc.phase = .drain → beatKind b ≠ .close → t.enc.phase = .drain)

/-! ### Ports -/

/-- R57, R61: a unit's step takes exactly the oldest beat of its input port and appends to its output port, or changes
nothing; how many it appends at most (R37, R108). -/
def Obligations.StepTakesOneBeatAndAppends : Prop :=
  (∀ s t : State, stepUnit .dec s = .next t →
    t = s ∨ ∃ b beats, s.decIn = b :: t.decIn ∧ t.decOut = s.decOut ++ beats ∧ beats.length ≤ 1) ∧
  (∀ s t : State, stepUnit .enc s = .next t →
    t = s ∨ ∃ b beats, s.encIn = b :: t.encIn ∧ t.encOut = s.encOut ++ beats ∧ beats.length ≤ 16)

/-- R74, R76, R83: the bits of an `EOF` beat's `data` and of an `END` beat's `payload` change no result. -/
def Obligations.IgnoredBitsChangeNothing : Prop :=
  (∀ (s : State) (d d' : Byte) (bs : List ByteBeat),
    stepUnit .dec { s with decIn := byteBeat true d :: bs } = .next { s with decIn := byteBeat true d :: bs } ∧
      stepUnit .dec { s with decIn := byteBeat true d' :: bs } = .next { s with decIn := byteBeat true d' :: bs } ∨
    stepUnit .dec { s with decIn := byteBeat true d :: bs } =
      stepUnit .dec { s with decIn := byteBeat true d' :: bs }) ∧
  (∀ (s : State) (p p' : BitVec 64) (bs : List GridBeat),
    stepUnit .enc { s with encIn := gridBeat .close p :: bs } =
        .next { s with encIn := gridBeat .close p :: bs } ∧
      stepUnit .enc { s with encIn := gridBeat .close p' :: bs } =
        .next { s with encIn := gridBeat .close p' :: bs } ∨
    stepUnit .enc { s with encIn := gridBeat .close p :: bs } =
      stepUnit .enc { s with encIn := gridBeat .close p' :: bs })

/-- R10, R11: the parameters are fixed at build time; no step writes them. -/
def Obligations.ParametersAreFixedAtBuildTime : Prop :=
  ∀ s t : State, step s = .next t → t.cfg = s.cfg

/-- R17, R62: steps of the two units commute. -/
def Obligations.StepsOfTheTwoUnitsCommute : Prop :=
  ∀ s : State, s.phasesReachable →
    ∃ t, andThen (stepUnit .dec s) (stepUnit .enc) = .next t ∧
      andThen (stepUnit .enc s) (stepUnit .dec) = .next t

/-- R62: any interleaving of the same numbers of steps of the two units gives the same state, hence the same two output
sequences. -/
def Obligations.InterleavingDoesNotMatter : Prop :=
  ∀ (s : State) (us vs : List UnitId), s.phasesReachable → us.Perm vs →
    ∃ t, runSchedule us s = .next t ∧ runSchedule vs s = .next t

/-- R46: two states that differ only in the registers whose reset values do not matter send the same beats, whatever
beats the two units are fed. -/
def Obligations.OutputsDoNotDependOnOtherResetValues : Prop :=
  ∀ (s s' t : State) (n : Nat),
    s.dec.phase = .magic → s.dec.idx = 0 → s.enc.phase = .idle →
    s' = { s with
      dec := { s.dec with
        w := s'.dec.w, h := s'.dec.h, rem := s'.dec.rem, sh := s'.dec.sh, col := s'.dec.col }
      enc := { s.enc with w := s'.enc.w, h := s'.enc.h, rem := s'.enc.rem, col := s'.enc.col } } →
    run n s = .next t → ∃ t', run n s' = .next t' ∧ t'.decOut = t.decOut ∧ t'.encOut = t.encOut

/-- R218, R221: where the sinks take every beat, a run of as many steps as there are beats on the input ports takes them
all, whichever unit moves first each time. -/
def Obligations.EveryOfferedBeatIsConsumed : Prop :=
  ∀ s : State, s.phasesReachable → s.rst = false → s.decOutCap = none → s.encOutCap = none →
    ∃ t, run (s.decIn.length + s.encIn.length) s = .next t ∧ t.decIn = [] ∧ t.encIn = []

/-- R218: where the sink of a unit takes a beat again and again, every beat its source offered is taken, whatever the host
does besides (but for a reset), whatever the other unit does, and however small the port: after some number of rounds what
stands on the input port is a part of what was offered since. -/
def Obligations.EveryBeatIsTakenWhereTheSinkTakesBeats : Prop :=
  ∀ (s : State) (env : Nat → List HostAct), s.phasesReachable → s.rst = false → (∀ n, HostAct.reset ∉ env n) →
    ((∀ n, ∃ m, n ≤ m ∧ HostAct.sinkDec ∈ env m) →
      ∃ n t, rounds env n s = .next t ∧ t.decIn <:+ decOffers env n) ∧
    ((∀ n, ∃ m, n ≤ m ∧ HostAct.sinkEnc ∈ env m) →
      ∃ n t, rounds env n s = .next t ∧ t.encIn <:+ encOffers env n)

/-! ### Invariants -/

/-- R107, R137: the invariant holds right after reset. -/
def Obligations.StateAfterResetMeetsTheInvariant : Prop := State.reset.inv

/-- R107, R137: every step keeps the invariant. -/
def Obligations.EveryStepKeepsTheInvariant : Prop :=
  ∀ s t : State, s.inv → step s = .next t → t.inv

/-- R83: from a state that meets the invariant a step has an answer, always a next state. -/
def Obligations.NoStepIsRefusedUnderTheInvariant : Prop :=
  ∀ s : State, s.inv → ∃ t, step s = .next t

/-! ### Whole frames -/

/-- R163: fed a frame and its `EOF`, `DEC` in its reset state answers `decode` of the frame, and is back in its reset
state. -/
def Obligations.DecAgreesWithDecode : Prop :=
  ∀ (s : State) (f : List Byte) (eofData : Byte) (rest : List ByteBeat),
    s.dec = DecRegs.reset → s.rst = false → s.encIn = [] → s.decOutCap = none →
    s.decIn = decodeBeats f eofData ++ rest →
    ∃ t beats, run (f.length + 1) s = .next t ∧ t.dec = DecRegs.reset ∧ t.decIn = rest ∧
      t.decOut = s.decOut ++ beats ∧ obsDec beats = some (decodeFrame s.cfg f)

/-- R164: fed `stream(G)` of a grid its port can carry, `ENC` in its reset state answers `encode` of the grid, and is
back in its reset state. -/
def Obligations.EncAgreesWithEncode : Prop :=
  ∀ (s : State) (g : Grid) (endPayload : BitVec 64) (rest : List GridBeat),
    g.length < 2 ^ 32 → derivedWidth g < 2 ^ 32 →
    s.enc = EncRegs.reset → s.rst = false → s.decIn = [] → s.encOutCap = none →
    s.encIn = encodeBeats g endPayload ++ rest →
    ∃ t beats, run (encodeBeats g endPayload).length s = .next t ∧ t.enc = EncRegs.reset ∧ t.encIn = rest ∧
      t.encOut = s.encOut ++ beats ∧ obsEnc beats = some (encodeFrame (intGrid g))

/-- R161: for an accepted frame the beats are the header, the pixels of the grid with the last of each row marked, and
`STAT OK`. -/
def Obligations.AcceptedFrameIsSentAsItsGrid : Prop :=
  ∀ (s t : State) (f : List Byte) (eofData : Byte) (g : Grid),
    s.dec = DecRegs.reset → s.rst = false → s.encIn = [] → s.decOutCap = none →
    s.decIn = decodeBeats f eofData → decodeFrame s.cfg f = .ok g → run (f.length + 1) s = .next t →
    t.decOut = s.decOut ++
      (gridToks (BitVec.ofNat 32 (memRead f 8 4)) (BitVec.ofNat 32 (memRead f 12 4)) g ++ [GridTok.stat 0]).map gridTokWord

/-- R108: for one frame `DEC` sends at most one `HDR`, then pixels, only after a `HDR`, then exactly one `STAT`. -/
def Obligations.DecFrameIsHeaderPixelsStatus : Prop :=
  ∀ (s t : State) (f : List Byte) (eofData : Byte),
    s.dec = DecRegs.reset → s.rst = false → s.encIn = [] → s.decOutCap = none →
    s.decIn = decodeBeats f eofData → run (f.length + 1) s = .next t →
    ∃ (hdr pixels : List GridTok) (c : BitVec 4),
      t.decOut = s.decOut ++ (hdr ++ pixels ++ [GridTok.stat c]).map gridTokWord ∧
      (hdr = [] ∧ pixels = [] ∨ ∃ w h, hdr = [.hdr w h]) ∧
      ∀ tok ∈ pixels, ∃ p, tok = .pix p ∨ tok = .pixl p

/-- R137: for one grid, whatever its beats, `ENC` sends bytes and then exactly one `EOF`, and `16 + 8 * W * H` bytes if
the code is `OK`, `W` and `H` being those of the header. -/
def Obligations.EncFrameIsBytesThenStatus : Prop :=
  ∀ (s t : State) (body : List GridBeat) (endPayload : BitVec 64),
    s.enc = EncRegs.reset → s.rst = false → s.decIn = [] → s.encOutCap = none →
    (∀ b ∈ body, beatKind b ≠ .close) → s.encIn = body ++ [gridBeat .close endPayload] →
    run (body.length + 1) s = .next t →
    ∃ (bytes : List Byte) (c : BitVec 4),
      t.encOut = s.encOut ++ (bytes.map ByteTok.byte ++ [ByteTok.eof c]).map byteTokWord ∧
      (c = 0 → ∃ w h, body.head? = some (gridBeat .hdr (hdrPayload w h)) ∧
        bytes.length = 16 + 8 * w.toNat * h.toNat)

/-- R139: fed `stream(G)`, `ENC` reports `IrregularGrid` exactly for a grid with two rows of different length, and `OK`
for every other. -/
def Obligations.StreamCheckIsTheRegularityCheck : Prop :=
  ∀ (s t : State) (g : Grid) (endPayload : BitVec 64),
    g.length < 2 ^ 32 → derivedWidth g < 2 ^ 32 →
    s.enc = EncRegs.reset → s.rst = false → s.decIn = [] → s.encOutCap = none →
    s.encIn = encodeBeats g endPayload → run (encodeBeats g endPayload).length s = .next t →
    ((∃ r ∈ g, ∃ r' ∈ g, r.length ≠ r'.length) → t.encOut.getLast? = some (byteTokWord (.eof 6))) ∧
    ((∀ r ∈ g, ∀ r' ∈ g, r.length = r'.length) → t.encOut.getLast? = some (byteTokWord (.eof 0)))

/-- R165: the round trip of the two contracts, and its bound. -/
def Obligations.DecodeOfEncodeIsTheGridUpToTheBound : Prop :=
  ∀ (c : Config) (g : Grid), regular (derivedWidth g) g.length g = true →
    derivedWidth g < 2 ^ 32 → g.length < 2 ^ 32 →
    ∃ f, encodeFrame (intGrid g) = .ok f ∧
      (8 * derivedWidth g * g.length < 2 ^ c.lenBits → decodeFrame c f = .ok g) ∧
      (2 ^ c.lenBits ≤ 8 * derivedWidth g * g.length → decodeFrame c f = .error .dimensionsTooLarge)

/-- R165, R219: the round trip through both units of the machine, over the gate. -/
def Obligations.GridGoesThroughBothUnitsUnchanged : Prop :=
  ∀ (s t u : State) (g : Grid) (endPayload : BitVec 64) (eofData : Byte) (n : Nat),
    regular (derivedWidth g) g.length g = true → derivedWidth g < 2 ^ 32 → g.length < 2 ^ 32 →
    8 * derivedWidth g * g.length < 2 ^ s.cfg.lenBits →
    s.dec = DecRegs.reset → s.enc = EncRegs.reset → s.rst = false → s.decIn = [] → s.decOut = [] → s.encOut = [] →
    s.decOutCap = none → s.encOutCap = none → s.encIn = encodeBeats g endPayload →
    run (encodeBeats g endPayload).length s = .next t →
    n = (gate t.encOut eofData).length → run n { t with decIn := gate t.encOut eofData } = .next u →
    obsDec u.decOut = some (.ok g)

/-- R219: of the frames that stand on `enc_out`, one after another, the gate forwards the bytes and an `EOF` of each that was
closed with `OK`, in order, and nothing of any other, nor of a frame that is not closed. -/
def Obligations.GateForwardsTheAcceptedFramesOnly : Prop :=
  ∀ (frames : List (List Byte × BitVec 4)) (tail : List Byte) (eofData : Byte),
    gate ((frames.flatMap fun p => (p.1.map ByteTok.byte ++ [ByteTok.eof p.2]).map byteTokWord) ++
        tail.map (byteBeat false)) eofData =
      frames.flatMap fun p => if p.2 = 0 then decodeBeats p.1 eofData else []

/-- R51: where the channels of a pixel stand in an encoded frame, and how long the frame is. -/
def Obligations.PixelsStandAtTheirOffsets : Prop :=
  ∀ (g : Grid) (f : List Byte), encodeFrame (intGrid g) = .ok f →
    f.length = 16 + 8 * derivedWidth g * g.length ∧
    f.take 8 = [0x66, 0x61, 0x72, 0x62, 0x66, 0x65, 0x6C, 0x64] ∧
    memRead f 8 4 = derivedWidth g ∧ memRead f 12 4 = g.length ∧
    ∀ (y x : Nat) (row : List Pixel) (p : Pixel), g[y]? = some row → row[x]? = some p →
      memRead f (16 + 8 * (y * derivedWidth g + x)) 2 = p.r.toNat ∧
      memRead f (16 + 8 * (y * derivedWidth g + x) + 2) 2 = p.g.toNat ∧
      memRead f (16 + 8 * (y * derivedWidth g + x) + 4) 2 = p.b.toNat ∧
      memRead f (16 + 8 * (y * derivedWidth g + x) + 6) 2 = p.a.toNat

/-- R166: the source's 2 by 2 grid is exactly these 48 bytes, and they decode to the grid. -/
def Obligations.TwoByTwoGridIsByteExact : Prop :=
  ∃ f : List Byte, f = [0x66, 0x61, 0x72, 0x62, 0x66, 0x65, 0x6C, 0x64, 0, 0, 0, 2, 0, 0, 0, 2,
      0, 1, 0, 2, 0, 3, 0, 4, 0, 5, 0, 6, 0, 7, 0, 8, 0, 9, 0, 10, 0, 11, 0, 12, 0, 13, 0, 14, 0, 15, 0, 16] ∧
    f.length = 48 ∧
    encodeFrame [[⟨1, 2, 3, 4⟩, ⟨5, 6, 7, 8⟩], [⟨9, 10, 11, 12⟩, ⟨13, 14, 15, 16⟩]] = .ok f ∧
    decodeFrame Config.default f = .ok [[⟨1, 2, 3, 4⟩, ⟨5, 6, 7, 8⟩], [⟨9, 10, 11, 12⟩, ⟨13, 14, 15, 16⟩]]

/-- R167, R181, R182, R184, R185: the properties the source lists, for every frame; a frame of no columns decodes to its
rows, each empty, and one of no rows to none, whatever its width. -/
def Obligations.ListedPropertiesOfTheContracts : Prop :=
  (∀ (c : Config) (f : List Byte), f.length < 8 → decodeFrame c f = .error .invalidMagic) ∧
  (∀ (c : Config) (f : List Byte), 8 ≤ f.length → f.length < 16 → f.take 8 = magicBytes →
    decodeFrame c f = .error .truncatedHeader) ∧
  (∀ (c : Config) (f : List Byte), f.length = 16 → f.take 8 = magicBytes →
    memRead f 8 4 = 0 ∨ memRead f 12 4 = 0 →
    decodeFrame c f = .ok (List.replicate (memRead f 12 4) [])) ∧
  (∀ (c : Config) (g : Grid) (f : List Byte) (b : Byte), encodeFrame (intGrid g) = .ok f →
    8 * derivedWidth g * g.length < 2 ^ c.lenBits →
    (0 < derivedWidth g → decodeFrame c f.dropLast = .error .truncatedPixelData) ∧
    (c.strictTrailing = true → decodeFrame c (f ++ [b]) = .error .trailingData) ∧
    (c.strictTrailing = false → decodeFrame c (f ++ [b]) = .ok g) ∧
    (derivedWidth g = 0 → f.length = 16)) ∧
  (∀ (g : List (List IntPixel)) (r r' : List IntPixel), r ∈ g → r' ∈ g → r.length ≠ r'.length →
    encodeFrame g = .error .irregularGrid)
end

