-- ==== Sys2Proof/Laws/Operands.lean ====
section
/-! SUPPORT. The layouts of beats read back what was put in, and the shift register builds the value of its bytes. -/

namespace Sys2Proof.Machine

/-! ### Byte-port beats -/

@[simp] theorem beatEof_byteBeat (eof : Bool) (data : Byte) : beatEof (byteBeat eof data) = eof := by
  unfold beatEof byteBeat
  rw [BitVec.getLsbD_append]
  cases eof <;> rfl

@[simp] theorem beatData_byteBeat (eof : Bool) (data : Byte) : beatData (byteBeat eof data) = data := by
  unfold beatData byteBeat
  rw [BitVec.setWidth_append]
  simp

@[simp] theorem byteTokOf_byteTokWord (t : ByteTok) : byteTokOf (byteTokWord t) = t := by
  cases t with
  | byte b => simp [byteTokOf, byteTokWord]
  | eof c => simp [byteTokOf, byteTokWord, BitVec.setWidth_setWidth_of_le]

/-! ### Grid-port beats -/

@[simp] theorem kindOfCode_kindCode (k : GridKind) : kindOfCode (kindCode k) = k := by cases k <;> rfl

@[simp] theorem beatKind_gridBeat (k : GridKind) (p : BitVec 64) : beatKind (gridBeat k p) = k := by
  unfold beatKind gridBeat
  have : ((kindCode k ++ p) >>> 64).setWidth 2 = kindCode k := by
    apply BitVec.eq_of_toNat_eq
    simp only [BitVec.toNat_setWidth, BitVec.toNat_ushiftRight, BitVec.toNat_append]
    rw [← Nat.shiftLeft_add_eq_or_of_lt p.isLt, Nat.shiftLeft_eq, Nat.shiftRight_eq_div_pow]
    have := p.isLt; have := (kindCode k).isLt
    omega
  rw [this, kindOfCode_kindCode]

@[simp] theorem beatPayload_gridBeat (k : GridKind) (p : BitVec 64) : beatPayload (gridBeat k p) = p := by
  unfold beatPayload gridBeat
  rw [BitVec.setWidth_append]
  simp

@[simp] theorem payloadW_hdrPayload (w h : BitVec 32) : payloadW (hdrPayload w h) = w := by
  unfold payloadW hdrPayload
  apply BitVec.eq_of_toNat_eq
  simp only [BitVec.toNat_setWidth, BitVec.toNat_ushiftRight, BitVec.toNat_append]
  rw [← Nat.shiftLeft_add_eq_or_of_lt h.isLt, Nat.shiftLeft_eq, Nat.shiftRight_eq_div_pow]
  have := h.isLt; have := w.isLt
  omega

@[simp] theorem payloadH_hdrPayload (w h : BitVec 32) : payloadH (hdrPayload w h) = h := by
  unfold payloadH hdrPayload
  rw [BitVec.setWidth_append]
  simp

theorem pixelWord_toNat (p : Pixel) :
    (pixelWord p).toNat = p.r.toNat * 2 ^ 48 + p.g.toNat * 2 ^ 32 + p.b.toNat * 2 ^ 16 + p.a.toNat := by
  unfold pixelWord
  simp only [BitVec.toNat_append]
  rw [← Nat.shiftLeft_add_eq_or_of_lt p.g.isLt, ← Nat.shiftLeft_add_eq_or_of_lt p.b.isLt,
    ← Nat.shiftLeft_add_eq_or_of_lt p.a.isLt]
  simp only [Nat.shiftLeft_eq]
  omega

theorem pixelOfWord_toNat (v : BitVec 64) :
    (pixelOfWord v).r.toNat = v.toNat / 2 ^ 48 ∧ (pixelOfWord v).g.toNat = v.toNat / 2 ^ 32 % 2 ^ 16 ∧
    (pixelOfWord v).b.toNat = v.toNat / 2 ^ 16 % 2 ^ 16 ∧ (pixelOfWord v).a.toNat = v.toNat % 2 ^ 16 := by
  have := v.isLt
  refine ⟨?_, ?_, ?_, ?_⟩
  · simp only [pixelOfWord, BitVec.toNat_setWidth, BitVec.toNat_ushiftRight, Nat.shiftRight_eq_div_pow]
    omega
  all_goals simp only [pixelOfWord, BitVec.toNat_setWidth, BitVec.toNat_ushiftRight, Nat.shiftRight_eq_div_pow]

@[simp] theorem pixelOfWord_pixelWord (p : Pixel) : pixelOfWord (pixelWord p) = p := by
  obtain ⟨hr, hg, hb, ha⟩ := pixelOfWord_toNat (pixelWord p)
  rw [pixelWord_toNat] at hr hg hb ha
  have := p.r.isLt; have := p.g.isLt; have := p.b.isLt; have := p.a.isLt
  have er : (pixelOfWord (pixelWord p)).r = p.r := BitVec.eq_of_toNat_eq (by omega)
  have eg : (pixelOfWord (pixelWord p)).g = p.g := BitVec.eq_of_toNat_eq (by omega)
  have eb : (pixelOfWord (pixelWord p)).b = p.b := BitVec.eq_of_toNat_eq (by omega)
  have ea : (pixelOfWord (pixelWord p)).a = p.a := BitVec.eq_of_toNat_eq (by omega)
  calc pixelOfWord (pixelWord p)
      = ⟨(pixelOfWord (pixelWord p)).r, (pixelOfWord (pixelWord p)).g, (pixelOfWord (pixelWord p)).b,
          (pixelOfWord (pixelWord p)).a⟩ := rfl
    _ = p := by rw [er, eg, eb, ea]

@[simp] theorem gridTokOf_gridTokWord (t : GridTok) : gridTokOf (gridTokWord t) = t := by
  cases t with
  | hdr w h => simp [gridTokOf, gridTokWord]
  | pix p => simp [gridTokOf, gridTokWord]
  | pixl p => simp [gridTokOf, gridTokWord]
  | stat c => simp [gridTokOf, gridTokWord, BitVec.setWidth_setWidth_of_le]

/-! ### Phases and codes -/

@[simp] theorem dPhaseOfCode_dPhaseCode (p : DPhase) : dPhaseOfCode (dPhaseCode p) = p := by cases p <;> rfl

@[simp] theorem ePhaseOfCode_ePhaseCode (p : EPhase) : ePhaseOfCode (ePhaseCode p) = p := by cases p <;> rfl

@[simp] theorem statusOfCode_statusCode (e : Status) : statusOfCode (statusCode e) = some e := by cases e <;> rfl

/-! ### Byte order -/

/-- The shift-in is multiplication by 256 and addition, without the bits that leave at the top (R14). -/
theorem shiftIn_toNat {n : Nat} (hn : 8 ≤ n) (r : BitVec n) (b : Byte) :
    (shiftIn r b).toNat = (r.toNat * 256 + b.toNat) % 2 ^ n := by
  unfold shiftIn
  have hb := b.isLt
  have h8 : 2 ^ 8 ≤ 2 ^ n := Nat.pow_le_pow_right (by omega) hn
  have hbn : b.toNat < 2 ^ n := by omega
  simp only [BitVec.toNat_or, BitVec.toNat_shiftLeft, BitVec.toNat_setWidth, Nat.mod_eq_of_lt hbn]
  have e : r.toNat <<< 8 % 2 ^ n = (r.toNat % 2 ^ (n - 8)) <<< 8 := by
    simp only [Nat.shiftLeft_eq]
    obtain ⟨m, rfl⟩ := Nat.exists_eq_add_of_le hn
    rw [show 8 + m - 8 = m by omega, Nat.pow_add, Nat.mul_comm (2 ^ 8), Nat.mul_mod_mul_right]
  rw [e, ← Nat.shiftLeft_add_eq_or_of_lt hb]
  simp only [Nat.shiftLeft_eq]
  obtain ⟨m, rfl⟩ := Nat.exists_eq_add_of_le hn
  rw [show 8 + m - 8 = m by omega, Nat.pow_add]
  have hm : 0 < 2 ^ m := Nat.pos_of_ne_zero (by simp)
  have hlt := Nat.mod_lt r.toNat hm
  have hd := Nat.div_add_mod r.toNat (2 ^ m)
  generalize 2 ^ m = M at *
  generalize r.toNat / M = q at *
  generalize r.toNat % M = t at *
  have : r.toNat * 256 + b.toNat = (t * 2 ^ 8 + b.toNat) + (2 ^ 8 * M) * q := by
    rw [← hd]; ring
  rw [this, Nat.add_mul_mod_self_left, Nat.mod_eq_of_lt]
  have : (t + 1) * 2 ^ 8 ≤ M * 2 ^ 8 := Nat.mul_le_mul_right _ hlt
  omega

theorem beBytes_length {n : Nat} (k : Nat) (v : BitVec n) : (beBytes k v).length = k := by simp [beBytes]

theorem byte_of_shift_toNat {n : Nat} (v : BitVec n) (j : Nat) :
    ((v >>> j).setWidth 8).toNat = v.toNat / 2 ^ j % 256 := by
  simp [BitVec.toNat_setWidth, BitVec.toNat_ushiftRight, Nat.shiftRight_eq_div_pow]

/-- Two bytes assemble the channel they were sent from. -/
theorem beOf_beBytes16 (v : BitVec 16) : beOf 16 (beBytes 2 v) = v := by
  apply BitVec.eq_of_toNat_eq
  have := v.isLt
  simp only [beOf, beBytes, List.range, List.range.loop, List.map, List.foldl]
  rw [shiftIn_toNat (by omega), shiftIn_toNat (by omega)]
  simp only [byte_of_shift_toNat, BitVec.toNat_ofNat]
  omega

/-- Four bytes assemble the dimension they were sent from. -/
theorem beOf_beBytes32 (v : BitVec 32) : beOf 32 (beBytes 4 v) = v := by
  apply BitVec.eq_of_toNat_eq
  have := v.isLt
  simp only [beOf, beBytes, List.range, List.range.loop, List.map, List.foldl]
  rw [shiftIn_toNat (by omega), shiftIn_toNat (by omega), shiftIn_toNat (by omega), shiftIn_toNat (by omega)]
  simp only [byte_of_shift_toNat, BitVec.toNat_ofNat]
  omega

/-- Eight bytes assemble the word they were sent from. -/
theorem beOf_beBytes64 (v : BitVec 64) : beOf 64 (beBytes 8 v) = v := by
  apply BitVec.eq_of_toNat_eq
  have := v.isLt
  simp only [beOf, beBytes, List.range, List.range.loop, List.map, List.foldl]
  iterate 8 rw [shiftIn_toNat (by omega)]
  simp only [byte_of_shift_toNat, BitVec.toNat_ofNat]
  omega

/-! ### Conditions -/

theorem lastColumn_iff (col w : BitVec 32) : lastColumn col w = true ↔ col.toNat + 1 = w.toNat := by
  simp [lastColumn]

theorem tooLarge_iff (c : Config) (w h : BitVec 32) :
    tooLarge c w h = true ↔ 2 ^ c.lenBits ≤ payloadLength w h := by
  simp [tooLarge]

/-- The product of the dimensions fits 64 bits (R35). -/
theorem dimensions_product_fits (w h : BitVec 32) : w.toNat * h.toNat < 2 ^ 64 := by
  have hw := w.isLt
  have hh := h.isLt
  calc w.toNat * h.toNat ≤ (2 ^ 32 - 1) * (2 ^ 32 - 1) := Nat.mul_le_mul (by omega) (by omega)
    _ < 2 ^ 64 := by norm_num

end Sys2Proof.Machine
end

