-- ==== Sys2Proof/Laws/State.lean ====
section
/-! SUPPORT. One lemma per field per update of the state, so that no later proof unfolds a record update. -/

namespace Sys2Proof.Machine

variable (s : State)


/-! ### `setDec` -/

@[simp] theorem State.setDec_cfg (d : DecRegs) : (s.setDec d).cfg = s.cfg := rfl
@[simp] theorem State.setDec_dec (d : DecRegs) : (s.setDec d).dec = d := rfl
@[simp] theorem State.setDec_enc (d : DecRegs) : (s.setDec d).enc = s.enc := rfl
@[simp] theorem State.setDec_decIn (d : DecRegs) : (s.setDec d).decIn = s.decIn := rfl
@[simp] theorem State.setDec_decOut (d : DecRegs) : (s.setDec d).decOut = s.decOut := rfl
@[simp] theorem State.setDec_encIn (d : DecRegs) : (s.setDec d).encIn = s.encIn := rfl
@[simp] theorem State.setDec_encOut (d : DecRegs) : (s.setDec d).encOut = s.encOut := rfl
@[simp] theorem State.setDec_decOutCap (d : DecRegs) : (s.setDec d).decOutCap = s.decOutCap := rfl
@[simp] theorem State.setDec_encOutCap (d : DecRegs) : (s.setDec d).encOutCap = s.encOutCap := rfl
@[simp] theorem State.setDec_rst (d : DecRegs) : (s.setDec d).rst = s.rst := rfl
@[simp] theorem State.setDec_arb (d : DecRegs) : (s.setDec d).arb = s.arb := rfl

/-! ### `setEnc` -/

@[simp] theorem State.setEnc_cfg (e : EncRegs) : (s.setEnc e).cfg = s.cfg := rfl
@[simp] theorem State.setEnc_dec (e : EncRegs) : (s.setEnc e).dec = s.dec := rfl
@[simp] theorem State.setEnc_enc (e : EncRegs) : (s.setEnc e).enc = e := rfl
@[simp] theorem State.setEnc_decIn (e : EncRegs) : (s.setEnc e).decIn = s.decIn := rfl
@[simp] theorem State.setEnc_decOut (e : EncRegs) : (s.setEnc e).decOut = s.decOut := rfl
@[simp] theorem State.setEnc_encIn (e : EncRegs) : (s.setEnc e).encIn = s.encIn := rfl
@[simp] theorem State.setEnc_encOut (e : EncRegs) : (s.setEnc e).encOut = s.encOut := rfl
@[simp] theorem State.setEnc_decOutCap (e : EncRegs) : (s.setEnc e).decOutCap = s.decOutCap := rfl
@[simp] theorem State.setEnc_encOutCap (e : EncRegs) : (s.setEnc e).encOutCap = s.encOutCap := rfl
@[simp] theorem State.setEnc_rst (e : EncRegs) : (s.setEnc e).rst = s.rst := rfl
@[simp] theorem State.setEnc_arb (e : EncRegs) : (s.setEnc e).arb = s.arb := rfl

/-! ### `emitDec` -/

@[simp] theorem State.emitDec_cfg (tok : GridTok) : (s.emitDec tok).cfg = s.cfg := rfl
@[simp] theorem State.emitDec_dec (tok : GridTok) : (s.emitDec tok).dec = s.dec := rfl
@[simp] theorem State.emitDec_enc (tok : GridTok) : (s.emitDec tok).enc = s.enc := rfl
@[simp] theorem State.emitDec_decIn (tok : GridTok) : (s.emitDec tok).decIn = s.decIn := rfl
@[simp] theorem State.emitDec_decOut (tok : GridTok) : (s.emitDec tok).decOut = s.decOut ++ [gridTokWord tok] := rfl
@[simp] theorem State.emitDec_encIn (tok : GridTok) : (s.emitDec tok).encIn = s.encIn := rfl
@[simp] theorem State.emitDec_encOut (tok : GridTok) : (s.emitDec tok).encOut = s.encOut := rfl
@[simp] theorem State.emitDec_decOutCap (tok : GridTok) : (s.emitDec tok).decOutCap = s.decOutCap := rfl
@[simp] theorem State.emitDec_encOutCap (tok : GridTok) : (s.emitDec tok).encOutCap = s.encOutCap := rfl
@[simp] theorem State.emitDec_rst (tok : GridTok) : (s.emitDec tok).rst = s.rst := rfl
@[simp] theorem State.emitDec_arb (tok : GridTok) : (s.emitDec tok).arb = s.arb := rfl

/-! ### `emitEnc` -/

@[simp] theorem State.emitEnc_cfg (toks : List ByteTok) : (s.emitEnc toks).cfg = s.cfg := rfl
@[simp] theorem State.emitEnc_dec (toks : List ByteTok) : (s.emitEnc toks).dec = s.dec := rfl
@[simp] theorem State.emitEnc_enc (toks : List ByteTok) : (s.emitEnc toks).enc = s.enc := rfl
@[simp] theorem State.emitEnc_decIn (toks : List ByteTok) : (s.emitEnc toks).decIn = s.decIn := rfl
@[simp] theorem State.emitEnc_decOut (toks : List ByteTok) : (s.emitEnc toks).decOut = s.decOut := rfl
@[simp] theorem State.emitEnc_encIn (toks : List ByteTok) : (s.emitEnc toks).encIn = s.encIn := rfl
@[simp] theorem State.emitEnc_encOut (toks : List ByteTok) : (s.emitEnc toks).encOut = s.encOut ++ toks.map byteTokWord := rfl
@[simp] theorem State.emitEnc_decOutCap (toks : List ByteTok) : (s.emitEnc toks).decOutCap = s.decOutCap := rfl
@[simp] theorem State.emitEnc_encOutCap (toks : List ByteTok) : (s.emitEnc toks).encOutCap = s.encOutCap := rfl
@[simp] theorem State.emitEnc_rst (toks : List ByteTok) : (s.emitEnc toks).rst = s.rst := rfl
@[simp] theorem State.emitEnc_arb (toks : List ByteTok) : (s.emitEnc toks).arb = s.arb := rfl

/-! ### `raiseDec` -/

@[simp] theorem State.raiseDec_cfg (e : Status) : (s.raiseDec e).cfg = s.cfg := rfl
@[simp] theorem State.raiseDec_dec (e : Status) : (s.raiseDec e).dec = { s.dec with err := statusCode e, phase := .drain } := rfl
@[simp] theorem State.raiseDec_enc (e : Status) : (s.raiseDec e).enc = s.enc := rfl
@[simp] theorem State.raiseDec_decIn (e : Status) : (s.raiseDec e).decIn = s.decIn := rfl
@[simp] theorem State.raiseDec_decOut (e : Status) : (s.raiseDec e).decOut = s.decOut := rfl
@[simp] theorem State.raiseDec_encIn (e : Status) : (s.raiseDec e).encIn = s.encIn := rfl
@[simp] theorem State.raiseDec_encOut (e : Status) : (s.raiseDec e).encOut = s.encOut := rfl
@[simp] theorem State.raiseDec_decOutCap (e : Status) : (s.raiseDec e).decOutCap = s.decOutCap := rfl
@[simp] theorem State.raiseDec_encOutCap (e : Status) : (s.raiseDec e).encOutCap = s.encOutCap := rfl
@[simp] theorem State.raiseDec_rst (e : Status) : (s.raiseDec e).rst = s.rst := rfl
@[simp] theorem State.raiseDec_arb (e : Status) : (s.raiseDec e).arb = s.arb := rfl

/-! ### `raiseEnc` -/

@[simp] theorem State.raiseEnc_cfg (e : Status) : (s.raiseEnc e).cfg = s.cfg := rfl
@[simp] theorem State.raiseEnc_dec (e : Status) : (s.raiseEnc e).dec = s.dec := rfl
@[simp] theorem State.raiseEnc_enc (e : Status) : (s.raiseEnc e).enc = { s.enc with err := statusCode e, phase := .drain } := rfl
@[simp] theorem State.raiseEnc_decIn (e : Status) : (s.raiseEnc e).decIn = s.decIn := rfl
@[simp] theorem State.raiseEnc_decOut (e : Status) : (s.raiseEnc e).decOut = s.decOut := rfl
@[simp] theorem State.raiseEnc_encIn (e : Status) : (s.raiseEnc e).encIn = s.encIn := rfl
@[simp] theorem State.raiseEnc_encOut (e : Status) : (s.raiseEnc e).encOut = s.encOut := rfl
@[simp] theorem State.raiseEnc_decOutCap (e : Status) : (s.raiseEnc e).decOutCap = s.decOutCap := rfl
@[simp] theorem State.raiseEnc_encOutCap (e : Status) : (s.raiseEnc e).encOutCap = s.encOutCap := rfl
@[simp] theorem State.raiseEnc_rst (e : Status) : (s.raiseEnc e).rst = s.rst := rfl
@[simp] theorem State.raiseEnc_arb (e : Status) : (s.raiseEnc e).arb = s.arb := rfl

/-! ### `closeDec` -/

@[simp] theorem State.closeDec_cfg (c : BitVec 4) : (s.closeDec c).cfg = s.cfg := rfl
@[simp] theorem State.closeDec_dec (c : BitVec 4) : (s.closeDec c).dec = DecRegs.reset := rfl
@[simp] theorem State.closeDec_enc (c : BitVec 4) : (s.closeDec c).enc = s.enc := rfl
@[simp] theorem State.closeDec_decIn (c : BitVec 4) : (s.closeDec c).decIn = s.decIn := rfl
@[simp] theorem State.closeDec_decOut (c : BitVec 4) : (s.closeDec c).decOut = s.decOut ++ [gridTokWord (.stat c)] := rfl
@[simp] theorem State.closeDec_encIn (c : BitVec 4) : (s.closeDec c).encIn = s.encIn := rfl
@[simp] theorem State.closeDec_encOut (c : BitVec 4) : (s.closeDec c).encOut = s.encOut := rfl
@[simp] theorem State.closeDec_decOutCap (c : BitVec 4) : (s.closeDec c).decOutCap = s.decOutCap := rfl
@[simp] theorem State.closeDec_encOutCap (c : BitVec 4) : (s.closeDec c).encOutCap = s.encOutCap := rfl
@[simp] theorem State.closeDec_rst (c : BitVec 4) : (s.closeDec c).rst = s.rst := rfl
@[simp] theorem State.closeDec_arb (c : BitVec 4) : (s.closeDec c).arb = s.arb := rfl

/-! ### `closeEnc` -/

@[simp] theorem State.closeEnc_cfg (c : BitVec 4) : (s.closeEnc c).cfg = s.cfg := rfl
@[simp] theorem State.closeEnc_dec (c : BitVec 4) : (s.closeEnc c).dec = s.dec := rfl
@[simp] theorem State.closeEnc_enc (c : BitVec 4) : (s.closeEnc c).enc = EncRegs.reset := rfl
@[simp] theorem State.closeEnc_decIn (c : BitVec 4) : (s.closeEnc c).decIn = s.decIn := rfl
@[simp] theorem State.closeEnc_decOut (c : BitVec 4) : (s.closeEnc c).decOut = s.decOut := rfl
@[simp] theorem State.closeEnc_encIn (c : BitVec 4) : (s.closeEnc c).encIn = s.encIn := rfl
@[simp] theorem State.closeEnc_encOut (c : BitVec 4) : (s.closeEnc c).encOut = s.encOut ++ [byteTokWord (.eof c)] := rfl
@[simp] theorem State.closeEnc_decOutCap (c : BitVec 4) : (s.closeEnc c).decOutCap = s.decOutCap := rfl
@[simp] theorem State.closeEnc_encOutCap (c : BitVec 4) : (s.closeEnc c).encOutCap = s.encOutCap := rfl
@[simp] theorem State.closeEnc_rst (c : BitVec 4) : (s.closeEnc c).rst = s.rst := rfl
@[simp] theorem State.closeEnc_arb (c : BitVec 4) : (s.closeEnc c).arb = s.arb := rfl

/-! ### `resetEvent` -/

@[simp] theorem State.resetEvent_cfg : s.resetEvent.cfg = s.cfg := rfl
@[simp] theorem State.resetEvent_dec : s.resetEvent.dec = DecRegs.reset := rfl
@[simp] theorem State.resetEvent_enc : s.resetEvent.enc = EncRegs.reset := rfl
@[simp] theorem State.resetEvent_decIn : s.resetEvent.decIn = [] := rfl
@[simp] theorem State.resetEvent_decOut : s.resetEvent.decOut = [] := rfl
@[simp] theorem State.resetEvent_encIn : s.resetEvent.encIn = [] := rfl
@[simp] theorem State.resetEvent_encOut : s.resetEvent.encOut = [] := rfl
@[simp] theorem State.resetEvent_decOutCap : s.resetEvent.decOutCap = s.decOutCap := rfl
@[simp] theorem State.resetEvent_encOutCap : s.resetEvent.encOutCap = s.encOutCap := rfl
@[simp] theorem State.resetEvent_rst : s.resetEvent.rst = false := rfl
@[simp] theorem State.resetEvent_arb : s.resetEvent.arb = s.arb := rfl

/-! ### `take` -/

@[simp] theorem State.take_dec_cfg : (s.take .dec).cfg = s.cfg := rfl
@[simp] theorem State.take_dec_dec : (s.take .dec).dec = s.dec := rfl
@[simp] theorem State.take_dec_enc : (s.take .dec).enc = s.enc := rfl
@[simp] theorem State.take_dec_decIn : (s.take .dec).decIn = s.decIn.tail := rfl
@[simp] theorem State.take_dec_decOut : (s.take .dec).decOut = s.decOut := rfl
@[simp] theorem State.take_dec_encIn : (s.take .dec).encIn = s.encIn := rfl
@[simp] theorem State.take_dec_encOut : (s.take .dec).encOut = s.encOut := rfl
@[simp] theorem State.take_dec_decOutCap : (s.take .dec).decOutCap = s.decOutCap := rfl
@[simp] theorem State.take_dec_encOutCap : (s.take .dec).encOutCap = s.encOutCap := rfl
@[simp] theorem State.take_dec_rst : (s.take .dec).rst = s.rst := rfl
@[simp] theorem State.take_dec_arb : (s.take .dec).arb = s.arb := rfl
@[simp] theorem State.take_enc_cfg : (s.take .enc).cfg = s.cfg := rfl
@[simp] theorem State.take_enc_dec : (s.take .enc).dec = s.dec := rfl
@[simp] theorem State.take_enc_enc : (s.take .enc).enc = s.enc := rfl
@[simp] theorem State.take_enc_decIn : (s.take .enc).decIn = s.decIn := rfl
@[simp] theorem State.take_enc_decOut : (s.take .enc).decOut = s.decOut := rfl
@[simp] theorem State.take_enc_encIn : (s.take .enc).encIn = s.encIn.tail := rfl
@[simp] theorem State.take_enc_encOut : (s.take .enc).encOut = s.encOut := rfl
@[simp] theorem State.take_enc_decOutCap : (s.take .enc).decOutCap = s.decOutCap := rfl
@[simp] theorem State.take_enc_encOutCap : (s.take .enc).encOutCap = s.encOutCap := rfl
@[simp] theorem State.take_enc_rst : (s.take .enc).rst = s.rst := rfl
@[simp] theorem State.take_enc_arb : (s.take .enc).arb = s.arb := rfl

/-! ### `chosen` -/

@[simp] theorem State.chosen_cfg : s.chosen.cfg = s.cfg := by unfold State.chosen; split <;> rfl
@[simp] theorem State.chosen_dec : s.chosen.dec = s.dec := by unfold State.chosen; split <;> rfl
@[simp] theorem State.chosen_enc : s.chosen.enc = s.enc := by unfold State.chosen; split <;> rfl
@[simp] theorem State.chosen_decIn : s.chosen.decIn = s.decIn := by unfold State.chosen; split <;> rfl
@[simp] theorem State.chosen_decOut : s.chosen.decOut = s.decOut := by unfold State.chosen; split <;> rfl
@[simp] theorem State.chosen_encIn : s.chosen.encIn = s.encIn := by unfold State.chosen; split <;> rfl
@[simp] theorem State.chosen_encOut : s.chosen.encOut = s.encOut := by unfold State.chosen; split <;> rfl
@[simp] theorem State.chosen_decOutCap : s.chosen.decOutCap = s.decOutCap := by unfold State.chosen; split <;> rfl
@[simp] theorem State.chosen_encOutCap : s.chosen.encOutCap = s.encOutCap := by unfold State.chosen; split <;> rfl
@[simp] theorem State.chosen_rst : s.chosen.rst = s.rst := by unfold State.chosen; split <;> rfl

end Sys2Proof.Machine
end

