-- ==== Sys2Proof/Laws/Ops.lean ====
section
/-! SUPPORT. What each shared operation and each meaning can do, said once: a `DEC` meaning is a function of the
parameters and of `DEC`'s registers that writes those registers and appends to `dec_out`, and likewise for `ENC`. -/

namespace Sys2Proof.Machine

/-! ### `andThen` -/

@[simp] theorem andThen_next (s : State) (f : State → Answer) : andThen (.next s) f = f s := rfl

@[simp] theorem andThen_refused (r : Refusal) (f : State → Answer) : andThen (.refused r) f = .refused r := rfl

theorem andThen_assoc (o : Answer) (f g : State → Answer) :
    andThen (andThen o f) g = andThen o fun s => andThen (f s) g := by cases o <;> rfl

/-- An answer that is a next state came from one. -/
theorem andThen_eq_next {o : Answer} {f : State → Answer} {t : State} (h : andThen o f = .next t) :
    ∃ u, o = .next u ∧ f u = .next t := by
  cases o with
  | next u => exact ⟨u, rfl, h⟩
  | fault r => cases h
  | refused r => cases h

/-! ### `settle` -/

/-- A step happens where its port has room, and otherwise leaves everything as it was. -/
theorem settle_next (s t : State) (u : UnitId) :
    s.settle u (.next t) = if s.roomFor u t = true then .next t else .next s := rfl

@[simp] theorem settle_refused (s : State) (u : UnitId) (r : Refusal) : s.settle u (.refused r) = .refused r := rfl

theorem settle_eq_next {s t : State} {u : UnitId} {o : Answer} (h : s.settle u o = .next t) :
    t = s ∨ o = .next t := by
  cases o with
  | next v =>
    rw [settle_next] at h
    split at h
    · exact .inr h
    · exact .inl (by cases h; rfl)
  | fault r => cases h
  | refused r => cases h

/-- When a port takes what a step emitted. -/
theorem portTakes_iff (cap : Option Nat) (most before after : Nat) :
    portTakes cap most before after = true ↔ canTake cap most before after := by
  cases cap <;> simp [portTakes, canTake]

@[simp] theorem roomFor_dec_unbounded (s t : State) (h : s.decOutCap = none) : s.roomFor .dec t = true := by
  simp [State.roomFor, portTakes, h]

@[simp] theorem roomFor_enc_unbounded (s t : State) (h : s.encOutCap = none) : s.roomFor .enc t = true := by
  simp [State.roomFor, portTakes, h]

/-! ### The shape of a meaning -/

/-- What a `DEC` meaning leaves: new registers and beats, or the refusal of an unreachable phase. -/
def applyDec (s : State) : Option (DecRegs × List GridBeat) → Answer
  | some (d, beats) => .next { s with dec := d, decOut := s.decOut ++ beats }
  | none => .refused (.rejected .unreachableDecPhase)

/-- What an `ENC` meaning leaves. -/
def applyEnc (s : State) : Option (EncRegs × List ByteBeat) → Answer
  | some (e, beats) => .next { s with enc := e, encOut := s.encOut ++ beats }
  | none => .refused (.rejected .unreachableEncPhase)

/-- A meaning that reads the parameters and `DEC`'s registers and does no more than `applyDec`. -/
def DecLocal (f : State → Answer) : Prop :=
  ∃ effect : Config → DecRegs → Option (DecRegs × List GridBeat), ∀ s, f s = applyDec s (effect s.cfg s.dec)

/-- The same of `ENC`. -/
def EncLocal (f : State → Answer) : Prop :=
  ∃ effect : Config → EncRegs → Option (EncRegs × List ByteBeat), ∀ s, f s = applyEnc s (effect s.cfg s.enc)

theorem DecLocal.nop : DecLocal fun s => .next s :=
  ⟨fun _ d => some (d, []), fun s => by simp [applyDec]⟩

/-! ### The effects of the `DEC` operations -/

def magicEffect (b : Byte) (_ : Config) (d : DecRegs) : Option (DecRegs × List GridBeat) :=
  if b ≠ magicByte d.idx then some ({ d with err := statusCode .invalidMagic, phase := .drain }, [])
  else if d.idx = 7 then some ({ d with idx := 0, phase := .width }, [])
  else some ({ d with idx := d.idx + 1 }, [])

def widthEffect (b : Byte) (_ : Config) (d : DecRegs) : Option (DecRegs × List GridBeat) :=
  if d.idx = 3 then some ({ d with w := shiftIn d.w b, idx := 0, phase := .height }, [])
  else some ({ d with w := shiftIn d.w b, idx := d.idx + 1 }, [])

def heightEffect (b : Byte) (c : Config) (d : DecRegs) : Option (DecRegs × List GridBeat) :=
  if d.idx ≠ 3 then some ({ d with h := shiftIn d.h b, idx := d.idx + 1 }, [])
  else if tooLarge c d.w (shiftIn d.h b) then
    some ({ d with h := shiftIn d.h b, idx := 0, err := statusCode .dimensionsTooLarge, phase := .drain }, [])
  else
    some ({ d with
      h := shiftIn d.h b, idx := 0, rem := payloadLength d.w (shiftIn d.h b), col := 0, phase := .pay },
      [gridTokWord (.hdr d.w (shiftIn d.h b))])

def payEffect (b : Byte) (c : Config) (d : DecRegs) : Option (DecRegs × List GridBeat) :=
  if d.rem = 0 then
    if c.strictTrailing then some ({ d with err := statusCode .trailingData, phase := .drain }, [])
    else some (d, [])
  else if d.idx ≠ 7 then some ({ d with rem := d.rem - 1, sh := shiftIn d.sh b, idx := d.idx + 1 }, [])
  else if lastColumn d.col d.w then
    some ({ d with rem := d.rem - 1, sh := shiftIn d.sh b, idx := 0, col := 0 },
      [gridTokWord (.pixl (pixelOfWord (shiftIn d.sh b)))])
  else
    some ({ d with rem := d.rem - 1, sh := shiftIn d.sh b, idx := 0, col := d.col + 1 },
      [gridTokWord (.pix (pixelOfWord (shiftIn d.sh b)))])

def eofEffect (_ : Config) (d : DecRegs) : Option (DecRegs × List GridBeat) :=
  match decEofCode d with
  | some code => some (DecRegs.reset, [gridTokWord (.stat code)])
  | none => none

/-- The effect of a byte, by phase. -/
def byteEffect (b : Byte) (c : Config) (d : DecRegs) : Option (DecRegs × List GridBeat) :=
  match d.phase with
  | .magic => magicEffect b c d
  | .width => widthEffect b c d
  | .height => heightEffect b c d
  | .pay => payEffect b c d
  | .drain => some (d, [])
  | .unused5 => none
  | .unused6 => none
  | .unused7 => none

/-- The effect of the bytes of a field, one after another. -/
def bytesEffect : List Byte → Config → DecRegs → Option (DecRegs × List GridBeat)
  | [], _, d => some (d, [])
  | b :: bs, c, d => (byteEffect b c d).bind fun p => (bytesEffect bs c p.1).map fun q => (q.1, p.2 ++ q.2)

theorem execDecMagic_eq (b : Byte) (s : State) :
    execDecMagic b s = applyDec s (magicEffect b s.cfg s.dec) := by
  unfold execDecMagic magicEffect
  split_ifs <;> simp [applyDec, State.raiseDec, State.setDec]

theorem execDecWidth_eq (b : Byte) (s : State) :
    execDecWidth b s = applyDec s (widthEffect b s.cfg s.dec) := by
  unfold execDecWidth widthEffect
  split_ifs <;> simp [applyDec, State.setDec]

theorem execDecHeight_eq (b : Byte) (s : State) :
    execDecHeight b s = applyDec s (heightEffect b s.cfg s.dec) := by
  unfold execDecHeight heightEffect headerComplete
  simp only [State.setDec_dec, State.setDec_cfg]
  split_ifs <;> simp [applyDec, State.setDec, State.raiseDec, State.emitDec, *]

theorem execDecPay_eq (b : Byte) (s : State) :
    execDecPay b s = applyDec s (payEffect b s.cfg s.dec) := by
  unfold execDecPay payEffect pixelComplete
  simp only [State.setDec_dec]
  split_ifs <;> simp [applyDec, State.setDec, State.raiseDec, State.emitDec, *]

theorem execDecDrain_eq (b : Byte) (s : State) : execDecDrain b s = applyDec s (some (s.dec, [])) := by
  simp [execDecDrain, applyDec]

theorem execDecEof_eq (data : Byte) (s : State) :
    execDecEof data s = applyDec s (eofEffect s.cfg s.dec) := by
  unfold execDecEof eofEffect
  cases h : decEofCode s.dec <;> rfl

theorem decByte_eq (b : Byte) (s : State) : decByte b s = applyDec s (byteEffect b s.cfg s.dec) := by
  unfold decByte byteEffect
  cases h : s.dec.phase
  · exact execDecMagic_eq b s
  · exact execDecWidth_eq b s
  · exact execDecHeight_eq b s
  · exact execDecPay_eq b s
  · exact execDecDrain_eq b s
  all_goals rfl

theorem decBytes_eq (bs : List Byte) (s : State) : decBytes bs s = applyDec s (bytesEffect bs s.cfg s.dec) := by
  induction bs generalizing s with
  | nil => simp [decBytes, bytesEffect, applyDec]
  | cons b bs ih =>
    simp only [decBytes, decByte_eq, bytesEffect]
    cases byteEffect b s.cfg s.dec with
    | none => rfl
    | some p =>
      simp only [applyDec, andThen_next, ih, Option.bind_some]
      cases bytesEffect bs s.cfg p.1 with
      | none => rfl
      | some q => simp [List.append_assoc]

/-- Every meaning of a `DEC` instruction, and of a wire field, is local to `DEC`. -/
theorem exec_decLocal (i : Instr) (h : instrUnit i = .dec) : DecLocal (exec i) := by
  cases i with
  | hdrMagic m => exact ⟨_, decBytes_eq _⟩
  | hdrWidth w => exact ⟨_, decBytes_eq _⟩
  | hdrHeight v => exact ⟨_, decBytes_eq _⟩
  | pixelR v => exact ⟨_, decBytes_eq _⟩
  | pixelG v => exact ⟨_, decBytes_eq _⟩
  | pixelB v => exact ⟨_, decBytes_eq _⟩
  | pixelA v => exact ⟨_, decBytes_eq _⟩
  | decMagic b => exact ⟨_, execDecMagic_eq b⟩
  | decWidth b => exact ⟨_, execDecWidth_eq b⟩
  | decHeight b => exact ⟨_, execDecHeight_eq b⟩
  | decPay b => exact ⟨_, execDecPay_eq b⟩
  | decDrain b => exact DecLocal.nop
  | decEof d => exact ⟨_, execDecEof_eq d⟩
  | encHdr w v => cases h
  | encPix p => cases h
  | encPixl p => cases h
  | encEnd p => cases h
  | encDrain k p => cases h
  | encViol k p => cases h

/-! ### The effects of the `ENC` operations -/

def hdrEffect (w h : BitVec 32) (e : EncRegs) : Option (EncRegs × List ByteBeat) :=
  some ({ e with w := w, h := h, rem := BitVec.ofNat 64 (w.toNat * h.toNat), col := 0, phase := .body },
    (headerToks w h).map byteTokWord)

def pixEffect (p : Pixel) (e : EncRegs) : Option (EncRegs × List ByteBeat) :=
  if pixIrregular e then some ({ e with err := statusCode .irregularGrid, phase := .drain }, [])
  else some ({ e with rem := e.rem - 1, col := e.col + 1 }, (pixelToks p).map byteTokWord)

def pixlEffect (p : Pixel) (e : EncRegs) : Option (EncRegs × List ByteBeat) :=
  if pixlIrregular e then some ({ e with err := statusCode .irregularGrid, phase := .drain }, [])
  else some ({ e with rem := e.rem - 1, col := 0 }, (pixelToks p).map byteTokWord)

def endEffect (e : EncRegs) : Option (EncRegs × List ByteBeat) :=
  match encEndCode e with
  | some code => some (EncRegs.reset, [byteTokWord (.eof code)])
  | none => none

def violEffect (e : EncRegs) : Option (EncRegs × List ByteBeat) :=
  some ({ e with err := statusCode .protocolViolation, phase := .drain }, [])

theorem execEncHdr_eq (w h : BitVec 32) (s : State) : execEncHdr w h s = applyEnc s (hdrEffect w h s.enc) := rfl

theorem execEncPix_eq (p : Pixel) (s : State) : execEncPix p s = applyEnc s (pixEffect p s.enc) := by
  unfold execEncPix pixEffect
  split_ifs <;> simp [applyEnc, State.setEnc, State.raiseEnc, State.emitEnc]

theorem execEncPixl_eq (p : Pixel) (s : State) : execEncPixl p s = applyEnc s (pixlEffect p s.enc) := by
  unfold execEncPixl pixlEffect
  split_ifs <;> simp [applyEnc, State.setEnc, State.raiseEnc, State.emitEnc]

theorem execEncEnd_eq (p : BitVec 64) (s : State) : execEncEnd p s = applyEnc s (endEffect s.enc) := by
  unfold execEncEnd endEffect
  cases h : encEndCode s.enc <;> rfl

theorem execEncViol_eq (k : GridKind) (p : BitVec 64) (s : State) :
    execEncViol k p s = applyEnc s (violEffect s.enc) := by
  simp [execEncViol, violEffect, applyEnc, State.setEnc, State.raiseEnc]

theorem execEncDrain_eq (k : GridKind) (p : BitVec 64) (s : State) :
    execEncDrain k p s = applyEnc s (some (s.enc, [])) := by
  simp [execEncDrain, applyEnc]

/-- Every meaning of an `ENC` instruction is local to `ENC`. -/
theorem exec_encLocal (i : Instr) (hu : instrUnit i = .enc) : EncLocal (exec i) := by
  cases i with
  | encHdr w h => exact ⟨fun _ => hdrEffect w h, execEncHdr_eq w h⟩
  | encPix p => exact ⟨fun _ => pixEffect p, execEncPix_eq p⟩
  | encPixl p => exact ⟨fun _ => pixlEffect p, execEncPixl_eq p⟩
  | encEnd p => exact ⟨fun _ => endEffect, execEncEnd_eq p⟩
  | encDrain k p => exact ⟨fun _ e => some (e, []), execEncDrain_eq k p⟩
  | encViol k p => exact ⟨fun _ => violEffect, execEncViol_eq k p⟩
  | hdrMagic m => cases hu
  | hdrWidth w => cases hu
  | hdrHeight v => cases hu
  | pixelR v => cases hu
  | pixelG v => cases hu
  | pixelB v => cases hu
  | pixelA v => cases hu
  | decMagic b => cases hu
  | decWidth b => cases hu
  | decHeight b => cases hu
  | decPay b => cases hu
  | decDrain b => cases hu
  | decEof d => cases hu

end Sys2Proof.Machine
end

