-- ==== Sys2Proof/Laws/Step.lean ====
section
/-! SUPPORT. What a unit's step is, by the beat at the head of its port and the unit's phase. -/

namespace Sys2Proof.Machine

/-! ### Selectors -/

theorem decode_decWord_byte (ph : DPhase) (t : ByteBeat) (h : beatEof t = false) :
    decode (decWord ph t) = match ph with
      | .magic => .ok (.decMagic (beatData t))
      | .width => .ok (.decWidth (beatData t))
      | .height => .ok (.decHeight (beatData t))
      | .pay => .ok (.decPay (beatData t))
      | .drain => .ok (.decDrain (beatData t))
      | .unused5 => .error .unreachableDecPhase
      | .unused6 => .error .unreachableDecPhase
      | .unused7 => .error .unreachableDecPhase := by
  cases ph <;> simp only [decWord, h] <;> rfl

theorem decode_decWord_eof (ph : DPhase) (t : ByteBeat) (h : beatEof t = true) :
    decode (decWord ph t) = match dPhaseReachable ph with
      | true => .ok (.decEof (beatData t))
      | false => .error .unreachableDecPhase := by
  cases ph <;> simp only [decWord, h] <;> rfl

/-- The instruction of an `enc_in` beat, by phase and kind (R81). -/
theorem decode_encWord (ph : EPhase) (t : GridBeat) :
    decode (encWord ph t) = match ph, beatKind t with
      | .unused3, _ => .error .unreachableEncPhase
      | _, .close => .ok (.encEnd (beatPayload t))
      | .idle, .hdr => .ok (.encHdr (payloadW (beatPayload t)) (payloadH (beatPayload t)))
      | .idle, k => .ok (.encViol k (beatPayload t))
      | .body, .hdr => .ok (.encViol .hdr (beatPayload t))
      | .body, .pix => .ok (.encPix (pixelOfWord (beatPayload t)))
      | .body, .pixl => .ok (.encPixl (pixelOfWord (beatPayload t)))
      | .drain, k => .ok (.encDrain k (beatPayload t)) := by
  cases ph <;> cases h : beatKind t <;> simp only [encWord, h] <;> rfl

/-! ### One unit's step -/

theorem stepUnit_dec_nil (s : State) (h : s.decIn = []) : stepUnit .dec s = .next s := by
  simp [stepUnit, State.fetch, h]

theorem stepUnit_enc_nil (s : State) (h : s.encIn = []) : stepUnit .enc s = .next s := by
  simp [stepUnit, State.fetch, h]

theorem take_dec_eq {s : State} {t : ByteBeat} {ts : List ByteBeat} (h : s.decIn = t :: ts) :
    s.take .dec = { s with decIn := ts } := by simp [State.take, h]

theorem take_enc_eq {s : State} {t : GridBeat} {ts : List GridBeat} (h : s.encIn = t :: ts) :
    s.take .enc = { s with encIn := ts } := by simp [State.take, h]

/-- `DEC` takes a byte by the operation its phase selects. -/
theorem stepUnit_dec_byte {s : State} {t : ByteBeat} {ts : List ByteBeat} (hin : s.decIn = t :: ts)
    (he : beatEof t = false) :
    stepUnit .dec s = s.settle .dec (decByte (beatData t) { s with decIn := ts }) := by
  simp only [stepUnit, State.fetch, hin, List.head?_cons, Option.map_some, decode_decWord_byte _ _ he,
    take_dec_eq hin]
  unfold decByte
  cases s.dec.phase <;> rfl

/-- `DEC` takes an `EOF`. -/
theorem stepUnit_dec_eof {s : State} {t : ByteBeat} {ts : List ByteBeat} (hin : s.decIn = t :: ts)
    (he : beatEof t = true) :
    stepUnit .dec s = s.settle .dec (execDecEof (beatData t) { s with decIn := ts }) := by
  simp only [stepUnit, State.fetch, hin, List.head?_cons, Option.map_some, decode_decWord_eof _ _ he,
    take_dec_eq hin]
  cases h : s.dec.phase <;> simp [dPhaseReachable, exec, execDecEof, decEofCode, h]

/-- The effect of a `dec_in` beat. -/
def decBeatEffect (t : ByteBeat) (c : Config) (d : DecRegs) : Option (DecRegs × List GridBeat) :=
  if beatEof t then eofEffect c d else byteEffect (beatData t) c d

/-- The effect of an `enc_in` beat, by phase and kind. -/
def encBeatEffect (t : GridBeat) (e : EncRegs) : Option (EncRegs × List ByteBeat) :=
  match e.phase, beatKind t with
  | .unused3, _ => none
  | _, .close => endEffect e
  | .idle, .hdr => hdrEffect (payloadW (beatPayload t)) (payloadH (beatPayload t)) e
  | .idle, _ => violEffect e
  | .body, .hdr => violEffect e
  | .body, .pix => pixEffect (pixelOfWord (beatPayload t)) e
  | .body, .pixl => pixlEffect (pixelOfWord (beatPayload t)) e
  | .drain, _ => some (e, [])

/-- `DEC`'s step is a function of the beat, its registers and the parameters, where its port has room. -/
theorem stepUnit_dec_cons {s : State} {t : ByteBeat} {ts : List ByteBeat} (hin : s.decIn = t :: ts) :
    stepUnit .dec s = s.settle .dec (applyDec { s with decIn := ts } (decBeatEffect t s.cfg s.dec)) := by
  unfold decBeatEffect
  cases he : beatEof t
  · rw [stepUnit_dec_byte hin he, decByte_eq]; rfl
  · rw [stepUnit_dec_eof hin he, execDecEof_eq]; rfl

/-- `ENC`'s step is a function of the beat and its registers, where its port has room. -/
theorem stepUnit_enc_cons {s : State} {t : GridBeat} {ts : List GridBeat} (hin : s.encIn = t :: ts) :
    stepUnit .enc s = s.settle .enc (applyEnc { s with encIn := ts } (encBeatEffect t s.enc)) := by
  simp only [stepUnit, State.fetch, hin, List.head?_cons, Option.map_some, decode_encWord, take_enc_eq hin]
  unfold encBeatEffect
  cases hp : s.enc.phase <;> cases hk : beatKind t <;>
    simp only [exec, execEncHdr_eq, execEncPix_eq, execEncPixl_eq, execEncEnd_eq, execEncViol_eq,
      execEncDrain_eq] <;> rfl

/-! ### What a unit's step leaves -/

/-- Everything `DEC`'s step can do: nothing, or take the oldest beat with the effect of that beat. -/
theorem stepUnit_dec_frame {s t : State} (h : stepUnit .dec s = .next t) :
    t = s ∨ ∃ b d beats, s.decIn = b :: t.decIn ∧ decBeatEffect b s.cfg s.dec = some (d, beats) ∧
      t = { s with decIn := t.decIn, dec := d, decOut := s.decOut ++ beats } := by
  cases hin : s.decIn with
  | nil => rw [stepUnit_dec_nil s hin] at h; cases h; exact .inl rfl
  | cons b bs =>
    rw [stepUnit_dec_cons hin] at h
    refine (settle_eq_next h).imp id fun h => ?_
    cases he : decBeatEffect b s.cfg s.dec with
    | none => rw [he] at h; cases h
    | some p => rw [he] at h; cases h; exact ⟨b, p.1, p.2, rfl, he, rfl⟩

/-- Everything `ENC`'s step can do. -/
theorem stepUnit_enc_frame {s t : State} (h : stepUnit .enc s = .next t) :
    t = s ∨ ∃ b e beats, s.encIn = b :: t.encIn ∧ encBeatEffect b s.enc = some (e, beats) ∧
      t = { s with encIn := t.encIn, enc := e, encOut := s.encOut ++ beats } := by
  cases hin : s.encIn with
  | nil => rw [stepUnit_enc_nil s hin] at h; cases h; exact .inl rfl
  | cons b bs =>
    rw [stepUnit_enc_cons hin] at h
    refine (settle_eq_next h).imp id fun h => ?_
    cases he : encBeatEffect b s.enc with
    | none => rw [he] at h; cases h
    | some p => rw [he] at h; cases h; exact ⟨b, p.1, p.2, rfl, he, rfl⟩

/-- With room, `DEC`'s step is the effect of its beat. -/
theorem stepUnit_dec_unbounded {s : State} {b : ByteBeat} {bs : List ByteBeat} (hin : s.decIn = b :: bs)
    (hcap : s.decOutCap = none) :
    stepUnit .dec s = applyDec { s with decIn := bs } (decBeatEffect b s.cfg s.dec) := by
  rw [stepUnit_dec_cons hin]
  cases decBeatEffect b s.cfg s.dec with
  | none => rfl
  | some p => simp [applyDec, settle_next, hcap]

/-- With room, `ENC`'s step is the effect of its beat. -/
theorem stepUnit_enc_unbounded {s : State} {b : GridBeat} {bs : List GridBeat} (hin : s.encIn = b :: bs)
    (hcap : s.encOutCap = none) :
    stepUnit .enc s = applyEnc { s with encIn := bs } (encBeatEffect b s.enc) := by
  rw [stepUnit_enc_cons hin]
  cases encBeatEffect b s.enc with
  | none => rfl
  | some p => simp [applyEnc, settle_next, hcap]

/-- No step writes the parameters, raises `rst` or moves a bound on a port. -/
theorem stepUnit_keeps {u : UnitId} {s t : State} (h : stepUnit u s = .next t) :
    t.cfg = s.cfg ∧ t.rst = s.rst ∧ t.decOutCap = s.decOutCap ∧ t.encOutCap = s.encOutCap ∧ t.arb = s.arb := by
  cases u with
  | dec =>
    rcases stepUnit_dec_frame h with rfl | ⟨_, _, _, _, _, ht⟩
    · simp
    · rw [ht]; simp
  | enc =>
    rcases stepUnit_enc_frame h with rfl | ⟨_, _, _, _, _, ht⟩
    · simp
    · rw [ht]; simp

/-! ### The block's step -/

theorem step_rst (s : State) (h : s.rst = true) : step s = .next s.resetEvent := by simp [step, h]

theorem ready_dec_nil {s : State} (h : s.decIn = []) : s.ready .dec = false := by simp [State.ready, State.fetch, h]

theorem ready_enc_nil {s : State} (h : s.encIn = []) : s.ready .enc = false := by simp [State.ready, State.fetch, h]

/-- A unit that cannot move keeps its state (R202, R218). -/
theorem stepUnit_not_ready {s : State} {u : UnitId} (h : s.ready u = false) : stepUnit u s = .next s := by
  unfold State.ready at h
  unfold stepUnit
  cases hf : s.fetch u with
  | none => rfl
  | some word =>
    rw [hf] at h
    cases hd : decode word with
    | error e => simp [hd] at h
    | ok i =>
      cases he : exec i (s.take u) with
      | next t => simp [hd, he] at h; simp [hd, he, settle_next, h]
      | fault r => simp [hd, he] at h
      | refused r => simp [hd, he] at h

/-- Where `ENC` cannot move, the step is `DEC`'s. -/
theorem step_enc_stopped {s : State} (h : s.rst = false) (he : s.ready .enc = false) : step s = stepUnit .dec s := by
  cases hd : s.ready .dec
  · simp [step, h, State.turn, hd, he, stepUnit_not_ready hd]
  · simp [step, h, State.turn, State.chosen, hd, he]

/-- Where `DEC` cannot move, the step is `ENC`'s. -/
theorem step_dec_stopped {s : State} (h : s.rst = false) (hd : s.ready .dec = false) : step s = stepUnit .enc s := by
  cases he : s.ready .enc
  · simp [step, h, State.turn, hd, he, stepUnit_not_ready he]
  · simp [step, h, State.turn, State.chosen, hd, he]

/-- Where both can move, one does, and the other is passed over. -/
theorem step_ready_both {s : State} (h : s.rst = false) (hd : s.ready .dec = true) (he : s.ready .enc = true) :
    step s = stepUnit s.arb.pick { s with arb := s.arb.moved s.arb.pick } := by
  simp [step, h, State.turn, State.chosen, hd, he]

theorem step_dec (s : State) (h : s.rst = false) (he : s.encIn = []) : step s = stepUnit .dec s :=
  step_enc_stopped h (ready_enc_nil he)

theorem step_enc (s : State) (h : s.rst = false) (hd : s.decIn = []) : step s = stepUnit .enc s :=
  step_dec_stopped h (ready_dec_nil hd)

theorem step_idle (s : State) (h : s.rst = false) (hd : s.decIn = []) (he : s.encIn = []) : step s = .next s := by
  rw [step_dec s h he, stepUnit_dec_nil s hd]

/-- Everything a step can be: a reset event, or one unit's step on the same state but for what is kept of a choice. -/
theorem step_cases (s : State) :
    s.rst = true ∧ step s = .next s.resetEvent ∨
    s.rst = false ∧ ∃ u a, step s = stepUnit u { s with arb := a } := by
  by_cases h : s.rst = true
  · exact .inl ⟨h, step_rst s h⟩
  · have h : s.rst = false := by simpa using h
    refine .inr ⟨h, ?_⟩
    cases hd : s.ready .dec
    · exact ⟨.enc, s.arb, step_dec_stopped h hd⟩
    · cases he : s.ready .enc
      · exact ⟨.dec, s.arb, step_enc_stopped h he⟩
      · exact ⟨_, _, step_ready_both h hd he⟩

/-! ### The choice between the units -/

/-- A unit passed over as often as it may be is the next to move. -/
theorem Arbiter.pick_passed {a : Arbiter} {u : UnitId} (h : a.passed = some (u, 0)) : a.pick = u := by
  simp [Arbiter.pick, h]

/-- A unit passed over again may be passed over one time less. -/
theorem Arbiter.moved_passed {a : Arbiter} {u v : UnitId} {k : Nat} (h : a.passed = some (u, k)) (hv : v ≠ u) :
    (a.moved v).passed = some (u, k - 1) := by
  simp [Arbiter.moved, h, hv]

/-- After a choice some unit is the one passed over: the other one, or the one that was and is again. -/
theorem Arbiter.moved_passes (a : Arbiter) (v : UnitId) : ∃ k, (a.moved v).passed = some (v.other, k) := by
  unfold Arbiter.moved
  cases h : a.passed with
  | none => exact ⟨_, rfl⟩
  | some p =>
    obtain ⟨u, k⟩ := p
    by_cases hv : v = u
    · exact ⟨_, by simp [hv]; rfl⟩
    · refine ⟨k - 1, ?_⟩
      cases u <;> cases v <;> simp_all [UnitId.other]

end Sys2Proof.Machine
end

