-- ==== Sys2Proof/Laws/Run.lean ====
section
/-! SUPPORT. Runs in which one unit alone has beats: the effects of its beats, one after another. -/

namespace Sys2Proof.Machine

theorem run_zero (s : State) : run 0 s = .next s := rfl

theorem run_succ (n : Nat) (s : State) : run (n + 1) s = andThen (step s) (run n) := rfl

theorem run_add (m n : Nat) (s : State) : run (m + n) s = andThen (run m s) (run n) := by
  induction m generalizing s with
  | zero => simp [run_zero]
  | succ m ih =>
    rw [Nat.add_right_comm, run_succ, run_succ, andThen_assoc]
    congr 1
    funext t
    exact ih t

/-- The effect of several `dec_in` beats. -/
def decBeatsEffect : List ByteBeat → Config → DecRegs → Option (DecRegs × List GridBeat)
  | [], _, d => some (d, [])
  | b :: bs, c, d =>
    (decBeatEffect b c d).bind fun p => (decBeatsEffect bs c p.1).map fun q => (q.1, p.2 ++ q.2)

/-- The effect of several `enc_in` beats. -/
def encBeatsEffect : List GridBeat → EncRegs → Option (EncRegs × List ByteBeat)
  | [], e => some (e, [])
  | b :: bs, e => (encBeatEffect b e).bind fun p => (encBeatsEffect bs p.1).map fun q => (q.1, p.2 ++ q.2)

/-- A run over beats on `dec_in` alone. -/
theorem run_dec (beats rest : List ByteBeat) (s : State) (hr : s.rst = false) (he : s.encIn = [])
    (hcap : s.decOutCap = none) (hin : s.decIn = beats ++ rest) :
    run beats.length s = applyDec { s with decIn := rest } (decBeatsEffect beats s.cfg s.dec) := by
  induction beats generalizing s with
  | nil =>
    simp only [List.nil_append] at hin
    simp [run_zero, decBeatsEffect, applyDec, ← hin]
  | cons b bs ih =>
    rw [List.cons_append] at hin
    rw [List.length_cons, run_succ, step_dec s hr he, stepUnit_dec_unbounded hin hcap]
    simp only [decBeatsEffect]
    cases decBeatEffect b s.cfg s.dec with
    | none => rfl
    | some p =>
      simp only [applyDec, andThen_next, Option.bind_some]
      rw [ih { s with dec := p.1, decIn := bs ++ rest, decOut := s.decOut ++ p.2 } hr he hcap rfl]
      cases decBeatsEffect bs s.cfg p.1 <;> simp [applyDec]

/-- A run over beats on `enc_in` alone. -/
theorem run_enc (beats rest : List GridBeat) (s : State) (hr : s.rst = false) (hd : s.decIn = [])
    (hcap : s.encOutCap = none) (hin : s.encIn = beats ++ rest) :
    run beats.length s = applyEnc { s with encIn := rest } (encBeatsEffect beats s.enc) := by
  induction beats generalizing s with
  | nil =>
    simp only [List.nil_append] at hin
    simp [run_zero, encBeatsEffect, applyEnc, ← hin]
  | cons b bs ih =>
    rw [List.cons_append] at hin
    rw [List.length_cons, run_succ, step_enc s hr hd, stepUnit_enc_unbounded hin hcap]
    simp only [encBeatsEffect]
    cases encBeatEffect b s.enc with
    | none => rfl
    | some p =>
      simp only [applyEnc, andThen_next, Option.bind_some]
      rw [ih { s with enc := p.1, encIn := bs ++ rest, encOut := s.encOut ++ p.2 } hr hd hcap rfl]
      cases encBeatsEffect bs p.1 <;> simp [applyEnc]

/-- The bytes of a frame have the effect the byte operations have one after another. -/
theorem decBeatsEffect_bytes (bs : List Byte) (c : Config) (d : DecRegs) :
    decBeatsEffect (bs.map (byteBeat false)) c d = bytesEffect bs c d := by
  induction bs generalizing d with
  | nil => rfl
  | cons b bs ih => simp [decBeatsEffect, bytesEffect, decBeatEffect, ih]

/-- Beats before and after. -/
theorem decBeatsEffect_append (xs ys : List ByteBeat) (c : Config) (d : DecRegs) :
    decBeatsEffect (xs ++ ys) c d =
      (decBeatsEffect xs c d).bind fun p => (decBeatsEffect ys c p.1).map fun q => (q.1, p.2 ++ q.2) := by
  induction xs generalizing d with
  | nil => simp [decBeatsEffect]
  | cons b bs ih =>
    simp only [List.cons_append, decBeatsEffect, ih]
    cases decBeatEffect b c d with
    | none => rfl
    | some p =>
      simp only [Option.bind_some]
      cases decBeatsEffect bs c p.1 with
      | none => rfl
      | some q => cases h : decBeatsEffect ys c q.1 <;> simp [h]

theorem encBeatsEffect_append (xs ys : List GridBeat) (e : EncRegs) :
    encBeatsEffect (xs ++ ys) e =
      (encBeatsEffect xs e).bind fun p => (encBeatsEffect ys p.1).map fun q => (q.1, p.2 ++ q.2) := by
  induction xs generalizing e with
  | nil => simp [encBeatsEffect]
  | cons b bs ih =>
    simp only [List.cons_append, encBeatsEffect, ih]
    cases encBeatEffect b e with
    | none => rfl
    | some p =>
      simp only [Option.bind_some]
      cases encBeatsEffect bs p.1 with
      | none => rfl
      | some q => cases h : encBeatsEffect ys q.1 <;> simp [h]

end Sys2Proof.Machine
end

