-- ==== Sys2Proof/Laws/Environment.lean ====
section
/-! SUPPORT. What the host's acts change, and the frames on a byte port. -/

namespace Sys2Proof.Machine

/-! ### Acts -/

variable (s : State)

@[simp] theorem State.act_cfg (a : HostAct) : (s.act a).cfg = s.cfg := by cases a <;> rfl
@[simp] theorem State.act_dec (a : HostAct) : (s.act a).dec = s.dec := by cases a <;> rfl
@[simp] theorem State.act_enc (a : HostAct) : (s.act a).enc = s.enc := by cases a <;> rfl
@[simp] theorem State.act_decOutCap (a : HostAct) : (s.act a).decOutCap = s.decOutCap := by cases a <;> rfl
@[simp] theorem State.act_encOutCap (a : HostAct) : (s.act a).encOutCap = s.encOutCap := by cases a <;> rfl
@[simp] theorem State.act_arb (a : HostAct) : (s.act a).arb = s.arb := by cases a <;> rfl

theorem State.act_decIn (a : HostAct) : (s.act a).decIn = s.decIn ++ a.decBeats := by
  cases a <;> simp [State.act, HostAct.decBeats, State.offerDec, State.offerEnc, State.sinkDec, State.sinkEnc,
    State.raiseReset]

theorem State.act_encIn (a : HostAct) : (s.act a).encIn = s.encIn ++ a.encBeats := by
  cases a <;> simp [State.act, HostAct.encBeats, State.offerDec, State.offerEnc, State.sinkDec, State.sinkEnc,
    State.raiseReset]

/-- An act takes beats off an output port and puts none on it. -/
theorem State.act_decOut_length (a : HostAct) : (s.act a).decOut.length ≤ s.decOut.length := by
  cases a <;> simp [State.act, State.offerDec, State.offerEnc, State.sinkDec, State.sinkEnc, State.raiseReset]

theorem State.act_encOut_length (a : HostAct) : (s.act a).encOut.length ≤ s.encOut.length := by
  cases a <;> simp [State.act, State.offerDec, State.offerEnc, State.sinkDec, State.sinkEnc, State.raiseReset]

theorem State.act_rst {a : HostAct} (h : a ≠ .reset) : (s.act a).rst = s.rst := by
  cases a <;> first | rfl | exact absurd rfl h

theorem State.acts_nil : s.acts [] = s := rfl

theorem State.acts_cons (a : HostAct) (as : List HostAct) : s.acts (a :: as) = (s.act a).acts as := rfl

/-- What several acts leave: the registers, the parameters, the bounds and the choices as they were. -/
theorem State.acts_keeps (as : List HostAct) :
    (s.acts as).cfg = s.cfg ∧ (s.acts as).dec = s.dec ∧ (s.acts as).enc = s.enc ∧
    (s.acts as).decOutCap = s.decOutCap ∧ (s.acts as).encOutCap = s.encOutCap ∧ (s.acts as).arb = s.arb := by
  induction as generalizing s with
  | nil => simp [State.acts_nil]
  | cons a as ih => rw [State.acts_cons]; simpa using ih (s.act a)

/-- What several acts put on the input ports. -/
theorem State.acts_inputs (as : List HostAct) :
    (s.acts as).decIn = s.decIn ++ as.flatMap HostAct.decBeats ∧
    (s.acts as).encIn = s.encIn ++ as.flatMap HostAct.encBeats := by
  induction as generalizing s with
  | nil => simp [State.acts_nil]
  | cons a as ih =>
    rw [State.acts_cons, (ih _).1, (ih _).2, State.act_decIn, State.act_encIn]
    simp [List.append_assoc]

theorem State.acts_rst {as : List HostAct} (h : HostAct.reset ∉ as) : (s.acts as).rst = s.rst := by
  induction as generalizing s with
  | nil => rfl
  | cons a as ih =>
    rw [State.acts_cons, ih _ (fun ha => h (List.mem_cons_of_mem _ ha)),
      State.act_rst s (fun ha => h (ha ▸ List.mem_cons_self))]

theorem rounds_zero (env : Nat → List HostAct) : rounds env 0 s = .next s := rfl

theorem rounds_succ (env : Nat → List HostAct) (n : Nat) :
    rounds env (n + 1) s = andThen (rounds env n s) fun t => step (t.acts (env n)) := rfl

theorem decOffers_succ (env : Nat → List HostAct) (n : Nat) :
    decOffers env (n + 1) = decOffers env n ++ (env n).flatMap HostAct.decBeats := by
  simp [decOffers, List.range_succ]

theorem encOffers_succ (env : Nat → List HostAct) (n : Nat) :
    encOffers env (n + 1) = encOffers env n ++ (env n).flatMap HostAct.encBeats := by
  simp [encOffers, List.range_succ]

/-! ### One frame's tokens -/

theorem tokByte_frame (o : List Byte) : o.mapM (tokByte ∘ ByteTok.byte) = some o := by
  induction o with
  | nil => rfl
  | cons b o ih => simp [tokByte, ih]

/-- Bytes closed by an `EOF` are one frame. -/
theorem encFrameToks_frame (o : List Byte) (c : BitVec 4) :
    encFrameToks (o.map ByteTok.byte ++ [.eof c]) = some (o, c) := by
  simp [encFrameToks, tokByte_frame]

/-- A `STAT` alone is one frame. -/
theorem decFrameToks_stat (c : BitVec 4) : decFrameToks [.stat c] = some (none, [], c) := rfl

/-- A `HDR`, tokens that carry pixels, and a `STAT` are one frame. -/
theorem decFrameToks_frame (w h : BitVec 32) (toks : List GridTok) (q : List Pixel) (c : BitVec 4)
    (hq : toks.mapM tokPixel = some q) :
    decFrameToks (.hdr w h :: (toks ++ [.stat c])) = some (some (w, h), q, c) := by
  simp [decFrameToks, hq]

/-- The beats of a closed frame are set apart from what follows. -/
theorem closedFrames_frame (held : List ByteBeat) (o : List Byte) (t : ByteBeat) (rest : List ByteBeat)
    (ht : beatEof t = true) :
    closedFrames held (o.map (byteBeat false) ++ t :: rest) =
      (held ++ o.map (byteBeat false) ++ [t]) :: closedFrames [] rest := by
  induction o generalizing held with
  | nil => simp [closedFrames, ht]
  | cons b o ih => simp [closedFrames, ih]

end Sys2Proof.Machine
end

