-- ==== Sys2Proof/Laws/PerInstr.lean ====
section
/-! SUPPORT. One lemma per constructor: the word an instruction encodes to belongs to a row of spec/opcode_table.json that
bears its mnemonic (R70, R71, R80, R81, R88). -/

namespace Sys2Proof.Laws.EncodesToOwnRow

open Sys2Proof Sys2Proof.Machine

/-- Where the table puts a wire field: its byte offset in the frame and its size in bytes (R70, R71). -/
def fieldPlace : List (String × Nat × Nat) := [
  ("HDR.magic", 0, 8), ("HDR.width", 8, 4), ("HDR.height", 12, 4),
  ("PIXEL.R", 16, 2), ("PIXEL.G", 18, 2), ("PIXEL.B", 20, 2), ("PIXEL.A", 22, 2)]

/-- The word is one of a row of this mnemonic. -/
def rowOf (mnemonic : String) : OpWord → Prop
  | .dec sel _ => ∃ r ∈ decSelRows, r.mnemonic = mnemonic ∧ selRowCovers r sel = true
  | .enc sel _ => ∃ r ∈ encSelRows, r.mnemonic = mnemonic ∧ selRowCovers r sel = true
  | .wire off bytes => (mnemonic, off, bytes.length) ∈ fieldPlace

/-- A well-formed instruction encodes to a word of a row of its mnemonic. -/
def Statement (i : Instr) : Prop := i.wellFormed = true → rowOf i.mnemonic (encode i)

theorem hdrMagic (m : BitVec 64) : Statement (.hdrMagic m) := fun _ => by
  simp [rowOf, encode, fieldPlace, Instr.mnemonic, beBytes_length]

theorem hdrWidth (w : BitVec 32) : Statement (.hdrWidth w) := fun _ => by
  simp [rowOf, encode, fieldPlace, Instr.mnemonic, beBytes_length]

theorem hdrHeight (h : BitVec 32) : Statement (.hdrHeight h) := fun _ => by
  simp [rowOf, encode, fieldPlace, Instr.mnemonic, beBytes_length]

theorem pixelR (v : BitVec 16) : Statement (.pixelR v) := fun _ => by
  simp [rowOf, encode, fieldPlace, Instr.mnemonic, beBytes_length]

theorem pixelG (v : BitVec 16) : Statement (.pixelG v) := fun _ => by
  simp [rowOf, encode, fieldPlace, Instr.mnemonic, beBytes_length]

theorem pixelB (v : BitVec 16) : Statement (.pixelB v) := fun _ => by
  simp [rowOf, encode, fieldPlace, Instr.mnemonic, beBytes_length]

theorem pixelA (v : BitVec 16) : Statement (.pixelA v) := fun _ => by
  simp [rowOf, encode, fieldPlace, Instr.mnemonic, beBytes_length]

theorem decMagic (b : Byte) : Statement (.decMagic b) := fun _ =>
  ⟨⟨"DEC.MAGIC", .decSel, 0x0, 0xF⟩, by decide, rfl, by decide⟩

theorem decWidth (b : Byte) : Statement (.decWidth b) := fun _ =>
  ⟨⟨"DEC.WIDTH", .decSel, 0x2, 0xF⟩, by decide, rfl, by decide⟩

theorem decHeight (b : Byte) : Statement (.decHeight b) := fun _ =>
  ⟨⟨"DEC.HEIGHT", .decSel, 0x4, 0xF⟩, by decide, rfl, by decide⟩

theorem decPay (b : Byte) : Statement (.decPay b) := fun _ =>
  ⟨⟨"DEC.PAY", .decSel, 0x6, 0xF⟩, by decide, rfl, by decide⟩

theorem decDrain (b : Byte) : Statement (.decDrain b) := fun _ =>
  ⟨⟨"DEC.DRAIN", .decSel, 0x8, 0xF⟩, by decide, rfl, by decide⟩

theorem decEof (data : Byte) : Statement (.decEof data) := fun _ =>
  ⟨⟨"DEC.EOF", .decSel, 0x1, 0x1⟩, by decide, rfl, by decide⟩

theorem encHdr (w h : BitVec 32) : Statement (.encHdr w h) := fun _ =>
  ⟨⟨"ENC.HDR", .encSel, 0x0, 0xF⟩, by decide, rfl, by decide⟩

theorem encPix (p : Pixel) : Statement (.encPix p) := fun _ =>
  ⟨⟨"ENC.PIX", .encSel, 0x5, 0xF⟩, by decide, rfl, by decide⟩

theorem encPixl (p : Pixel) : Statement (.encPixl p) := fun _ =>
  ⟨⟨"ENC.PIXL", .encSel, 0x6, 0xF⟩, by decide, rfl, by decide⟩

theorem encEnd (payload : BitVec 64) : Statement (.encEnd payload) := fun _ =>
  ⟨⟨"ENC.END", .encSel, 0x3, 0xF⟩, by decide, rfl, by decide⟩

theorem encDrain (k : GridKind) (payload : BitVec 64) : Statement (.encDrain k payload) := fun h => by
  cases k with
  | hdr => exact ⟨⟨"ENC.DRAIN", .encSel, 0x8, 0xF⟩, by decide, rfl, by decide⟩
  | pix => exact ⟨⟨"ENC.DRAIN", .encSel, 0x9, 0xF⟩, by decide, rfl, by decide⟩
  | pixl => exact ⟨⟨"ENC.DRAIN", .encSel, 0xA, 0xF⟩, by decide, rfl, by decide⟩
  | close => cases h

theorem encViol (k : GridKind) (payload : BitVec 64) : Statement (.encViol k payload) := fun h => by
  cases k with
  | hdr => exact ⟨⟨"ENC.VIOL", .encSel, 0x4, 0xF⟩, by decide, rfl, by decide⟩
  | pix => exact ⟨⟨"ENC.VIOL", .encSel, 0x1, 0xF⟩, by decide, rfl, by decide⟩
  | pixl => exact ⟨⟨"ENC.VIOL", .encSel, 0x2, 0xF⟩, by decide, rfl, by decide⟩
  | close => cases h

end Sys2Proof.Laws.EncodesToOwnRow
end

