-- ==== Sys2Proof/Tests/Slice0.lean ====
section
/-! SUPPORT. Tests: each expected result is a row of spec/95_test_vectors.md (its number in the comment) or is worked out
by hand from the rule cited. Then, for every statement with hypotheses, a state and operands that meet them. -/

namespace Sys2Proof.Tests

open Sys2Proof Sys2Proof.Machine

/-! ### Ill-formed terms, each refused by its check -/

/-- `FARBFELD` is not the magic (R82). -/
theorem test_ill_formed_magic : (Instr.hdrMagic 0x4641524246454C44#64).wellFormed = false := by decide

theorem test_ill_formed_drain : (Instr.encDrain .close 0).wellFormed = false := by decide

theorem test_ill_formed_viol : (Instr.encViol .close 0).wellFormed = false := by decide

/-! ### Decoding: one word for each constructor, from the tables of R70, R71, R80, R81 -/

theorem test_decode_hdrMagic :
    decode (.wire 0 [0x66, 0x61, 0x72, 0x62, 0x66, 0x65, 0x6C, 0x64]) = .ok (.hdrMagic 0x6661726266656C64#64) := by rfl

theorem test_decode_hdrWidth : decode (.wire 8 [0xFF, 0x00, 0x00, 0x01]) = .ok (.hdrWidth 0xFF000001#32) := by rfl

theorem test_decode_hdrHeight : decode (.wire 12 [0x00, 0x00, 0x01, 0x00]) = .ok (.hdrHeight 256#32) := by rfl

theorem test_decode_pixelR : decode (.wire 16 [0x02, 0x03]) = .ok (.pixelR 515#16) := by rfl

/-- The second pixel's `G` is at offset 26 (R51). -/
theorem test_decode_pixelG : decode (.wire 26 [0x80, 0x00]) = .ok (.pixelG 32768#16) := by rfl

theorem test_decode_pixelB : decode (.wire 20 [0x00, 0x80]) = .ok (.pixelB 128#16) := by rfl

theorem test_decode_pixelA : decode (.wire 22 [0x12, 0x34]) = .ok (.pixelA 4660#16) := by rfl

theorem test_decode_no_field : decode (.wire 17 [0x12, 0x34]) = .error .notAField := by rfl

theorem test_decode_decMagic : decode (.dec 0b0000#4 0x66#8) = .ok (.decMagic 0x66#8) := by rfl

theorem test_decode_decWidth : decode (.dec 0b0010#4 0x01#8) = .ok (.decWidth 0x01#8) := by rfl

theorem test_decode_decHeight : decode (.dec 0b0100#4 0x02#8) = .ok (.decHeight 0x02#8) := by rfl

theorem test_decode_decPay : decode (.dec 0b0110#4 0x03#8) = .ok (.decPay 0x03#8) := by rfl

theorem test_decode_decDrain : decode (.dec 0b1000#4 0x04#8) = .ok (.decDrain 0x04#8) := by rfl

theorem test_decode_decEof : decode (.dec 0b1001#4 0xFF#8) = .ok (.decEof 0xFF#8) := by rfl

theorem test_decode_unreachable_dec : decode (.dec 0b1010#4 0#8) = .error .unreachableDecPhase := by rfl

theorem test_decode_encHdr : decode (.enc 0b0000#4 0x0000000500000000#64) = .ok (.encHdr 5 0) := by rfl

theorem test_decode_encPix :
    decode (.enc 0b0101#4 0xFFFF000080001234#64) = .ok (.encPix ⟨0xFFFF, 0, 0x8000, 0x1234⟩) := by rfl

theorem test_decode_encPixl :
    decode (.enc 0b0110#4 0x0005000600070008#64) = .ok (.encPixl ⟨5, 6, 7, 8⟩) := by rfl

theorem test_decode_encEnd : decode (.enc 0b0111#4 0#64) = .ok (.encEnd 0) := by rfl

theorem test_decode_encDrain : decode (.enc 0b1000#4 1#64) = .ok (.encDrain .hdr 1) := by rfl

theorem test_decode_encViol : decode (.enc 0b0100#4 1#64) = .ok (.encViol .hdr 1) := by rfl

theorem test_decode_unreachable_enc : decode (.enc 0b1100#4 0#64) = .error .unreachableEncPhase := by rfl

/-! ### The words the host numbers, and where `withFetchWord` puts them -/

theorem test_table_word_pay : decodeTableWord 8 0x6 = some (.decPay 0) := by rfl

theorem test_table_word_pixl : decodeTableWord 8 0x6 ≠ some (.encPixl ⟨0, 0, 0, 0⟩) := by decide

theorem test_table_word_magic :
    decodeTableWord 128 0x6661726266656C640000000000000000 = some (.hdrMagic 0x6661726266656C64#64) := by rfl

theorem test_table_word_alpha : decodeTableWord 64 0x1234 = some (.pixelA 0x1234#16) := by rfl

/-- The word set where `step` fetches next is the one it fetches. -/
theorem test_fetch_word : (State.reset.withFetchWord 8 0x4).fetch .dec = some (tableWord 8 0x4) := by rfl

/-! ### One step -/

/-- `DEC` alone with one beat on its port. -/
def decAt (d : DecRegs) (b : ByteBeat) : State := { State.reset with dec := d, decIn := [b] }

/-- `ENC` alone with one beat on its port. -/
def encAt (e : EncRegs) (b : GridBeat) : State := { State.reset with enc := e, encIn := [b] }

/-- What a step of `DEC` leaves in its registers and on its port. -/
def decStep (d : DecRegs) (b : ByteBeat) : Option (DecRegs × List GridBeat) :=
  match step (decAt d b) with
  | .next t => some (t.dec, t.decOut)
  | _ => none

/-- What a step of `ENC` leaves. -/
def encStep (e : EncRegs) (b : GridBeat) : Option (EncRegs × List ByteBeat) :=
  match step (encAt e b) with
  | .next t => some (t.enc, t.encOut)
  | _ => none

/-- A `BYTE`. -/
def by8 (b : Byte) : ByteBeat := byteBeat false b

/-- V41. -/
theorem test_magic_last : decStep ⟨.magic, 7, 0, 0, 0, 0, 0, 0⟩ (by8 0x64) =
    some (⟨.width, 0, 0, 0, 0, 0, 0, 0⟩, []) := by rfl

/-- V43. -/
theorem test_magic_wrong : decStep ⟨.magic, 4, 0, 0, 0, 0, 0, 0⟩ (by8 0x61) =
    some (⟨.drain, 4, 1, 0, 0, 0, 0, 0⟩, []) := by rfl

/-- V44. -/
theorem test_width_middle : decStep ⟨.width, 2, 0, 1, 0, 0, 0, 0⟩ (by8 0x02) =
    some (⟨.width, 3, 0, 258, 0, 0, 0, 0⟩, []) := by rfl

/-- V46. -/
theorem test_width_last : decStep ⟨.width, 3, 0, 16777215, 0, 0, 0, 0⟩ (by8 0xFF) =
    some (⟨.height, 0, 0, 4294967295, 0, 0, 0, 0⟩, []) := by rfl

/-- V47. -/
theorem test_height_accepted : decStep ⟨.height, 3, 0, 2, 0, 0, 0, 0⟩ (by8 0x02) =
    some (⟨.pay, 0, 0, 2, 2, 32, 0, 0⟩, [0x00000000200000002#66]) := by rfl

/-- V49. -/
theorem test_height_too_large : decStep ⟨.height, 3, 0, 2147483648, 4194304, 0, 0, 0⟩ (by8 0x00) =
    some (⟨.drain, 0, 3, 2147483648, 1073741824, 0, 0, 0⟩, []) := by rfl

/-- V51. -/
theorem test_pay_last_column : decStep ⟨.pay, 7, 0, 2, 2, 17, 0x0400050006000700, 1⟩ (by8 0x08) =
    some (⟨.pay, 0, 0, 2, 2, 16, 0x0005000600070008, 0⟩, [0x20005000600070008#66]) := by rfl

/-- V53. -/
theorem test_pay_trailing : decStep ⟨.pay, 0, 0, 2, 2, 0, 0x000D000E000F0010, 0⟩ (by8 0xAA) =
    some (⟨.drain, 0, 5, 2, 2, 0, 0x000D000E000F0010, 0⟩, []) := by rfl

/-- V55. -/
theorem test_drain : decStep ⟨.drain, 7, 1, 0, 0, 0, 0, 0⟩ (by8 0x00) =
    some (⟨.drain, 7, 1, 0, 0, 0, 0, 0⟩, []) := by rfl

/-- V58. -/
theorem test_eof_truncated : decStep ⟨.pay, 1, 0, 1, 2, 7, 0xFF00008000123400, 0⟩ 0x100#9 =
    some (DecRegs.reset, [0x30000000000000004#66]) := by rfl

/-- V60. -/
theorem test_eof_ignores_data : decStep ⟨.magic, 7, 0, 0, 0, 0, 0, 0⟩ 0x1FF#9 =
    some (DecRegs.reset, [0x30000000000000001#66]) := by rfl

/-- V72. -/
theorem test_hdr_largest : encStep ⟨.idle, 0, 0, 0, 0, 0⟩ 0x0FFFFFFFFFFFFFFFF#66 =
    some (⟨.body, 0, 4294967295, 4294967295, 18446744065119617025, 0⟩,
      [0x66, 0x61, 0x72, 0x62, 0x66, 0x65, 0x6C, 0x64, 0xFF, 0xFF, 0xFF, 0xFF, 0xFF, 0xFF, 0xFF, 0xFF]) := by rfl

/-- V73. -/
theorem test_pix : encStep ⟨.body, 0, 2, 2, 4, 0⟩ 0x10001000200030004#66 =
    some (⟨.body, 0, 2, 2, 3, 1⟩, [0, 1, 0, 2, 0, 3, 0, 4]) := by rfl

/-- V77. -/
theorem test_pix_where_pixl_was_due : encStep ⟨.body, 0, 2, 2, 3, 1⟩ 0x10005000600070008#66 =
    some (⟨.drain, 6, 2, 2, 3, 1⟩, []) := by rfl

/-- V75. -/
theorem test_pixl : encStep ⟨.body, 0, 1, 1, 1, 0⟩ 0x2FFFF000080001234#66 =
    some (⟨.body, 0, 1, 1, 0, 0⟩, [0xFF, 0xFF, 0, 0, 0x80, 0, 0x12, 0x34]) := by rfl

/-- V80. -/
theorem test_pixl_of_no_column : encStep ⟨.body, 0, 0, 2, 0, 0⟩ 0x20001000200030004#66 =
    some (⟨.drain, 6, 0, 2, 0, 0⟩, []) := by rfl

/-- V82. -/
theorem test_end_early : encStep ⟨.body, 0, 2, 2, 2, 0⟩ 0x30000000000000000#66 =
    some (EncRegs.reset, [0x106#9]) := by rfl

/-- V88. -/
theorem test_end_ignores_payload : encStep ⟨.body, 0, 2, 2, 0, 0⟩ 0x3FFFFFFFFFFFFFFFF#66 =
    some (EncRegs.reset, [0x100#9]) := by rfl

/-- V87. -/
theorem test_drain_ignores_hdr : encStep ⟨.drain, 8, 0, 0, 0, 0⟩ 0x00000000100000001#66 =
    some (⟨.drain, 8, 0, 0, 0, 0⟩, []) := by rfl

/-- V86. -/
theorem test_viol_second_header : encStep ⟨.body, 0, 1, 1, 1, 0⟩ 0x00000000200000002#66 =
    some (⟨.drain, 8, 1, 1, 1, 0⟩, []) := by rfl

/-- V85. -/
theorem test_viol_no_header : encStep ⟨.idle, 0, 0, 0, 0, 0⟩ 0x10001000100010001#66 =
    some (⟨.drain, 8, 0, 0, 0, 0⟩, []) := by rfl

/-- What a wire field leaves in `DEC`, started in these registers. -/
def fieldStep (i : Instr) (d : DecRegs) : Option (DecRegs × List GridBeat) :=
  match exec i { State.reset with dec := d } with
  | .next t => some (t.dec, t.decOut)
  | _ => none

/-- R101: the eight bytes of the magic leave `D_WIDTH`. -/
theorem test_field_magic : fieldStep (.hdrMagic 0x6661726266656C64#64) DecRegs.reset =
    some (⟨.width, 0, 0, 0, 0, 0, 0, 0⟩, []) := by rfl

/-- R102's example: the bytes `00 00 01 02`. -/
theorem test_field_width : fieldStep (.hdrWidth 258) ⟨.width, 0, 0, 0, 0, 0, 0, 0⟩ =
    some (⟨.height, 0, 0, 258, 0, 0, 0, 0⟩, []) := by rfl

/-- The header of V17. -/
theorem test_field_height : fieldStep (.hdrHeight 0) ⟨.height, 0, 0, 5, 0, 0, 0, 0⟩ =
    some (⟨.pay, 0, 0, 5, 0, 0, 0, 0⟩, [0x00000000500000000#66]) := by rfl

/-- The bytes of the pixel of V29, channel by channel. -/
theorem test_field_r : fieldStep (.pixelR 0xFFFF) ⟨.pay, 0, 0, 1, 1, 8, 0, 0⟩ =
    some (⟨.pay, 2, 0, 1, 1, 6, 0xFFFF, 0⟩, []) := by rfl

theorem test_field_g : fieldStep (.pixelG 0) ⟨.pay, 2, 0, 1, 1, 6, 0xFFFF, 0⟩ =
    some (⟨.pay, 4, 0, 1, 1, 4, 0xFFFF0000, 0⟩, []) := by rfl

theorem test_field_b : fieldStep (.pixelB 0x8000) ⟨.pay, 4, 0, 1, 1, 4, 0xFFFF0000, 0⟩ =
    some (⟨.pay, 6, 0, 1, 1, 2, 0xFFFF00008000, 0⟩, []) := by rfl

theorem test_field_a : fieldStep (.pixelA 0x1234) ⟨.pay, 6, 0, 1, 1, 2, 0xFFFF00008000, 0⟩ =
    some (⟨.pay, 0, 0, 1, 1, 0, 0xFFFF000080001234, 0⟩, [0x2FFFF000080001234#66]) := by rfl

/-- R210: a reset event takes no beat. -/
theorem test_reset_event : step { decAt ⟨.pay, 3, 0, 2, 2, 29, 256, 0⟩ (by8 2) with rst := true } =
    .next State.reset := by rfl

/-- V7: three empty rows. -/
theorem test_decode_no_columns :
    decodeFrame Config.default (magicBytes ++ [0, 0, 0, 0, 0, 0, 0, 3]) = .ok [[], [], []] := by decide

/-- V8. -/
theorem test_encode_irregular :
    encodeFrame [[⟨1, 2, 3, 4⟩, ⟨5, 6, 7, 8⟩], [⟨9, 10, 11, 12⟩]] = .error .irregularGrid := by rfl

/-- R162: a channel is never cut to 16 bits (C4). -/
theorem test_encode_channel : encodeFrame [[⟨1, 2, 3, 65536⟩]] = .error .invalidChannelValue := by decide

/-! ### Witnesses: what each statement assumes can hold -/

theorem witness_DecodeOfEncode :
    (Instr.hdrMagic magic64).wellFormed = true ∧ (Instr.encDrain .pixl 0).wellFormed = true ∧
    (Instr.encViol .hdr 0).wellFormed = true := by decide

theorem witness_DecodedWord :
    decode (.dec 0x9 0) = .ok (.decEof 0) ∧ decode (.enc 0xB 0) = .ok (.encEnd 0) ∧
    decode (.wire 8 [0, 0, 0, 1]) = .ok (.hdrWidth 1) := ⟨rfl, rfl, rfl⟩

theorem witness_Selectors :
    (decAt DecRegs.reset (by8 0)).decIn = by8 0 :: [] ∧ (encAt EncRegs.reset 0).encIn = 0 :: [] ∧
    (9#4).toNat ≤ 9 ∧ (11#4).toNat ≤ 11 := by decide

/-- Both units have a beat. -/
def bothAt (b : ByteBeat) (g : GridBeat) : State := { State.reset with decIn := [b], encIn := [g] }

theorem witness_StepRuns_dec : ∃ t, decode (decWord .magic (by8 0x66)) = .ok (.decMagic 0x66) ∧
    exec (.decMagic 0x66) { decAt DecRegs.reset (by8 0x66) with decIn := [] } = .next t ∧
    (decAt DecRegs.reset (by8 0x66)).decOutCap = none := ⟨_, rfl, rfl, rfl⟩

/-- An `EOF` whose status beat just fits the port, and a header that fits a port of any bound if it is empty. -/
theorem witness_StepRuns_bounded : ∃ t u,
    exec (.decEof 0) { decAt DecRegs.reset (byteBeat true 0) with decIn := [], decOutCap := some 2, decOut := [0] } =
      .next t ∧ canTake (some 2) 1 1 t.decOut.length ∧
    exec (.encHdr 0 0) { encAt EncRegs.reset (gridBeat .hdr 0) with encIn := [], encOutCap := some 0 } = .next u ∧
    canTake (some 0) 16 0 u.encOut.length :=
  ⟨_, _, rfl, .inr fun c h => by cases h; decide, rfl, .inr fun c h => by cases h; decide⟩

theorem witness_StepRuns_enc : ∃ t, decode (encWord .idle (gridBeat .close 0)) = .ok (.encEnd 0) ∧
    exec (.encEnd 0) { encAt EncRegs.reset (gridBeat .close 0) with encIn := [] } = .next t ∧
    (encAt EncRegs.reset (gridBeat .close 0)).encOutCap = none := ⟨_, rfl, rfl, rfl⟩

/-- Both units can move; and `ENC` alone can, while `DEC` has a beat and no room. -/
theorem witness_StepRuns_both :
    (bothAt (by8 0) (gridBeat .close 0)).rst = false ∧ (bothAt (by8 0) (gridBeat .close 0)).ready .dec = true ∧
    (bothAt (by8 0) (gridBeat .close 0)).ready .enc = true ∧
    ({ bothAt (byteBeat true 0) (gridBeat .close 0) with decOutCap := some 1, decOut := [0] } : State).ready .dec = false ∧
    (⟨3, some (.enc, 0)⟩ : Arbiter).passed = some (.enc, 0) := ⟨rfl, rfl, rfl, rfl, rfl⟩

/-- A unit passed over as often as it may be is the one that moves. -/
theorem test_pick_passed : (⟨3, some (.enc, 0)⟩ : Arbiter).pick = .enc := by rfl

theorem witness_UnitWithoutBeat : ∃ t u, step (encAt EncRegs.reset 0) = .next t ∧
    (encAt EncRegs.reset 0).decIn = [] ∧ step (decAt DecRegs.reset 0) = .next u ∧
    (decAt DecRegs.reset 0).encIn = [] ∧ step State.reset = .next State.reset := ⟨_, _, rfl, rfl, rfl, rfl, rfl⟩

/-- A port that is full for an `EOF`, and one that is full for a `HDR`, for each unit's first clause. -/
theorem witness_FullOutputPort : ∃ t u,
    exec (.decEof 0) { decAt DecRegs.reset (byteBeat true 0) with decIn := [], decOutCap := some 2, decOut := [0, 0] } =
      .next t ∧ ¬ canTake (some 2) 1 2 t.decOut.length ∧
    exec (.encHdr 0 0) { encAt EncRegs.reset (gridBeat .hdr 0) with encIn := [], encOutCap := some 8, encOut := [0] } =
      .next u ∧ ¬ canTake (some 8) 16 1 u.encOut.length :=
  ⟨_, _, rfl, fun h => by
    rcases h with h | h
    · exact absurd h (by decide)
    · exact absurd (h 2 rfl) (by decide), rfl, fun h => by
    rcases h with h | h
    · exact absurd h (by decide)
    · exact absurd (h 8 rfl) (by decide)⟩

/-- States with a bound that meet the other clauses, at the least occupancy that stops the unit. -/
theorem witness_FullOutputPort_bounds :
    max 1 1 ≤ ({ decAt DecRegs.reset (byteBeat true 0) with decOutCap := some 1, decOut := [0] } : State).decOut.length ∧
    max 20 16 < ({ encAt EncRegs.reset (gridBeat .hdr 0) with
      encOutCap := some 20, encOut := List.replicate 5 0 } : State).encOut.length + 16 ∧
    max 16 16 < ({ encAt ⟨.body, 0, 2, 1, 2, 0⟩ (gridBeat .pix 0) with
      encOutCap := some 16, encOut := List.replicate 9 0 } : State).encOut.length + 8 ∧
    (encAt ⟨.body, 0, 2, 1, 2, 0⟩ (gridBeat .pix 0)).enc.rem ≠ 0 ∧
    (encAt ⟨.body, 0, 2, 1, 2, 0⟩ (gridBeat .pix 0)).enc.col.toNat + 1 ≠ 2 := by decide

theorem witness_ResetEvent : ({ bothAt (by8 0) 0 with rst := true } : State).rst = true := by decide

theorem witness_ResetStateBetweenFrames : ∃ t u, exec (.decEof 0xFF) State.reset = .next t ∧
    exec (.encEnd 1) State.reset = .next u ∧
    ({ State.reset with rst := true } : State).dec = State.reset.dec := ⟨_, _, rfl, rfl, rfl⟩

theorem witness_UnreachablePhase :
    dPhaseReachable (decAt ⟨.unused5, 0, 0, 0, 0, 0, 0, 0⟩ 0).dec.phase = false ∧
    ePhaseReachable (encAt ⟨.unused3, 0, 0, 0, 0, 0⟩ 0).enc.phase = false := by decide

/-- The table of the magic at its first, seventh and last byte. -/
theorem witness_DecMagic :
    ([0x66, 0x61, 0x72, 0x62, 0x66, 0x65, 0x6C, 0x64] : List Byte)[(0#3).toNat]? = some 0x66 ∧
    ([0x66, 0x61, 0x72, 0x62, 0x66, 0x65, 0x6C, 0x64] : List Byte)[(6#3).toNat]? = some 0x6C ∧ (6#3).toNat < 7 ∧
    ([0x66, 0x61, 0x72, 0x62, 0x66, 0x65, 0x6C, 0x64] : List Byte)[(7#3).toNat]? = some 0x64 ∧ (7#3).toNat = 7 ∧
    (decAt ⟨.magic, 7, 0, 0, 0, 0, 0, 0⟩ 0).dec.phase = .magic := by decide

theorem witness_DecWidth :
    (decAt ⟨.width, 3, 0, 0, 0, 0, 0, 0⟩ 0).dec.idx.toNat = 3 ∧ (decAt ⟨.width, 2, 0, 0, 0, 0, 0, 0⟩ 0).dec.idx.toNat ≠ 3 ∧
    (decAt ⟨.width, 0, 0, 9, 0, 0, 0, 0⟩ 0).dec.idx = 0 := by decide

/-- The least product rejected (V23) and a product just below it (V25), at the fourth byte. -/
theorem witness_DecHeight :
    1073741824#32 = BitVec.ofNat 32 ((4194304#32).toNat * 256 + (0#8).toNat) ∧
    2 ^ State.reset.cfg.lenBits ≤ 8 * (2147483648#32).toNat * (1073741824#32).toNat ∧
    8 * (2147483647#32).toNat * (1073741824#32).toNat < 2 ^ State.reset.cfg.lenBits ∧
    (3#3).toNat = 3 ∧ (2#3).toNat ≠ 3 := by decide

/-- A trailing byte, the last byte owed, a byte inside a pixel, the last column and the one before it. -/
theorem witness_DecPay :
    (decAt ⟨.pay, 0, 0, 2, 2, 0, 0, 0⟩ 0).dec.rem = 0 ∧ State.reset.cfg.strictTrailing = true ∧
    (⟨64, false⟩ : Config).strictTrailing = false ∧
    0 < (decAt ⟨.pay, 6, 0, 2, 2, 2, 0, 0⟩ 0).dec.rem ∧ (6#3).toNat < 7 ∧
    0 < (decAt ⟨.pay, 7, 0, 2, 2, 1, 0, 1⟩ 0).dec.rem ∧ (7#3).toNat = 7 ∧ (1#32).toNat + 1 = (2#32).toNat ∧
    (0#32).toNat + 1 ≠ (2#32).toNat := by decide

theorem witness_DecDrain :
    ({ State.reset with
      dec := ⟨.drain, 0, 5, 2, 2, 0, 0, 0⟩, decIn := [0xAA, 0xBB].map (byteBeat false) } : State).dec.phase = .drain ∧
    State.reset.rst = false ∧ State.reset.encIn = [] := by decide

theorem witness_DecEof :
    ((9#4).toNat ≤ 9 ∧ (9#4).toNat % 2 = 1) ∧
    ∃ closed : Nat → State, ∀ c, closed c = { State.reset with
      dec := ⟨.magic, 0, 0, 0, 0, 0, 0, 0⟩, decOut := State.reset.decOut ++ [gridWordOf 3 c] } :=
  ⟨by decide, fun c => { State.reset with
    dec := ⟨.magic, 0, 0, 0, 0, 0, 0, 0⟩, decOut := State.reset.decOut ++ [gridWordOf 3 c] }, fun _ => rfl⟩

/-- The phases `DEC.EOF` finds, with the last byte owed and with none. -/
theorem witness_DecEof_phases :
    (decAt ⟨.height, 3, 0, 0, 0, 0, 0, 0⟩ 0).dec.phase = .height ∧ 0 < (decAt ⟨.pay, 7, 0, 1, 1, 1, 0, 0⟩ 0).dec.rem ∧
    (decAt ⟨.pay, 0, 0, 1, 1, 0, 0, 0⟩ 0).dec.rem = 0 ∧ (decAt ⟨.drain, 0, 3, 0, 0, 0, 0, 0⟩ 0).dec.phase = .drain := by
  decide

theorem witness_EncHdr : State.reset.enc.phase = .idle := by decide

/-- A full grid, the last column, and a column before it. -/
theorem witness_EncPixAndPixl :
    (encAt ⟨.body, 0, 2, 2, 0, 0⟩ 0).enc.rem = 0 ∧ (encAt ⟨.body, 0, 2, 2, 1, 1⟩ 0).enc.col.toNat + 1 = (2#32).toNat ∧
    (encAt ⟨.body, 0, 2, 2, 1, 1⟩ 0).enc.rem ≠ 0 ∧ (encAt ⟨.body, 0, 2, 2, 2, 0⟩ 0).enc.col.toNat + 1 ≠ (2#32).toNat := by
  decide

theorem witness_EncEnd :
    ((11#4).toNat ≤ 11 ∧ (11#4).toNat % 4 = 3) ∧
    ∃ closed : Nat → State, ∀ c, closed c = { State.reset with
      enc := ⟨.idle, 0, 0, 0, 0, 0⟩, encOut := State.reset.encOut ++ [BitVec.ofNat 9 (256 + c)] } :=
  ⟨by decide, fun c => { State.reset with
    enc := ⟨.idle, 0, 0, 0, 0, 0⟩, encOut := State.reset.encOut ++ [BitVec.ofNat 9 (256 + c)] }, fun _ => rfl⟩

theorem witness_EncDrain : ∃ t,
    stepUnit .enc (encAt ⟨.drain, 6, 2, 2, 2, 0⟩ (gridBeat .hdr 0)) = .next t ∧ beatKind (gridBeat .hdr 0) ≠ .close :=
  ⟨_, rfl, by decide⟩

theorem witness_EncViol :
    (State.reset.enc.phase = .idle ∧ GridKind.pixl ≠ .close) ∧ (encAt ⟨.body, 0, 1, 1, 1, 0⟩ 0).enc.phase = .body := by
  decide

theorem witness_WireFields :
    (0x4641524246454C44#64 ≠ 0x6661726266656C64#64) ∧
    8 * (5#32).toNat * (0#32).toNat < 2 ^ State.reset.cfg.lenBits ∧
    2 ^ State.reset.cfg.lenBits ≤ 8 * (2147483648#32).toNat * (1073741824#32).toNat ∧
    2 ≤ (decAt ⟨.pay, 4, 0, 1, 1, 4, 0, 0⟩ 0).dec.rem ∧ (decAt ⟨.pay, 4, 0, 1, 1, 4, 0, 0⟩ 0).dec.idx.toNat = 4 ∧
    8 ≤ (decAt ⟨.pay, 0, 0, 1, 1, 8, 0, 0⟩ 0).dec.rem := by decide

theorem witness_WireFieldSteps :
    encode (.pixelA 0x1234) = .wire 22 [0x12, 0x34] ∧ isWireField (.pixelA 0x1234) = true ∧
    ({ State.reset with decIn := [0x12, 0x34].map (byteBeat false) ++ [0] } : State).decIn =
      [0x12, 0x34].map (byteBeat false) ++ [0] ∧ dPhaseReachable .drain = true := ⟨rfl, rfl, rfl, rfl⟩

theorem witness_Frames : ∃ t u v, exec (.decPay 1) (decAt ⟨.pay, 7, 0, 1, 1, 1, 0, 0⟩ 0) = .next t ∧
    exec (.encPixl ⟨1, 2, 3, 4⟩) (encAt ⟨.body, 0, 1, 1, 1, 0⟩ 0) = .next u ∧
    exec (.encViol .hdr 0) (encAt ⟨.body, 0, 1, 1, 1, 0⟩ 0) = .next v := ⟨_, _, _, rfl, rfl, rfl⟩

theorem witness_RegisterWriters : ∃ a b c d e, exec (.decMagic 0) State.reset = .next a ∧
    exec (.decWidth 0) (decAt ⟨.width, 3, 0, 0, 0, 0, 0, 0⟩ 0) = .next b ∧
    exec (.decHeight 0) (decAt ⟨.height, 3, 0, 0, 0, 0, 0, 0⟩ 0) = .next c ∧
    exec (.encHdr 0 0) State.reset = .next d ∧
    exec (.encPix ⟨1, 2, 3, 4⟩) (encAt ⟨.body, 0, 2, 1, 2, 0⟩ 0) = .next e := ⟨_, _, _, _, _, rfl, rfl, rfl, rfl, rfl⟩

theorem witness_Raise : ∃ t u, stepUnit .dec (decAt DecRegs.reset (by8 0x67)) = .next t ∧ t.dec.phase = .drain ∧
    DecRegs.reset.phase ≠ .drain ∧
    stepUnit .enc (encAt ⟨.body, 0, 1, 1, 0, 0⟩ (gridBeat .pixl 0)) = .next u ∧ u.enc.phase = .drain :=
  ⟨_, _, rfl, rfl, by decide, rfl, rfl⟩

theorem witness_FirstError : ∃ t u, stepUnit .dec (decAt ⟨.drain, 7, 1, 0, 0, 0, 0, 0⟩ (byteBeat true 0)) = .next t ∧
    stepUnit .enc (encAt ⟨.drain, 6, 2, 2, 2, 0⟩ (gridBeat .close 0)) = .next u := ⟨_, _, rfl, rfl⟩

theorem witness_ReservedCodes : ∃ t u,
    stepUnit .dec (decAt DecRegs.reset (byteBeat true 0)) = .next t ∧ t.decOut = [] ++ [gridTokWord (.stat 1)] ∧
    stepUnit .enc (encAt EncRegs.reset (gridBeat .close 0)) = .next u ∧ u.encOut = [] ++ [byteTokWord (.eof 8)] ∧
    decInv Config.default DecRegs.reset ∧ encInv EncRegs.reset := ⟨_, _, rfl, rfl, rfl, rfl, rfl, rfl⟩

/-- Each row of the tables of R110 and R140 has a beat and a state. -/
theorem witness_PhaseTables :
    beatEof (byteBeat true 0) = true ∧ beatEof (byteBeat false 0x66) = false ∧
    beatData (byteBeat false 0x66) = magicByte 0 ∧ beatData (byteBeat false 0x67) ≠ magicByte 0 ∧
    dPhaseReachable .height = true ∧ ePhaseReachable .body = true ∧
    beatKind (gridBeat .close 0) = .close ∧ beatKind (gridBeat .hdr 0) = .hdr ∧ beatKind (gridBeat .pix 0) = .pix ∧
    beatKind (gridBeat .pixl 0) = .pixl := by decide

/-- A bounded port that can take what the step emits: the last byte of a pixel, and a pixel of a row. -/
theorem witness_PhaseTables_bounded : ∃ t u,
    exec (.decPay 8) { decAt ⟨.pay, 7, 0, 2, 2, 17, 0, 1⟩ (by8 8) with decIn := [], decOutCap := some 1 } = .next t ∧
    canTake (some 1) 1 0 t.decOut.length ∧
    exec (.encPix ⟨1, 2, 3, 4⟩) { encAt ⟨.body, 0, 2, 2, 4, 0⟩ 0 with encIn := [], encOutCap := some 8 } = .next u ∧
    canTake (some 8) 16 0 u.encOut.length :=
  ⟨_, _, rfl, .inr fun c h => by cases h; decide, rfl, .inr fun c h => by cases h; decide⟩

theorem witness_StepTakesOneBeat : ∃ t u, stepUnit .dec (decAt DecRegs.reset (byteBeat true 0)) = .next t ∧
    stepUnit .enc (encAt EncRegs.reset (gridBeat .hdr 0)) = .next u := ⟨_, _, rfl, rfl⟩

theorem witness_ParametersAreFixed : ∃ t, step (decAt DecRegs.reset (by8 0x66)) = .next t := ⟨_, rfl⟩

theorem witness_Interleaving : (bothAt (by8 0x66) (gridBeat .close 0)).phasesReachable ∧
    [UnitId.dec, UnitId.enc].Perm [.enc, .dec] := ⟨⟨rfl, rfl⟩, by decide⟩

theorem witness_OtherResetValues : ∃ t, DecRegs.reset.phase = .magic ∧ DecRegs.reset.idx = 0 ∧
    EncRegs.reset.phase = .idle ∧ run 1 (decAt DecRegs.reset (byteBeat true 0)) = .next t ∧
    decAt ⟨.magic, 0, 0, 7, 8, 9, 10, 11⟩ (byteBeat true 0) = { decAt DecRegs.reset (byteBeat true 0) with
      dec := { DecRegs.reset with w := 7, h := 8, rem := 9, sh := 10, col := 11 } } := ⟨_, rfl, rfl, rfl, rfl, rfl⟩

theorem witness_Consumed : (bothAt (by8 0x66) (gridBeat .close 0)).phasesReachable ∧
    (bothAt (by8 0x66) (gridBeat .close 0)).rst = false ∧
    (bothAt (by8 0x66) (gridBeat .close 0)).decOutCap = none ∧
    (bothAt (by8 0x66) (gridBeat .close 0)).encOutCap = none := ⟨⟨rfl, rfl⟩, rfl, rfl, rfl⟩

/-- A host that takes a beat from each port and offers one to each unit in every round. -/
theorem witness_SinksTakeBeats :
    (bothAt (by8 0x66) (gridBeat .close 0)).phasesReachable ∧ (bothAt (by8 0x66) (gridBeat .close 0)).rst = false ∧
    ∃ env : Nat → List HostAct, (∀ n, HostAct.reset ∉ env n) ∧ (∀ n, ∃ m, n ≤ m ∧ HostAct.sinkDec ∈ env m) ∧
      (∀ n, ∃ m, n ≤ m ∧ HostAct.sinkEnc ∈ env m) :=
  ⟨⟨rfl, rfl⟩, rfl, fun _ => [.sinkDec, .sinkEnc, .offerDec [0], .offerEnc [0]], fun _ => by simp,
    fun n => ⟨n, Nat.le_refl n, by simp⟩, fun n => ⟨n, Nat.le_refl n, by simp⟩⟩

/-- A state inside a frame and inside a grid that meets the invariant: three of 32 bytes taken, one of four pixels. -/
theorem witness_Invariant : ∃ t, (decAt ⟨.pay, 3, 0, 2, 2, 29, 256, 0⟩ (by8 2)).inv ∧ encInv ⟨.body, 0, 2, 2, 3, 1⟩ ∧
    step (decAt ⟨.pay, 3, 0, 2, 2, 29, 256, 0⟩ (by8 2)) = .next t := by
  refine ⟨_, ⟨?_, rfl⟩, ?_, rfl⟩
  · exact ⟨rfl, by decide, by decide, by decide, by decide, by decide⟩
  · exact ⟨rfl, by decide, by decide, by decide⟩

theorem witness_WholeFrames :
    ({ State.reset with decIn := decodeBeats [0x66] 0xFF } : State).decIn = decodeBeats [0x66] 0xFF ++ [] ∧
    ({ State.reset with encIn := encodeBeats [[⟨1, 2, 3, 4⟩]] 0 } : State).encIn = encodeBeats [[⟨1, 2, 3, 4⟩]] 0 ++ [] ∧
    ([[⟨1, 2, 3, 4⟩]] : Grid).length < 2 ^ 32 ∧ derivedWidth ([[⟨1, 2, 3, 4⟩]] : Grid) < 2 ^ 32 ∧
    regular 1 1 ([[⟨1, 2, 3, 4⟩]] : Grid) = true := ⟨rfl, rfl, by decide, by decide, rfl⟩

/-- The frame of V16 is accepted. -/
theorem witness_AcceptedFrame : ∃ t,
    decodeFrame Config.default (magicBytes ++ [0, 0, 0, 0, 0, 0, 0, 0]) = .ok [] ∧
    run 17 { State.reset with decIn := decodeBeats (magicBytes ++ [0, 0, 0, 0, 0, 0, 0, 0]) 0 } = .next t :=
  ⟨_, by decide, by with_unfolding_all exact rfl⟩

/-- The beats of V96, and a grid of each kind for the regularity check. -/
theorem witness_EncFrames : ∃ t,
    (∀ b ∈ [gridBeat .hdr 0], beatKind b ≠ .close) ∧
    run 2 { State.reset with encIn := [gridBeat .hdr 0] ++ [gridBeat .close 7] } = .next t ∧
    (∃ r ∈ ([[⟨1, 2, 3, 4⟩], []] : Grid), ∃ r' ∈ ([[⟨1, 2, 3, 4⟩], []] : Grid), r.length ≠ r'.length) ∧
    (∀ r ∈ ([[], []] : Grid), ∀ r' ∈ ([[], []] : Grid), r.length = r'.length) :=
  ⟨_, by rintro b h; obtain rfl := List.mem_singleton.mp h; decide, rfl, ⟨[⟨1, 2, 3, 4⟩], by simp, [], by simp, by simp⟩, by simp⟩

/-- Both sides of the bound of the round trip. -/
theorem witness_RoundTrip :
    8 * derivedWidth ([[⟨1, 2, 3, 4⟩]] : Grid) * 1 < 2 ^ Config.default.lenBits ∧
    2 ^ (⟨3, true⟩ : Config).lenBits ≤ 8 * derivedWidth ([[⟨1, 2, 3, 4⟩]] : Grid) * 1 := by decide

/-- The empty grid through both units. -/
theorem witness_BothUnits : ∃ t u,
    run 2 { State.reset with encIn := encodeBeats [] 0 } = .next t ∧
    run 17 { t with decIn := gate t.encOut 0 } = .next u ∧ (gate t.encOut 0).length = 17 := ⟨_, _, rfl, rfl, rfl⟩

theorem witness_PixelOffsets :
    encodeFrame (intGrid [[⟨1, 2, 3, 4⟩]]) = .ok (magicBytes ++ [0, 0, 0, 1, 0, 0, 0, 1, 0, 1, 0, 2, 0, 3, 0, 4]) ∧
    ([[⟨1, 2, 3, 4⟩]] : Grid)[0]? = some [⟨1, 2, 3, 4⟩] := ⟨rfl, rfl⟩

theorem witness_ListedProperties :
    ([0x66] : List Byte).length < 8 ∧ (magicBytes ++ [0, 0, 0, 0, 0, 0, 0]).length < 16 ∧
    (magicBytes ++ [0, 0, 0, 0, 0, 0, 0]).take 8 = magicBytes ∧ 8 ≤ magicBytes.length := by decide

/-- A frame of no rows and a width (V17), and one of no columns (V7). -/
theorem witness_ListedProperties_empty :
    memRead (magicBytes ++ [0, 0, 0, 5, 0, 0, 0, 0]) 12 4 = 0 ∧ memRead (magicBytes ++ [0, 0, 0, 0, 0, 0, 0, 3]) 8 4 = 0 ∧
    (magicBytes ++ [0, 0, 0, 5, 0, 0, 0, 0]).length = 16 ∧
    (magicBytes ++ [0, 0, 0, 5, 0, 0, 0, 0]).take 8 = magicBytes := by decide

/-! ### Observations and the gate (R161, R164, R219) -/

/-- A failed frame and an accepted one are no one frame. -/
theorem test_obsDec_two_frames :
    obsDec ([GridTok.hdr 1 1, .pixl ⟨1, 2, 3, 4⟩, .stat 5, .hdr 0 0, .stat 0].map gridTokWord) = none := by rfl

/-- An `OK` frame that lacks a pixel of its `HDR` is none either. -/
theorem test_obsDec_missing_pixel : obsDec ([GridTok.hdr 1 1, .stat 0].map gridTokWord) = none := by rfl

theorem test_obsEnc_two_frames : obsEnc ([ByteTok.eof 0, .eof 0].map byteTokWord) = none := by rfl

/-- A failed frame before an accepted one is voided, and the accepted one forwarded without its code. -/
theorem test_gate_voids : gate ([ByteTok.byte 1, .eof 6, .byte 2, .eof 0, .byte 3].map byteTokWord) 0xFF =
    [0x002#9, 0x1FF#9] := by rfl

end Sys2Proof.Tests
end

section
/-! SUPPORT. What a beat or a wire field can do in a phase some rule writes: it has an effect, which ends in such a phase
and emits no more than a step may. -/

namespace Sys2Proof.Machine

/-! ### The effect of a `DEC` beat (R101 to R106) -/

/-- An effect that exists, leaves `DEC` in a reachable phase and emits at most what one step may (R83, R108). -/
def DecEffectOk (o : Option (DecRegs × List GridBeat)) : Prop :=
  ∃ d beats, o = some (d, beats) ∧ dPhaseReachable d.phase = true ∧ beats.length ≤ mostEmitted .dec

section
variable {d : DecRegs} (hd : dPhaseReachable d.phase = true) (b : Byte) (c : Config)
include hd

theorem magicEffect_ok : DecEffectOk (magicEffect b c d) := by
  unfold magicEffect
  split_ifs
  · exact ⟨_, _, rfl, rfl, Nat.zero_le _⟩
  · exact ⟨_, _, rfl, rfl, Nat.zero_le _⟩
  · exact ⟨_, _, rfl, hd, Nat.zero_le _⟩

theorem widthEffect_ok : DecEffectOk (widthEffect b c d) := by
  unfold widthEffect
  split_ifs
  · exact ⟨_, _, rfl, rfl, Nat.zero_le _⟩
  · exact ⟨_, _, rfl, hd, Nat.zero_le _⟩

theorem heightEffect_ok : DecEffectOk (heightEffect b c d) := by
  unfold heightEffect
  split_ifs
  · exact ⟨_, _, rfl, hd, Nat.zero_le _⟩
  · exact ⟨_, _, rfl, rfl, Nat.zero_le _⟩
  · exact ⟨_, _, rfl, rfl, Nat.le_refl _⟩

theorem payEffect_ok : DecEffectOk (payEffect b c d) := by
  unfold payEffect
  split_ifs
  · exact ⟨_, _, rfl, rfl, Nat.zero_le _⟩
  · exact ⟨_, _, rfl, hd, Nat.zero_le _⟩
  · exact ⟨_, _, rfl, hd, Nat.zero_le _⟩
  · exact ⟨_, _, rfl, hd, Nat.le_refl _⟩
  · exact ⟨_, _, rfl, hd, Nat.le_refl _⟩

theorem byteEffect_ok : DecEffectOk (byteEffect b c d) := by
  unfold byteEffect
  cases hp : d.phase with
  | magic => exact magicEffect_ok hd b c
  | width => exact widthEffect_ok hd b c
  | height => exact heightEffect_ok hd b c
  | pay => exact payEffect_ok hd b c
  | drain => exact ⟨_, _, rfl, hd, Nat.zero_le _⟩
  | unused5 | unused6 | unused7 => rw [hp] at hd; cases hd

theorem exists_decEofCode : ∃ code, decEofCode d = some code := by
  unfold decEofCode
  cases hp : d.phase with
  | magic | width | height | pay | drain => exact ⟨_, rfl⟩
  | unused5 | unused6 | unused7 => rw [hp] at hd; cases hd

theorem eofEffect_ok : DecEffectOk (eofEffect c d) := by
  obtain ⟨code, hc⟩ := exists_decEofCode hd
  exact ⟨DecRegs.reset, [gridTokWord (.stat code)], by simp [eofEffect, hc], rfl, Nat.le_refl _⟩

theorem decBeatEffect_ok (t : ByteBeat) : DecEffectOk (decBeatEffect t c d) := by
  unfold decBeatEffect
  split_ifs
  · exact eofEffect_ok hd c
  · exact byteEffect_ok hd _ c

/-- The bytes of a field, one after another, have an effect that ends in a reachable phase. -/
theorem bytesEffect_reachable (bs : List Byte) :
    ∃ d' beats, bytesEffect bs c d = some (d', beats) ∧ dPhaseReachable d'.phase = true := by
  induction bs generalizing d with
  | nil => exact ⟨d, [], rfl, hd⟩
  | cons b bs ih =>
    obtain ⟨d₁, beats₁, h₁, hd₁, -⟩ := byteEffect_ok hd b c
    obtain ⟨d₂, beats₂, h₂, hd₂⟩ := ih hd₁
    exact ⟨d₂, beats₁ ++ beats₂, by simp [bytesEffect, h₁, h₂], hd₂⟩

end

/-- A phase no rule writes gives no beat an effect (R83). -/
theorem decBeatEffect_unreachable {d : DecRegs} (hd : dPhaseReachable d.phase = false) (t : ByteBeat) (c : Config) :
    decBeatEffect t c d = none := by
  unfold decBeatEffect eofEffect decEofCode byteEffect
  cases hp : d.phase with
  | magic | width | height | pay | drain => rw [hp] at hd; cases hd
  | unused5 | unused6 | unused7 => simp

/-- A `dec_in` beat makes `DEC` emit at most one beat (R108). -/
theorem decBeatEffect_emits {t : ByteBeat} {c : Config} {d d' : DecRegs} {beats : List GridBeat}
    (h : decBeatEffect t c d = some (d', beats)) : beats.length ≤ mostEmitted .dec := by
  cases hd : dPhaseReachable d.phase with
  | false => cases h.symm.trans (decBeatEffect_unreachable hd t c)
  | true =>
    obtain ⟨_, _, h', -, hlen⟩ := decBeatEffect_ok hd c t
    cases h.symm.trans h'
    exact hlen

/-! ### The effect of an `ENC` beat (R131 to R136) -/

@[simp] theorem sendToks_length {n : Nat} (v : BitVec n) (k : Nat) : (sendToks v k).length = k := by
  simp [sendToks, beBytes_length]

/-- A pixel is sent as eight bytes (R132). -/
theorem pixelToks_length (p : Pixel) : (pixelToks p).length = 8 := by simp [pixelToks]

/-- A header is sent as sixteen bytes (R131). -/
theorem headerToks_length (w h : BitVec 32) : (headerToks w h).length = 16 := by
  simp [headerToks, magicBytes, beBytes_length]

/-- An effect that exists, leaves `ENC` in a reachable phase and emits at most what one step may (R37, R83). -/
def EncEffectOk (o : Option (EncRegs × List ByteBeat)) : Prop :=
  ∃ e beats, o = some (e, beats) ∧ ePhaseReachable e.phase = true ∧ beats.length ≤ mostEmitted .enc

theorem hdrEffect_ok (w h : BitVec 32) (e : EncRegs) : EncEffectOk (hdrEffect w h e) :=
  ⟨_, _, rfl, rfl, by simp [headerToks_length, mostEmitted]⟩

theorem violEffect_ok (e : EncRegs) : EncEffectOk (violEffect e) := ⟨_, _, rfl, rfl, Nat.zero_le _⟩

section
variable {e : EncRegs} (he : ePhaseReachable e.phase = true)
include he

theorem pixEffect_ok (p : Pixel) : EncEffectOk (pixEffect p e) := by
  unfold pixEffect
  split_ifs
  · exact ⟨_, _, rfl, rfl, Nat.zero_le _⟩
  · exact ⟨_, _, rfl, he, by simp [pixelToks_length, mostEmitted]⟩

theorem pixlEffect_ok (p : Pixel) : EncEffectOk (pixlEffect p e) := by
  unfold pixlEffect
  split_ifs
  · exact ⟨_, _, rfl, rfl, Nat.zero_le _⟩
  · exact ⟨_, _, rfl, he, by simp [pixelToks_length, mostEmitted]⟩

theorem exists_encEndCode : ∃ code, encEndCode e = some code := by
  unfold encEndCode
  cases hp : e.phase with
  | idle | body | drain => exact ⟨_, rfl⟩
  | unused3 => rw [hp] at he; cases he

theorem endEffect_ok : EncEffectOk (endEffect e) := by
  obtain ⟨code, hc⟩ := exists_encEndCode he
  exact ⟨EncRegs.reset, [byteTokWord (.eof code)], by simp [endEffect, hc], rfl, by simp [mostEmitted]⟩

theorem encBeatEffect_ok (t : GridBeat) : EncEffectOk (encBeatEffect t e) := by
  unfold encBeatEffect
  cases hp : e.phase with
  | idle =>
    cases beatKind t with
    | hdr => exact hdrEffect_ok _ _ e
    | pix | pixl => exact violEffect_ok e
    | close => exact endEffect_ok he
  | body =>
    cases beatKind t with
    | hdr => exact violEffect_ok e
    | pix => exact pixEffect_ok he _
    | pixl => exact pixlEffect_ok he _
    | close => exact endEffect_ok he
  | drain =>
    cases beatKind t with
    | hdr | pix | pixl => exact ⟨_, _, rfl, he, Nat.zero_le _⟩
    | close => exact endEffect_ok he
  | unused3 => rw [hp] at he; cases he

end

/-- The phase no rule writes gives no beat an effect (R83). -/
theorem encBeatEffect_unreachable {e : EncRegs} (he : ePhaseReachable e.phase = false) (t : GridBeat) :
    encBeatEffect t e = none := by
  unfold encBeatEffect
  cases hp : e.phase with
  | idle | body | drain => rw [hp] at he; cases he
  | unused3 => rfl

/-- An `enc_in` beat makes `ENC` emit at most sixteen beats (R37). -/
theorem encBeatEffect_emits {t : GridBeat} {e e' : EncRegs} {beats : List ByteBeat}
    (h : encBeatEffect t e = some (e', beats)) : beats.length ≤ mostEmitted .enc := by
  cases he : ePhaseReachable e.phase with
  | false => cases h.symm.trans (encBeatEffect_unreachable he t)
  | true =>
    obtain ⟨_, _, h', -, hlen⟩ := encBeatEffect_ok he t
    cases h.symm.trans h'
    exact hlen

end Sys2Proof.Machine
end

section
/-! SUPPORT. Wire fields as the bytes they are sent as, and the obligation about them. -/

namespace Sys2Proof.Machine

/-- A wire field's meaning takes the bytes it is encoded as (R70, R71, assumption log 6). -/
theorem exec_wireField {i : Instr} (hi : isWireField i = true) :
    ∃ off bytes, encode i = .wire off bytes ∧ exec i = decBytes bytes := by
  cases i with
  | hdrMagic | hdrWidth | hdrHeight | pixelR | pixelG | pixelB | pixelA => exact ⟨_, _, rfl, rfl⟩
  | _ => cases hi

/-- A run over bytes on `dec_in` takes them by the operations their phases select. -/
theorem run_bytes (bytes : List Byte) (rest : List ByteBeat) (s : State) (hr : s.rst = false) (he : s.encIn = [])
    (hcap : s.decOutCap = none) (hin : s.decIn = bytes.map (byteBeat false) ++ rest) :
    run bytes.length s = decBytes bytes { s with decIn := rest } := by
  have h := run_dec (bytes.map (byteBeat false)) rest s hr he hcap hin
  rwa [List.length_map, decBeatsEffect_bytes, ← decBytes_eq bytes { s with decIn := rest }] at h

/-- In a reachable phase any bytes are taken, and the phase stays reachable (R83). -/
theorem decBytes_reachable (bytes : List Byte) (s : State) (hd : dPhaseReachable s.dec.phase = true) :
    ∃ t, decBytes bytes s = .next t ∧ dPhaseReachable t.dec.phase = true := by
  obtain ⟨d, beats, heff, hd'⟩ := bytesEffect_reachable hd s.cfg bytes
  exact ⟨_, by rw [decBytes_eq, heff]; rfl, hd'⟩

/-- Settles O28: a wire field is `decBytes` of its encoding, which is the run over those bytes and completes. -/
theorem wireFieldIsTheStepsOnItsBytes : Obligations.WireFieldIsTheStepsOnItsBytes := by
  refine ⟨fun i off bytes rest s hi henc hr he hcap hin => ?_, fun i s hi hd => ?_⟩
  · obtain ⟨_, _, henc', hexec⟩ := exec_wireField hi
    cases henc.symm.trans henc'
    rw [hexec, run_bytes bytes rest s hr he hcap hin]
  · obtain ⟨_, bytes, -, hexec⟩ := exec_wireField hi
    rw [hexec]
    exact decBytes_reachable bytes s hd

end Sys2Proof.Machine
end

section
/-! SUPPORT. The two units' steps: what each reads and writes, and the obligations about them. -/

namespace Sys2Proof.Machine

/-- Settles O37: a step has the effect of the oldest beat, and no effect emits more than a step may. -/
theorem stepTakesOneBeatAndAppends : Obligations.StepTakesOneBeatAndAppends := by
  refine ⟨fun s t h => ?_, fun s t h => ?_⟩
  · refine (stepUnit_dec_frame h).imp id fun ⟨b, d, beats, hin, heff, ht⟩ => ?_
    exact ⟨b, beats, hin, by rw [ht], decBeatEffect_emits heff⟩
  · refine (stepUnit_enc_frame h).imp id fun ⟨b, e, beats, hin, heff, ht⟩ => ?_
    exact ⟨b, beats, hin, by rw [ht], encBeatEffect_emits heff⟩

/-- The state with `DEC`'s registers and ports replaced: all that `DEC`'s step writes (R100). -/
def State.withDec (s : State) (d : DecRegs) (ins : List ByteBeat) (outs : List GridBeat) : State :=
  { s with dec := d, decIn := ins, decOut := outs }

/-- The state with `ENC`'s registers and ports replaced: all that `ENC`'s step writes (R130). -/
def State.withEnc (s : State) (e : EncRegs) (ins : List GridBeat) (outs : List ByteBeat) : State :=
  { s with enc := e, encIn := ins, encOut := outs }

section
variable (s : State) (d : DecRegs) (e : EncRegs)

variable (decIn : List ByteBeat) (decOut : List GridBeat) (encIn : List GridBeat) (encOut : List ByteBeat)

@[simp] theorem State.withDec_self : s.withDec s.dec s.decIn s.decOut = s := rfl
@[simp] theorem State.withDec_enc : (s.withDec d decIn decOut).enc = s.enc := rfl
@[simp] theorem State.withEnc_self : s.withEnc s.enc s.encIn s.encOut = s := rfl
@[simp] theorem State.withEnc_cfg : (s.withEnc e encIn encOut).cfg = s.cfg := rfl
@[simp] theorem State.withEnc_dec : (s.withEnc e encIn encOut).dec = s.dec := rfl

theorem State.withDec_withEnc :
    (s.withDec d decIn decOut).withEnc e encIn encOut = (s.withEnc e encIn encOut).withDec d decIn decOut := rfl

@[simp] theorem roomFor_dec_withEnc (t : State) :
    (s.withEnc e encIn encOut).roomFor .dec (t.withEnc e encIn encOut) = s.roomFor .dec t := rfl

@[simp] theorem roomFor_enc_withDec (t : State) :
    (s.withDec d decIn decOut).roomFor .enc (t.withDec d decIn decOut) = s.roomFor .enc t := rfl

end

/-- From a reachable phase `DEC`'s step does the same whatever `ENC` holds, and the phase stays reachable. -/
theorem stepUnit_dec_withEnc (s : State) (hd : dPhaseReachable s.dec.phase = true) :
    ∃ d ins outs, dPhaseReachable d.phase = true ∧ ∀ e ins' outs',
      stepUnit .dec (s.withEnc e ins' outs') = .next ((s.withDec d ins outs).withEnc e ins' outs') := by
  cases hin : s.decIn with
  | nil => exact ⟨s.dec, s.decIn, s.decOut, hd, fun e ins' outs' => stepUnit_dec_nil (s.withEnc e ins' outs') hin⟩
  | cons b bs =>
    obtain ⟨d, beats, heff, hd', -⟩ := decBeatEffect_ok hd s.cfg b
    have hstep (e ins' outs') : stepUnit .dec (s.withEnc e ins' outs') = (s.withEnc e ins' outs').settle .dec
        (.next ((s.withDec d bs (s.decOut ++ beats)).withEnc e ins' outs')) := by
      rw [stepUnit_dec_cons (s := s.withEnc e ins' outs') hin, State.withEnc_cfg, State.withEnc_dec, heff]
      rfl
    cases hroom : s.roomFor .dec (s.withDec d bs (s.decOut ++ beats)) with
    | true => exact ⟨d, bs, s.decOut ++ beats, hd', fun e ins' outs' => by simp [hstep, settle_next, hroom]⟩
    | false => exact ⟨s.dec, s.decIn, s.decOut, hd, fun e ins' outs' => by simp [hstep, settle_next, hroom]⟩

/-- From a reachable phase `ENC`'s step does the same whatever `DEC` holds, and the phase stays reachable. -/
theorem stepUnit_enc_withDec (s : State) (he : ePhaseReachable s.enc.phase = true) :
    ∃ e ins outs, ePhaseReachable e.phase = true ∧ ∀ d ins' outs',
      stepUnit .enc (s.withDec d ins' outs') = .next ((s.withEnc e ins outs).withDec d ins' outs') := by
  cases hin : s.encIn with
  | nil => exact ⟨s.enc, s.encIn, s.encOut, he, fun d ins' outs' => stepUnit_enc_nil (s.withDec d ins' outs') hin⟩
  | cons b bs =>
    obtain ⟨e, beats, heff, he', -⟩ := encBeatEffect_ok he b
    have hstep (d ins' outs') : stepUnit .enc (s.withDec d ins' outs') = (s.withDec d ins' outs').settle .enc
        (.next ((s.withEnc e bs (s.encOut ++ beats)).withDec d ins' outs')) := by
      rw [stepUnit_enc_cons (s := s.withDec d ins' outs') hin, State.withDec_enc, heff]
      rfl
    cases hroom : s.roomFor .enc (s.withEnc e bs (s.encOut ++ beats)) with
    | true => exact ⟨e, bs, s.encOut ++ beats, he', fun d ins' outs' => by simp [hstep, settle_next, hroom]⟩
    | false => exact ⟨s.enc, s.encIn, s.encOut, he, fun d ins' outs' => by simp [hstep, settle_next, hroom]⟩

/-- Settles O40: each unit writes its own fields only, with values that do not depend on the other's. -/
theorem stepsOfTheTwoUnitsCommute : Obligations.StepsOfTheTwoUnitsCommute := by
  intro s ⟨hd, he⟩
  obtain ⟨d, decIn, decOut, -, hdec⟩ := stepUnit_dec_withEnc s hd
  obtain ⟨e, encIn, encOut, -, henc⟩ := stepUnit_enc_withDec s he
  have hdec₀ : stepUnit .dec s = .next (s.withDec d decIn decOut) := hdec s.enc s.encIn s.encOut
  have henc₀ : stepUnit .enc s = .next (s.withEnc e encIn encOut) := henc s.dec s.decIn s.decOut
  refine ⟨(s.withEnc e encIn encOut).withDec d decIn decOut, ?_, ?_⟩
  · rw [hdec₀, andThen_next, henc]
  · rw [henc₀, andThen_next, hdec, State.withDec_withEnc]

end Sys2Proof.Machine
end

section
/-! SUPPORT. The block's step, and the obligations about it. -/

namespace Sys2Proof.Machine

theorem fetch_dec_cons {s : State} {b : ByteBeat} {bs : List ByteBeat} (hin : s.decIn = b :: bs) :
    s.fetch .dec = some (decWord s.dec.phase b) := by simp [State.fetch, hin]

theorem fetch_enc_cons {s : State} {b : GridBeat} {bs : List GridBeat} (hin : s.encIn = b :: bs) :
    s.fetch .enc = some (encWord s.enc.phase b) := by simp [State.fetch, hin]

theorem roomFor_dec_iff (s t : State) :
    s.roomFor .dec t = true ↔ canTake s.decOutCap 1 s.decOut.length t.decOut.length := portTakes_iff _ _ _ _

theorem roomFor_enc_iff (s t : State) :
    s.roomFor .enc t = true ↔ canTake s.encOutCap 16 s.encOut.length t.encOut.length := portTakes_iff _ _ _ _

/-- A unit's step runs the instruction its word decodes to, on the state without the beat (R100, R130). -/
theorem stepUnit_of_decode {s t : State} {u : UnitId} {word : OpWord} {i : Instr} (hf : s.fetch u = some word)
    (hdec : decode word = .ok i) (hexec : exec i (s.take u) = .next t) (hroom : s.roomFor u t = true) :
    stepUnit u s = .next t := by
  simp [stepUnit, hf, hdec, hexec, settle_next, hroom]

/-- Settles O9: a step is the one of the unit that can move, or of the one picked, and runs what its beat decodes to. -/
theorem stepRunsTheDecodedInstruction : Obligations.StepRunsTheDecodedInstruction := by
  refine ⟨fun s t b bs i hr hin he hdec hexec hroom => ?_, fun s t b bs i hr hin hd hdec hexec hroom => ?_,
    fun s u v hr huv hv => ?_, fun s hr hd he => ?_⟩
  · rw [← take_dec_eq hin] at hexec
    rw [step_dec s hr he]
    exact stepUnit_of_decode (fetch_dec_cons hin) hdec hexec ((roomFor_dec_iff s t).mpr hroom)
  · rw [← take_enc_eq hin] at hexec
    rw [step_enc s hr hd]
    exact stepUnit_of_decode (fetch_enc_cons hin) hdec hexec ((roomFor_enc_iff s t).mpr hroom)
  · cases u <;> cases v
    case dec.enc => exact step_enc_stopped hr hv
    case enc.dec => exact step_dec_stopped hr hv
    all_goals exact absurd rfl huv
  · exact ⟨s.arb.pick, step_ready_both hr hd he, fun _ => Arbiter.pick_passed⟩

/-- Settles O39: neither a reset event nor a unit's step writes the parameters. -/
theorem parametersAreFixedAtBuildTime : Obligations.ParametersAreFixedAtBuildTime := by
  intro s t h
  rcases step_cases s with ⟨-, hs⟩ | ⟨-, u, a, hs⟩
  · cases hs.symm.trans h
    exact State.resetEvent_cfg s
  · obtain ⟨hcfg, -⟩ := stepUnit_keeps (hs.symm.trans h)
    exact hcfg

end Sys2Proof.Machine
end

section
/-! SUPPORT. What a unit's beat asks for before its port is looked at, as one function behind a unit's step and
whether it can move (R100, R130, R218). -/

namespace Sys2Proof.Machine

/-- What the beat at the head of a unit's input port asks for, before its output port is looked at (R100, R130). -/
def State.attempt (s : State) (u : UnitId) : Option Answer :=
  (s.fetch u).map fun word =>
    match decode word with
    | .error why => .refused (.rejected why)
    | .ok i => exec i (s.take u)

/-- The output port does not hold the unit up: it has room for what is emitted, or nothing is answered (R83, R218). -/
def State.accepts (s : State) (u : UnitId) : Answer → Bool
  | .next t => s.roomFor u t
  | .fault _ => true
  | .refused _ => true

/-- A unit's step is what its beat asks for, where its port has room. -/
theorem stepUnit_eq_attempt (s : State) (u : UnitId) :
    stepUnit u s = (s.attempt u).elim (.next s) (s.settle u) := by
  unfold stepUnit State.attempt
  cases s.fetch u with
  | none => rfl
  | some word => cases h : decode word <;> simp [h]

/-- A unit can move where its beat asks for something its port accepts. -/
theorem ready_eq_attempt (s : State) (u : UnitId) : s.ready u = (s.attempt u).elim false (s.accepts u) := by
  unfold State.ready State.attempt
  cases s.fetch u with
  | none => rfl
  | some word => cases h : decode word <;> simp [h] <;> rfl

theorem attempt_dec_nil {s : State} (hin : s.decIn = []) : s.attempt .dec = none := by
  simp [State.attempt, State.fetch, hin]

theorem attempt_enc_nil {s : State} (hin : s.encIn = []) : s.attempt .enc = none := by
  simp [State.attempt, State.fetch, hin]

/-- A `dec_in` beat asks for its effect on `DEC`'s registers. -/
theorem attempt_dec_cons {s : State} {b : ByteBeat} {bs : List ByteBeat} (hin : s.decIn = b :: bs) :
    s.attempt .dec = some (applyDec { s with decIn := bs } (decBeatEffect b s.cfg s.dec)) := by
  simp only [State.attempt, fetch_dec_cons hin, Option.map_some, take_dec_eq hin, decBeatEffect]
  cases he : beatEof b with
  | true =>
    have heof := execDecEof_eq (beatData b) { s with decIn := bs }
    rw [decode_decWord_eof _ _ he, if_pos rfl, ← heof]
    cases hp : s.dec.phase <;> simp [dPhaseReachable, exec, execDecEof, decEofCode, hp]
  | false =>
    have hbyte := decByte_eq (beatData b) { s with decIn := bs }
    rw [decode_decWord_byte _ _ he, if_neg Bool.false_ne_true, ← hbyte, decByte]
    cases s.dec.phase <;> rfl

/-- An `enc_in` beat asks for its effect on `ENC`'s registers. -/
theorem attempt_enc_cons {s : State} {b : GridBeat} {bs : List GridBeat} (hin : s.encIn = b :: bs) :
    s.attempt .enc = some (applyEnc { s with encIn := bs } (encBeatEffect b s.enc)) := by
  simp only [State.attempt, fetch_enc_cons hin, Option.map_some, take_enc_eq hin, decode_encWord, encBeatEffect]
  cases hp : s.enc.phase <;> cases hk : beatKind b <;>
    simp [exec, execEncHdr_eq, execEncPix_eq, execEncPixl_eq, execEncEnd_eq, execEncViol_eq, execEncDrain_eq, applyEnc]

end Sys2Proof.Machine
end

section
/-! SUPPORT. Two states that differ only in registers no output depends on: they go on agreeing, and send the same beats
(R46). -/

namespace Sys2Proof.Machine

/-! ### A register that bytes are shifted into -/

/-- The low `k` bytes of two registers agree. -/
def LowBytesAgree {n : Nat} (k : Nat) (v v' : BitVec n) : Prop := ∀ i < 8 * k, v'.getLsbD i = v.getLsbD i

/-- A byte shifted into both registers is one more that agrees (R14). -/
theorem LowBytesAgree.shiftIn {n k : Nat} {v v' : BitVec n} (h : LowBytesAgree k v v') (b : Byte) :
    LowBytesAgree (k + 1) (shiftIn v b) (shiftIn v' b) := by
  intro i hi
  simp only [Machine.shiftIn, BitVec.getLsbD_or, BitVec.getLsbD_shiftLeft]
  by_cases h8 : i < 8
  · simp [h8]
  · rw [h (i - 8) (by omega)]

/-- Registers whose bytes all agree are equal. -/
theorem LowBytesAgree.eq {n k : Nat} {v v' : BitVec n} (h : LowBytesAgree k v v') (hn : n ≤ 8 * k) : v' = v :=
  BitVec.eq_of_getLsbD_eq fun i hi => h i (by omega)

theorem LowBytesAgree.mono {n j k : Nat} {v v' : BitVec n} (h : LowBytesAgree k v v') (hj : j ≤ k) :
    LowBytesAgree j v v' := fun i hi => h i (by omega)

/-- The bytes may be counted in a 3-bit index, which starts anew after the eighth and then claims none (R26). -/
theorem LowBytesAgree.shiftIn_idx {n : Nat} {k : BitVec 3} {v v' : BitVec n} (h : LowBytesAgree k.toNat v v')
    (b : Byte) : LowBytesAgree (k + 1).toNat (Machine.shiftIn v b) (Machine.shiftIn v' b) :=
  (h.shiftIn b).mono (Nat.mod_le _ _)

theorem LowBytesAgree.zero {n : Nat} (v v' : BitVec n) : LowBytesAgree 0 v v' := fun i hi => by omega

/-! ### Registers no output depends on (R46) -/

/-- What two sets of `DEC` registers have in common in a phase, of the five that started apart: a phase reads one of them
only when the frame has written it, byte by byte where it is assembled from bytes. -/
def DataAgree (d d' : DecRegs) : DPhase → Prop
  | .width => LowBytesAgree d.idx.toNat d.w d'.w
  | .height => d'.w = d.w ∧ LowBytesAgree d.idx.toNat d.h d'.h
  | .pay => d'.w = d.w ∧ d'.rem = d.rem ∧ d'.col = d.col ∧ LowBytesAgree d.idx.toNat d.sh d'.sh
  | _ => True

/-- `DEC` registers of two runs whose `d_w`, `d_h`, `d_rem`, `d_sh` and `d_col` started apart. -/
structure DecAgree (d d' : DecRegs) : Prop where
  phase : d'.phase = d.phase
  idx : d'.idx = d.idx
  err : d'.err = d.err
  data : DataAgree d d' d.phase

/-- `ENC` registers of two runs whose `e_w`, `e_h`, `e_rem` and `e_col` started apart; `HDR` writes all four. -/
structure EncAgree (e e' : EncRegs) : Prop where
  phase : e'.phase = e.phase
  err : e'.err = e.err
  body : e.phase = .body → e' = e

theorem EncAgree.refl (e : EncRegs) : EncAgree e e := ⟨rfl, rfl, fun _ => rfl⟩

/-- Two effects of `DEC` that leave registers that agree and send the same beats. -/
abbrev DecEffectsAgree : Option (DecRegs × List GridBeat) → Option (DecRegs × List GridBeat) → Prop :=
  Option.Rel fun p p' => DecAgree p.1 p'.1 ∧ p'.2 = p.2

/-- The same of `ENC`. -/
abbrev EncEffectsAgree : Option (EncRegs × List ByteBeat) → Option (EncRegs × List ByteBeat) → Prop :=
  Option.Rel fun p p' => EncAgree p.1 p'.1 ∧ p'.2 = p.2

section
variable {d d' : DecRegs} (h : DecAgree d d') (b : Byte) (c : Config)
include h

theorem DecAgree.data_of_phase {ph : DPhase} (hp : d.phase = ph) : DataAgree d d' ph := hp ▸ h.data

theorem magicEffect_agree (hp : d.phase = .magic) : DecEffectsAgree (magicEffect b c d) (magicEffect b c d') := by
  unfold magicEffect
  rw [h.idx]
  split_ifs
  · exact .some ⟨⟨rfl, rfl, rfl, trivial⟩, rfl⟩
  · exact .some ⟨⟨rfl, rfl, h.err, .zero _ _⟩, rfl⟩
  · exact .some ⟨⟨h.phase, rfl, h.err, by rw [hp]; trivial⟩, rfl⟩

theorem widthEffect_agree (hp : d.phase = .width) : DecEffectsAgree (widthEffect b c d) (widthEffect b c d') := by
  have hw : LowBytesAgree d.idx.toNat d.w d'.w := h.data_of_phase hp
  unfold widthEffect
  rw [h.idx]
  split_ifs with h3
  · exact .some ⟨⟨rfl, rfl, h.err, (hw.shiftIn b).eq (by simp [h3]), .zero _ _⟩, rfl⟩
  · exact .some ⟨⟨h.phase, rfl, h.err, by rw [hp]; exact hw.shiftIn_idx b⟩, rfl⟩

theorem heightEffect_agree (hp : d.phase = .height) :
    DecEffectsAgree (heightEffect b c d) (heightEffect b c d') := by
  obtain ⟨hw, hh⟩ : d'.w = d.w ∧ LowBytesAgree d.idx.toNat d.h d'.h := h.data_of_phase hp
  unfold heightEffect
  rw [h.idx, hw]
  by_cases h3 : d.idx = 3
  · rw [if_neg (not_not.mpr h3), if_neg (not_not.mpr h3), (hh.shiftIn b).eq (by simp [h3])]
    split_ifs
    · exact .some ⟨⟨rfl, rfl, rfl, trivial⟩, rfl⟩
    · exact .some ⟨⟨rfl, rfl, h.err, rfl, rfl, rfl, .zero _ _⟩, rfl⟩
  · rw [if_pos h3, if_pos h3]
    exact .some ⟨⟨h.phase, rfl, h.err, by rw [hp]; exact ⟨rfl, hh.shiftIn_idx b⟩⟩, rfl⟩

theorem payEffect_agree (hp : d.phase = .pay) : DecEffectsAgree (payEffect b c d) (payEffect b c d') := by
  obtain ⟨hw, hrem, hcol, hsh⟩ :
    d'.w = d.w ∧ d'.rem = d.rem ∧ d'.col = d.col ∧ LowBytesAgree d.idx.toNat d.sh d'.sh := h.data_of_phase hp
  unfold payEffect
  rw [h.idx, hw, hrem, hcol]
  by_cases hr : d.rem = 0
  · rw [if_pos hr, if_pos hr]
    split_ifs
    · exact .some ⟨⟨rfl, rfl, rfl, trivial⟩, rfl⟩
    · exact .some ⟨h, rfl⟩
  · rw [if_neg hr, if_neg hr]
    by_cases h7 : d.idx = 7
    · rw [if_neg (not_not.mpr h7), if_neg (not_not.mpr h7), (hsh.shiftIn b).eq (by simp [h7])]
      split_ifs <;>
        exact .some ⟨⟨h.phase, rfl, h.err, by rw [hp]; exact ⟨rfl, rfl, rfl, .zero _ _⟩⟩, rfl⟩
    · rw [if_pos h7, if_pos h7]
      exact .some ⟨⟨h.phase, rfl, h.err, by rw [hp]; exact ⟨rfl, rfl, rfl, hsh.shiftIn_idx b⟩⟩, rfl⟩

theorem byteEffect_agree : DecEffectsAgree (byteEffect b c d) (byteEffect b c d') := by
  unfold byteEffect
  rw [h.phase]
  cases hp : d.phase with
  | magic => exact magicEffect_agree h b c hp
  | width => exact widthEffect_agree h b c hp
  | height => exact heightEffect_agree h b c hp
  | pay => exact payEffect_agree h b c hp
  | drain => exact .some ⟨h, rfl⟩
  | unused5 | unused6 | unused7 => exact .none

/-- The code an `EOF` reports reads `d_rem` only in `D_PAY` (R106). -/
theorem decEofCode_agree : decEofCode d' = decEofCode d := by
  unfold decEofCode
  rw [h.phase]
  cases hp : d.phase with
  | pay =>
    obtain ⟨-, hrem, -⟩ := h.data_of_phase hp
    simp only [hrem]
  | drain => simp only [h.err]
  | _ => rfl

/-- No effect of a beat on `DEC` tells agreeing registers apart. -/
theorem decBeatEffect_agree (t : ByteBeat) : DecEffectsAgree (decBeatEffect t c d) (decBeatEffect t c d') := by
  unfold decBeatEffect
  split_ifs
  · rw [eofEffect, eofEffect, decEofCode_agree h]
    cases decEofCode d with
    | none => exact .none
    | some code => exact .some ⟨⟨rfl, rfl, rfl, trivial⟩, rfl⟩
  · exact byteEffect_agree h _ c

end

theorem encEndCode_agree {e e' : EncRegs} (h : EncAgree e e') : encEndCode e' = encEndCode e := by
  unfold encEndCode
  rw [h.phase]
  cases hp : e.phase with
  | body => rw [h.body hp]
  | drain => simp only [h.err]
  | _ => rfl

/-- No effect of a beat on `ENC` tells agreeing registers apart: only a beat in `E_BODY` reads one of the four, and
there all registers are equal. -/
theorem encBeatEffect_agree {e e' : EncRegs} (h : EncAgree e e') (t : GridBeat) :
    EncEffectsAgree (encBeatEffect t e) (encBeatEffect t e') := by
  by_cases hbody : e.phase = .body
  · rw [h.body hbody]
    cases encBeatEffect t e with
    | none => exact .none
    | some p => exact .some ⟨.refl p.1, rfl⟩
  · have hend : EncEffectsAgree (endEffect e) (endEffect e') := by
      rw [endEffect, endEffect, encEndCode_agree h]
      cases encEndCode e with
      | none => exact .none
      | some code => exact .some ⟨.refl _, rfl⟩
    unfold encBeatEffect
    rw [h.phase]
    cases hp : e.phase with
    | body => exact absurd hp hbody
    | unused3 => exact .none
    | idle =>
      cases beatKind t with
      | hdr => exact .some ⟨⟨rfl, h.err, fun _ => by simp [h.err]⟩, rfl⟩
      | pix | pixl => exact .some ⟨⟨rfl, rfl, nofun⟩, rfl⟩
      | close => exact hend
    | drain =>
      cases beatKind t with
      | hdr | pix | pixl => exact .some ⟨h, rfl⟩
      | close => exact hend

/-! ### States no output tells apart -/

/-- The state with both units' registers replaced. -/
def State.withRegs (s : State) (d : DecRegs) (e : EncRegs) : State := { s with dec := d, enc := e }

/-- A state that differs from `s` in its units' registers only, and there in what no output depends on. -/
def State.Agrees (s s' : State) : Prop := ∃ d e, DecAgree s.dec d ∧ EncAgree s.enc e ∧ s' = s.withRegs d e

/-- Two answers that are next states that agree, or the same refusal. -/
inductive AnswersAgree : Answer → Answer → Prop
  | next {t t' : State} (h : t.Agrees t') : AnswersAgree (.next t) (.next t')
  | refused (r : Refusal) : AnswersAgree (.refused r) (.refused r)

theorem AnswersAgree.andThen {o o' : Answer} {f f' : State → Answer} (ho : AnswersAgree o o')
    (hf : ∀ t t', t.Agrees t' → AnswersAgree (f t) (f' t')) :
    AnswersAgree (Machine.andThen o f) (Machine.andThen o' f') := by
  cases ho with
  | next ht => exact hf _ _ ht
  | refused r => exact .refused r

section
variable {s : State} {d : DecRegs} {e : EncRegs}

theorem applyDec_agree {o o' : Option (DecRegs × List GridBeat)} (ho : DecEffectsAgree o o')
    (he : EncAgree s.enc e) : AnswersAgree (applyDec s o) (applyDec (s.withRegs d e) o') := by
  cases ho with
  | none => exact .refused _
  | some hp =>
    obtain ⟨hregs, hbeats⟩ := hp
    exact .next ⟨_, e, hregs, he, by rw [hbeats]; rfl⟩

theorem applyEnc_agree {o o' : Option (EncRegs × List ByteBeat)} (ho : EncEffectsAgree o o')
    (hd : DecAgree s.dec d) : AnswersAgree (applyEnc s o) (applyEnc (s.withRegs d e) o') := by
  cases ho with
  | none => exact .refused _
  | some hp =>
    obtain ⟨hregs, hbeats⟩ := hp
    exact .next ⟨d, _, hd, hregs, by rw [hbeats]; rfl⟩

end

section
variable {s s' : State} (h : s.Agrees s')
include h

theorem State.Agrees.attempt (u : UnitId) : Option.Rel AnswersAgree (s.attempt u) (s'.attempt u) := by
  obtain ⟨d, e, hd, he, rfl⟩ := h
  cases u with
  | dec =>
    cases hin : s.decIn with
    | nil =>
      rw [attempt_dec_nil hin, attempt_dec_nil (s := s.withRegs d e) hin]
      exact .none
    | cons b bs =>
      rw [attempt_dec_cons hin, attempt_dec_cons (s := s.withRegs d e) hin]
      exact .some (applyDec_agree (decBeatEffect_agree hd s.cfg b) he)
  | enc =>
    cases hin : s.encIn with
    | nil =>
      rw [attempt_enc_nil hin, attempt_enc_nil (s := s.withRegs d e) hin]
      exact .none
    | cons b bs =>
      rw [attempt_enc_cons hin, attempt_enc_cons (s := s.withRegs d e) hin]
      exact .some (applyEnc_agree (encBeatEffect_agree he b) hd)

theorem roomFor_agree {t t' : State} (ht : t.Agrees t') (u : UnitId) : s'.roomFor u t' = s.roomFor u t := by
  obtain ⟨d, e, -, -, rfl⟩ := h
  obtain ⟨d, e, -, -, rfl⟩ := ht
  cases u <;> rfl

/-- Whether a unit can move does not depend on the registers that started apart, so the same unit moves in both states. -/
theorem ready_agree (u : UnitId) : s'.ready u = s.ready u := by
  rw [ready_eq_attempt, ready_eq_attempt]
  have ho := h.attempt u
  generalize s.attempt u = o, s'.attempt u = o' at ho
  cases ho with
  | none => rfl
  | some ho =>
    cases ho with
    | next ht => exact roomFor_agree h ht u
    | refused r => rfl

theorem settle_agree {o o' : Answer} (ho : AnswersAgree o o') (u : UnitId) :
    AnswersAgree (s.settle u o) (s'.settle u o') := by
  cases ho with
  | next ht =>
    rw [settle_next, settle_next, roomFor_agree h ht u]
    split_ifs
    · exact .next ht
    · exact .next h
  | refused r => exact .refused r

theorem stepUnit_agree (u : UnitId) : AnswersAgree (stepUnit u s) (stepUnit u s') := by
  rw [stepUnit_eq_attempt, stepUnit_eq_attempt]
  have ho := h.attempt u
  generalize s.attempt u = o, s'.attempt u = o' at ho
  cases ho with
  | none => exact .next h
  | some ho => exact settle_agree h ho u

theorem step_agree : AnswersAgree (step s) (step s') := by
  have hready := ready_agree h
  obtain ⟨d, e, hd, he, rfl⟩ := id h
  cases hr : s.rst with
  | true =>
    rw [step_rst s hr, step_rst (s.withRegs d e) hr]
    exact .next ⟨DecRegs.reset, EncRegs.reset, ⟨rfl, rfl, rfl, trivial⟩, .refl _, rfl⟩
  | false =>
    cases hdec : s.ready .dec with
    | false =>
      rw [step_dec_stopped hr hdec, step_dec_stopped (s := s.withRegs d e) hr ((hready .dec).trans hdec)]
      exact stepUnit_agree h .enc
    | true =>
      cases henc : s.ready .enc with
      | false =>
        rw [step_enc_stopped hr henc, step_enc_stopped (s := s.withRegs d e) hr ((hready .enc).trans henc)]
        exact stepUnit_agree h .dec
      | true =>
        rw [step_ready_both hr hdec henc, step_ready_both (s := s.withRegs d e) hr ((hready .dec).trans hdec)
          ((hready .enc).trans henc)]
        exact stepUnit_agree (s := { s with arb := s.arb.moved s.arb.pick }) ⟨d, e, hd, he, rfl⟩ s.arb.pick

theorem run_agree (n : Nat) : AnswersAgree (run n s) (run n s') := by
  induction n generalizing s s' with
  | zero => exact .next h
  | succ n ih =>
    rw [run_succ, run_succ]
    exact (step_agree h).andThen fun t t' ht => ih ht

end

/-- Settles O42: a phase reads one of the nine registers only after the frame has written it, so every step, and with it
every run, keeps the two states in agreement. -/
theorem outputsDoNotDependOnOtherResetValues : Obligations.OutputsDoNotDependOnOtherResetValues := by
  intro s s' t n hmagic _ hidle hs' hrun
  have hdec : DecAgree s.dec s'.dec := ⟨by rw [hs'], by rw [hs'], by rw [hs'], by rw [hmagic]; trivial⟩
  have henc : EncAgree s.enc s'.enc := ⟨by rw [hs'], by rw [hs'], fun hbody => nomatch hidle.symm.trans hbody⟩
  have hregs : s' = s.withRegs s'.dec s'.enc := by rw [hs']; rfl
  have hruns := run_agree ⟨_, _, hdec, henc, hregs⟩ n
  rw [hrun] at hruns
  generalize run n s' = o' at hruns
  cases hruns with
  | next ht =>
    obtain ⟨d, e, -, -, rfl⟩ := ht
    exact ⟨_, rfl, rfl, rfl⟩

end Sys2Proof.Machine
end

section
/-! SUPPORT. A port's beats as their fields, and the beats that close a frame as numbers. -/

namespace Sys2Proof.Machine

/-- A byte-port beat is made of its two fields (R74). -/
theorem byteBeat_fields (t : ByteBeat) : byteBeat (beatEof t) (beatData t) = t := by
  apply BitVec.eq_of_getLsbD_eq
  intro i hi
  simp only [byteBeat, beatEof, beatData, BitVec.getLsbD_append, BitVec.getLsbD_ofBool, BitVec.getLsbD_setWidth]
  by_cases h : i < 8
  · simp [h]
  · obtain rfl : i = 8 := by omega
    simp

theorem kindCode_kindOfCode (c : BitVec 2) : kindCode (kindOfCode c) = c := by
  revert c; decide

/-- A grid-port beat is made of its two fields (R76). -/
theorem gridBeat_fields (t : GridBeat) : gridBeat (beatKind t) (beatPayload t) = t := by
  rw [gridBeat, beatKind, beatPayload, kindCode_kindOfCode]
  apply BitVec.eq_of_getLsbD_eq
  intro i hi
  simp only [BitVec.getLsbD_append, BitVec.getLsbD_setWidth, BitVec.getLsbD_ushiftRight]
  by_cases h : i < 64
  · simp [h]
  · simp [h, show i - 64 < 2 by omega, show 64 + (i - 64) = i by omega]

/-- The beat of a `STAT` as a number (R75). -/
theorem gridTokWord_stat (c : BitVec 4) : gridTokWord (.stat c) = gridWordOf 3 c.toNat := by
  revert c; decide

/-- The beat of an `EOF` on `enc_out` as a number (R77). -/
theorem byteTokWord_eof (c : BitVec 4) : byteTokWord (.eof c) = BitVec.ofNat 9 (256 + c.toNat) := by
  revert c; decide

end Sys2Proof.Machine
end

section
/-! SUPPORT. What a beat can do in a drain phase, and the obligation about it. -/

namespace Sys2Proof.Machine

/-- In `D_DRAIN` a beat has no effect but for an `EOF`, which closes the frame with the latched code (R105, R106). -/
theorem decBeatEffect_drain {d : DecRegs} (hp : d.phase = .drain) (b : ByteBeat) (c : Config) :
    decBeatEffect b c d =
      if beatEof b then some (DecRegs.reset, [gridTokWord (.stat d.err)]) else some (d, []) := by
  simp [decBeatEffect, eofEffect, decEofCode, byteEffect, hp]

/-- In `E_DRAIN` a beat has no effect but for an `END`, which closes the grid with the latched code (R134, R135). -/
theorem encBeatEffect_drain {e : EncRegs} (hp : e.phase = .drain) (b : GridBeat) :
    encBeatEffect b e =
      if beatKind b = .close then some (EncRegs.reset, [byteTokWord (.eof e.err)]) else some (e, []) := by
  cases hk : beatKind b <;> simp [encBeatEffect, endEffect, encEndCode, hp, hk]

/-- Settles O33: in a drain phase only the closing beat has an effect. -/
theorem firstErrorIsKeptAndReported : Obligations.FirstErrorIsKeptAndReported := by
  refine ⟨fun s t hp h => ?_, fun s t hp h => ?_⟩
  · obtain rfl | ⟨b, d, beats, hin, heff, ht⟩ := stepUnit_dec_frame h
    · exact .inl ⟨rfl, rfl⟩
    · rw [decBeatEffect_drain hp] at heff
      split at heff
      case isTrue heof =>
        cases heff
        exact .inr ⟨by rw [ht], by rw [ht, gridTokWord_stat], beatData b,
          by rw [hin, ← heof, byteBeat_fields, List.head?_cons]⟩
      case isFalse =>
        cases heff
        exact .inl ⟨by rw [ht], by rw [ht, List.append_nil]⟩
  · obtain rfl | ⟨b, e, beats, hin, heff, ht⟩ := stepUnit_enc_frame h
    · exact .inl ⟨rfl, rfl⟩
    · rw [encBeatEffect_drain hp] at heff
      split at heff
      case isTrue hend =>
        cases heff
        exact .inr ⟨by rw [ht], by rw [ht, byteTokWord_eof], beatPayload b,
          by rw [hin, ← hend, gridBeat_fields, List.head?_cons]⟩
      case isFalse =>
        cases heff
        exact .inl ⟨by rw [ht], by rw [ht, List.append_nil]⟩

end Sys2Proof.Machine
end

section
/-! SUPPORT. The registers an operation writes, by its effect, and the obligation about them. -/

namespace Sys2Proof.Machine

/-- A `DEC` meaning that answers a next state had an effect, and the state is that effect's. -/
theorem applyDec_eq_next {s t : State} {o : Option (DecRegs × List GridBeat)} (h : applyDec s o = .next t) :
    ∃ beats, o = some (t.dec, beats) ∧ t.decOut = s.decOut ++ beats := by
  cases o with
  | none => cases h
  | some p => cases h; exact ⟨p.2, rfl, rfl⟩

theorem applyEnc_eq_next {s t : State} {o : Option (EncRegs × List ByteBeat)} (h : applyEnc s o = .next t) :
    ∃ beats, o = some (t.enc, beats) ∧ t.encOut = s.encOut ++ beats := by
  cases o with
  | none => cases h
  | some p => cases h; exact ⟨p.2, rfl, rfl⟩

section
variable {b : Byte} {c : Config} {d d' : DecRegs} {beats : List GridBeat}

/-- `DEC.MAGIC` writes `d_phase`, `d_idx` and, where it raises, `d_err` (R101). -/
theorem magicEffect_writes (h : magicEffect b c d = some (d', beats)) :
    d' = { d with phase := d'.phase, idx := d'.idx, err := d'.err } ∧ beats = [] ∧
    (d'.phase ≠ .drain → d'.err = d.err) := by
  unfold magicEffect at h
  split_ifs at h
  · cases h; exact ⟨rfl, rfl, fun hp => absurd rfl hp⟩
  · cases h; exact ⟨rfl, rfl, fun _ => rfl⟩
  · cases h; exact ⟨rfl, rfl, fun _ => rfl⟩

/-- `DEC.WIDTH` writes `d_phase`, `d_idx` and `d_w` (R102). -/
theorem widthEffect_writes (h : widthEffect b c d = some (d', beats)) :
    d' = { d with phase := d'.phase, idx := d'.idx, w := d'.w } ∧ beats = [] := by
  unfold widthEffect at h
  split_ifs at h
  · cases h; exact ⟨rfl, rfl⟩
  · cases h; exact ⟨rfl, rfl⟩

/-- `DEC.HEIGHT` leaves `d_w` and `d_sh`. Beyond `d_h` and `d_idx` it writes nothing before the fourth byte, and then
either raises or starts the payload (R103). -/
theorem heightEffect_writes (h : heightEffect b c d = some (d', beats)) :
    d'.w = d.w ∧ d'.sh = d.sh ∧ (d.idx ≠ 3 ∨ d'.phase ≠ .drain → d'.err = d.err) ∧
    (d'.rem = d.rem ∧ d'.col = d.col ∧ beats = [] ∨ d.idx = 3 ∧ d'.phase = .pay ∧ d'.err = d.err) := by
  unfold heightEffect at h
  split_ifs at h with hidx
  · cases h; exact ⟨rfl, rfl, fun _ => rfl, .inl ⟨rfl, rfl, rfl⟩⟩
  · cases h; exact ⟨rfl, rfl, fun hn => absurd rfl (hn.resolve_left hidx), .inl ⟨rfl, rfl, rfl⟩⟩
  · cases h; exact ⟨rfl, rfl, fun _ => rfl, .inr ⟨not_not.mp hidx, rfl, rfl⟩⟩

/-- `DEC.PAY` leaves `d_w` and `d_h`, and leaves `d_phase` and `d_err` too unless a byte trails, where it writes no other
register and sends nothing (R104). -/
theorem payEffect_writes (h : payEffect b c d = some (d', beats)) :
    d'.w = d.w ∧ d'.h = d.h ∧
    (d'.err = d.err ∧ d'.phase = d.phase ∨
      d.rem = 0 ∧ d' = { d with err := statusCode .trailingData, phase := .drain } ∧ beats = []) := by
  unfold payEffect at h
  split_ifs at h with hrem
  · cases h; exact ⟨rfl, rfl, .inr ⟨hrem, rfl, rfl⟩⟩
  all_goals cases h; exact ⟨rfl, rfl, .inl ⟨rfl, rfl⟩⟩

end

section
variable {p : Pixel} {e e' : EncRegs} {beats : List ByteBeat}

/-- `ENC.PIX` leaves `e_w` and `e_h`, and `e_err` where it does not raise (R132). -/
theorem pixEffect_writes (h : pixEffect p e = some (e', beats)) :
    e'.w = e.w ∧ e'.h = e.h ∧ (e'.phase ≠ .drain → e'.err = e.err) := by
  unfold pixEffect at h
  split_ifs at h
  · cases h; exact ⟨rfl, rfl, fun hp => absurd rfl hp⟩
  · cases h; exact ⟨rfl, rfl, fun _ => rfl⟩

/-- `ENC.PIXL` writes what `ENC.PIX` writes (R133). -/
theorem pixlEffect_writes (h : pixlEffect p e = some (e', beats)) :
    e'.w = e.w ∧ e'.h = e.h ∧ (e'.phase ≠ .drain → e'.err = e.err) := by
  unfold pixlEffect at h
  split_ifs at h
  · cases h; exact ⟨rfl, rfl, fun hp => absurd rfl hp⟩
  · cases h; exact ⟨rfl, rfl, fun _ => rfl⟩

end

/-- Settles O31: each meaning is its effect on the unit's registers, and each effect writes no more than its rule says. -/
theorem registersChangeOnlyByTheirWriters : Obligations.RegistersChangeOnlyByTheirWriters := by
  refine ⟨fun b s t h => ?magic, fun b s t h => ?width, fun b s t h => ?height, fun b s t h => ?pay,
    fun w h s t hx => ?hdr, fun p s t h => ?pixel, fun k p s t h => ?viol⟩
  case magic =>
    obtain ⟨beats, heff, hout⟩ := applyDec_eq_next ((execDecMagic_eq b s).symm.trans h)
    obtain ⟨hd, rfl, herr⟩ := magicEffect_writes heff
    rw [hout, List.append_nil]
    exact ⟨by rw [hd], by rw [hd], by rw [hd], by rw [hd], by rw [hd], rfl, herr⟩
  case width =>
    obtain ⟨beats, heff, hout⟩ := applyDec_eq_next ((execDecWidth_eq b s).symm.trans h)
    obtain ⟨hd, rfl⟩ := widthEffect_writes heff
    rw [hout, List.append_nil]
    exact ⟨by rw [hd], by rw [hd], by rw [hd], by rw [hd], by rw [hd], rfl⟩
  case height =>
    obtain ⟨beats, heff, hout⟩ := applyDec_eq_next ((execDecHeight_eq b s).symm.trans h)
    obtain ⟨hw, hsh, herr, hrest⟩ := heightEffect_writes heff
    refine ⟨hw, hsh, herr, hrest.imp_left fun ⟨hrem, hcol, hbeats⟩ => ⟨hrem, hcol, ?_⟩⟩
    rw [hout, hbeats, List.append_nil]
  case pay =>
    obtain ⟨beats, heff, hout⟩ := applyDec_eq_next ((execDecPay_eq b s).symm.trans h)
    obtain ⟨hw, hh, hrest⟩ := payEffect_writes heff
    refine ⟨hw, hh, hrest.imp_right fun ⟨hrem, hd, hbeats⟩ => ⟨hrem, hd, ?_⟩⟩
    rw [hout, hbeats, List.append_nil]
  case hdr =>
    cases hx
    rfl
  case pixel =>
    rcases h with h | h
    · obtain ⟨beats, heff, -⟩ := applyEnc_eq_next ((execEncPix_eq p s).symm.trans h)
      exact pixEffect_writes heff
    · obtain ⟨beats, heff, -⟩ := applyEnc_eq_next ((execEncPixl_eq p s).symm.trans h)
      exact pixlEffect_writes heff
  case viol =>
    cases h
    exact ⟨rfl, rfl, rfl, rfl, rfl⟩

end Sys2Proof.Machine
end

section
/-! SUPPORT. The invariant right after reset. -/

namespace Sys2Proof.Machine

/-- Settles O45: both units are between frames, with no code latched. -/
theorem stateAfterResetMeetsTheInvariant : Obligations.StateAfterResetMeetsTheInvariant := ⟨rfl, rfl⟩

end Sys2Proof.Machine
end

section
/-! SUPPORT. Schedules of the two units, and the obligation that only the numbers of their steps matter. -/

namespace Sys2Proof.Machine

/-- From reachable phases a unit's step answers, and the phases stay reachable. -/
theorem stepUnit_reachable (u : UnitId) {s : State} (hs : s.phasesReachable) :
    ∃ t, stepUnit u s = .next t ∧ t.phasesReachable := by
  obtain ⟨hd, he⟩ := hs
  cases u with
  | dec =>
    obtain ⟨d, ins, outs, hd', hstep⟩ := stepUnit_dec_withEnc s hd
    exact ⟨_, hstep s.enc s.encIn s.encOut, hd', he⟩
  | enc =>
    obtain ⟨e, ins, outs, he', hstep⟩ := stepUnit_enc_withDec s he
    exact ⟨_, hstep s.dec s.decIn s.decOut, hd, he'⟩

/-- Two steps after each other lead to the same answer in either order. -/
theorem stepUnit_comm (u v : UnitId) {s : State} (hs : s.phasesReachable) :
    andThen (stepUnit u s) (stepUnit v) = andThen (stepUnit v s) (stepUnit u) := by
  obtain ⟨t, hdec, henc⟩ := stepsOfTheTwoUnitsCommute s hs
  cases u <;> cases v
  case dec.enc => exact hdec.trans henc.symm
  case enc.dec => exact henc.trans hdec.symm
  all_goals rfl

theorem runSchedule_cons (u : UnitId) (us : List UnitId) (s : State) :
    runSchedule (u :: us) s = andThen (stepUnit u s) (runSchedule us) := rfl

/-- From reachable phases every schedule answers a next state. -/
theorem runSchedule_next (us : List UnitId) {s : State} (hs : s.phasesReachable) :
    ∃ t, runSchedule us s = .next t := by
  induction us generalizing s with
  | nil => exact ⟨s, rfl⟩
  | cons u us ih =>
    obtain ⟨t, hstep, ht⟩ := stepUnit_reachable u hs
    rw [runSchedule_cons, hstep, andThen_next]
    exact ih ht

/-- From reachable phases the answer of a schedule does not depend on its order. -/
theorem runSchedule_perm {us vs : List UnitId} (h : us.Perm vs) {s : State} (hs : s.phasesReachable) :
    runSchedule us s = runSchedule vs s := by
  induction h generalizing s with
  | nil => rfl
  | cons u _ ih =>
    obtain ⟨t, hstep, ht⟩ := stepUnit_reachable u hs
    rw [runSchedule_cons, runSchedule_cons, hstep, andThen_next, andThen_next, ih ht]
  | swap u v ws =>
    calc runSchedule (v :: u :: ws) s
        = andThen (andThen (stepUnit v s) (stepUnit u)) (runSchedule ws) := (andThen_assoc _ _ _).symm
      _ = andThen (andThen (stepUnit u s) (stepUnit v)) (runSchedule ws) := by rw [stepUnit_comm v u hs]
      _ = runSchedule (u :: v :: ws) s := andThen_assoc _ _ _
  | trans _ _ ih₁ ih₂ => exact (ih₁ hs).trans (ih₂ hs)

/-- Settles O41: neighbouring steps of a schedule may be swapped, since the units' steps commute. -/
theorem interleavingDoesNotMatter : Obligations.InterleavingDoesNotMatter := by
  intro s us vs hs hperm
  obtain ⟨t, ht⟩ := runSchedule_next us hs
  exact ⟨t, ht, runSchedule_perm hperm hs ▸ ht⟩

end Sys2Proof.Machine
end

section
/-! SUPPORT. The big-endian value of bytes, which `memRead` reads, `beOf` assembles and `natBytes` writes (R15, R16,
R73). -/

namespace Sys2Proof.Machine

/-- The big-endian value of bytes as a number. -/
def beNat (bytes : List Byte) : Nat := bytes.foldl (fun acc b => acc * 256 + b.toNat) 0

theorem beNat_nil : beNat [] = 0 := rfl

theorem beNat_append_singleton (bytes : List Byte) (b : Byte) : beNat (bytes ++ [b]) = beNat bytes * 256 + b.toNat := by
  simp [beNat]

theorem memRead_eq (f : List Byte) (off k : Nat) : memRead f off k = beNat ((f.drop off).take k) := rfl

/-- All the bytes of a field, read from its start. -/
theorem memRead_all {bytes : List Byte} {k : Nat} (h : bytes.length = k) : memRead bytes 0 k = beNat bytes := by
  rw [memRead_eq, List.drop_zero, ← h, List.take_length]

/-- A field read where it stands. -/
theorem memRead_of_prefix {f field : List Byte} {off k : Nat} (h : field <+: f.drop off) (hk : field.length = k) :
    memRead f off k = beNat field := by
  rw [memRead_eq, ← hk, ← List.prefix_iff_eq_take.mp h]

theorem beNat_lt (bytes : List Byte) : beNat bytes < 256 ^ bytes.length := by
  induction bytes using List.reverseRecOn with
  | nil => exact Nat.one_pos
  | append_singleton bytes b ih =>
    have hb := b.isLt
    rw [beNat_append_singleton, List.length_append, List.length_singleton, Nat.pow_succ]
    omega

/-- The shift register holds the value of the bytes shifted in, cut to its width (R14). -/
theorem beOf_toNat_mod {n : Nat} (hn : 8 ≤ n) (bytes : List Byte) : (beOf n bytes).toNat = beNat bytes % 2 ^ n := by
  induction bytes using List.reverseRecOn with
  | nil => simp [beOf, beNat_nil]
  | append_singleton bytes b ih =>
    have hshift : beOf n (bytes ++ [b]) = shiftIn (beOf n bytes) b := by simp [beOf]
    rw [hshift, shiftIn_toNat hn, ih, beNat_append_singleton]
    exact ((Nat.mod_modEq _ _).mul_right 256).add_right b.toNat

/-- A register as wide as the bytes shifted in holds their value (R73). -/
theorem beOf_toNat {n k : Nat} {bytes : List Byte} (hk : bytes.length = k) (hn : n = 8 * k) (hpos : 0 < k) :
    (beOf n bytes).toNat = memRead bytes 0 k := by
  have hlt : beNat bytes < 2 ^ n := by
    rw [hn, Nat.pow_mul, ← hk]
    exact beNat_lt bytes
  rw [beOf_toNat_mod (by omega), memRead_all hk, Nat.mod_eq_of_lt hlt]

@[simp] theorem natBytes_length (k v : Nat) : (natBytes k v).length = k := by simp [natBytes]

/-- The last byte written is the lowest (R16). -/
theorem natBytes_succ (k v : Nat) : natBytes (k + 1) v = natBytes k (v / 256) ++ [BitVec.ofNat 8 v] := by
  have hbyte : ∀ i ∈ List.range k,
      BitVec.ofNat 8 (v / 256 ^ (k + 1 - 1 - i)) = BitVec.ofNat 8 (v / 256 / 256 ^ (k - 1 - i)) := by
    intro i hi
    have hi := List.mem_range.mp hi
    rw [Nat.div_div_eq_div_mul, ← Nat.pow_succ', show (k - 1 - i).succ = k + 1 - 1 - i by omega]
  rw [natBytes, List.range_succ, List.map_append, List.map_congr_left hbyte]
  simp [natBytes]

/-- The bytes written of a number have the number as their value, cut to their size. -/
theorem beNat_natBytes (k v : Nat) : beNat (natBytes k v) = v % 256 ^ k := by
  induction k generalizing v with
  | zero => rw [Nat.pow_zero, Nat.mod_one]; rfl
  | succ k ih =>
    rw [natBytes_succ, beNat_append_singleton, ih, BitVec.toNat_ofNat, pow_succ' 256 k, Nat.mod_mul]
    omega

/-- A number that fits its field is read back where the field stands (R15, R16). -/
theorem memRead_natBytes {f : List Byte} {off k v : Nat} (h : natBytes k v <+: f.drop off) (hv : v < 256 ^ k) :
    memRead f off k = v := by
  rw [memRead_of_prefix h (natBytes_length k v), beNat_natBytes, Nat.mod_eq_of_lt hv]

end Sys2Proof.Machine
end

section
/-! SUPPORT. What an encoded frame is made of and where its parts stand, and the obligation about it (R50, R51,
R162). -/

namespace Sys2Proof.Machine

/-! ### Parts of a list of bytes -/

/-- What stands in a part of a list stands in the list. -/
theorem isPrefix_drop_trans {α : Type} {whole part field : List α} {m n : Nat} (hpart : part <+: whole.drop m)
    (hfield : field <+: part.drop n) : field <+: whole.drop (m + n) := by
  rw [← List.drop_drop]
  exact hfield.trans (hpart.drop n)

/-- Blocks of one length, one after another: how long they are together. -/
theorem length_flatMap_blocks {α β : Type} {block : α → List β} {n : Nat} {l : List α}
    (hlen : ∀ a ∈ l, (block a).length = n) : (l.flatMap block).length = n * l.length := by
  rw [List.length_flatMap, List.map_congr_left hlen, List.map_const', List.sum_replicate, smul_eq_mul, Nat.mul_comm]

/-- Blocks of one length, one after another: where each begins. -/
theorem block_prefix_flatMap {α β : Type} {block : α → List β} {n : Nat} {l : List α}
    (hlen : ∀ a ∈ l, (block a).length = n) {i : Nat} {a : α} (hi : l[i]? = some a) :
    block a <+: (l.flatMap block).drop (n * i) := by
  obtain ⟨hlt, rfl⟩ := List.getElem?_eq_some_iff.mp hi
  have hbefore : ((l.take i).flatMap block).length = n * i := by
    rw [length_flatMap_blocks fun a ha => hlen a (List.mem_of_mem_take ha), List.length_take_of_le hlt.le]
  have hsplit : l.flatMap block = (l.take i).flatMap block ++ (block l[i] ++ (l.drop (i + 1)).flatMap block) := by
    rw [← List.flatMap_cons, ← List.drop_eq_getElem_cons hlt, ← List.flatMap_append, List.take_append_drop]
  rw [hsplit, List.drop_left' hbefore]
  exact List.prefix_append _ _

/-! ### The parts of a frame -/

/-- A grid that `encode` accepts is regular, its dimensions fit, and the frame is the header and the pixels (R162). -/
theorem encodeFrame_eq_ok {g : List (List IntPixel)} {f : List Byte} (h : encodeFrame g = .ok f) :
    regular (derivedWidth g) g.length g = true ∧ derivedWidth g < 2 ^ 32 ∧ g.length < 2 ^ 32 ∧
    f = magicBytes ++ natBytes 4 (derivedWidth g) ++ natBytes 4 g.length ++
      g.flatMap fun row => row.flatMap intPixelBytes := by
  unfold encodeFrame at h
  simp only at h
  split_ifs at h with hreg hdim hchan
  cases h
  obtain ⟨hw, hh⟩ := not_or.mp hdim
  exact ⟨hreg, Nat.lt_of_not_le hw, Nat.lt_of_not_le hh, rfl⟩

theorem regular_row_length {α : Type} {w h : Nat} {g : List (List α)} (hreg : regular w h g = true) {row : List α}
    (hrow : row ∈ g) : row.length = w := by
  simp only [regular, Bool.and_eq_true, List.all_eq_true, beq_iff_eq] at hreg
  exact hreg.2 row hrow

@[simp] theorem intGrid_length (g : Grid) : (intGrid g).length = g.length := List.length_map _

@[simp] theorem derivedWidth_intGrid (g : Grid) : derivedWidth (intGrid g) = derivedWidth g := by
  cases g with
  | nil => rfl
  | cons row g => exact List.length_map _

theorem magicBytes_length : magicBytes.length = 8 := beBytes_length 8 magic64

/-- Where the fields of the header and the pixels stand in an encoded frame (R50). -/
theorem encodeFrame_parts {g : List (List IntPixel)} {f : List Byte} (h : encodeFrame g = .ok f) :
    f.take 8 = magicBytes ∧ natBytes 4 (derivedWidth g) <+: f.drop 8 ∧ natBytes 4 g.length <+: f.drop 12 ∧
    f.drop 16 = g.flatMap fun row => row.flatMap intPixelBytes := by
  obtain ⟨-, -, -, rfl⟩ := encodeFrame_eq_ok h
  simp only [List.append_assoc]
  refine ⟨List.take_left' magicBytes_length, ?width, ?height, ?pixels⟩
  case width =>
    rw [List.drop_left' magicBytes_length]
    exact List.prefix_append _ _
  case height =>
    rw [← List.append_assoc, List.drop_left' (by simp [magicBytes_length])]
    exact List.prefix_append _ _
  case pixels =>
    rw [← List.append_assoc, ← List.append_assoc, List.drop_left' (by simp [magicBytes_length])]

/-- A pixel's channels, two bytes each, in the order of R51. -/
theorem intPixelBytes_eq_flatMap (p : Pixel) :
    intPixelBytes (intPixel p) = [p.r, p.g, p.b, p.a].flatMap fun v => natBytes 2 v.toNat := by
  simp [intPixelBytes, intPixel]

theorem intPixelBytes_length (p : IntPixel) : (intPixelBytes p).length = 8 := by simp [intPixelBytes]

/-- A row's pixels take eight bytes each (R51). -/
theorem rowBytes_length (row : List IntPixel) : (row.flatMap intPixelBytes).length = 8 * row.length :=
  length_flatMap_blocks fun p _ => intPixelBytes_length p

/-- The rows of an accepted grid take `8 * W` bytes each (R51). -/
theorem encodeFrame_rowBytes_length {g : List (List IntPixel)} {f : List Byte} (h : encodeFrame g = .ok f) :
    ∀ row ∈ g, (row.flatMap intPixelBytes).length = 8 * derivedWidth g := by
  obtain ⟨hreg, -⟩ := encodeFrame_eq_ok h
  intro row hrow
  rw [rowBytes_length, regular_row_length hreg hrow]

/-- The length of an encoded frame (R50, R51). -/
theorem encodeFrame_length {g : List (List IntPixel)} {f : List Byte} (h : encodeFrame g = .ok f) :
    f.length = 16 + 8 * derivedWidth g * g.length := by
  obtain ⟨-, -, -, hf⟩ := encodeFrame_eq_ok h
  simp only [hf, List.length_append, magicBytes_length, natBytes_length,
    length_flatMap_blocks (encodeFrame_rowBytes_length h)]

/-- Where a pixel's bytes stand in an encoded frame (R51). -/
theorem pixel_prefix_encodeFrame {g : List (List IntPixel)} {f : List Byte} (h : encodeFrame g = .ok f) {y x : Nat}
    {row : List IntPixel} {p : IntPixel} (hrow : g[y]? = some row) (hp : row[x]? = some p) :
    intPixelBytes p <+: f.drop (16 + 8 * (y * derivedWidth g + x)) := by
  obtain ⟨-, -, -, hpixels⟩ := encodeFrame_parts h
  have hinRow := block_prefix_flatMap (fun p _ => intPixelBytes_length p) hp
  have hinGrid := block_prefix_flatMap (encodeFrame_rowBytes_length h) hrow
  have hoff : 8 * (y * derivedWidth g + x) = 8 * derivedWidth g * y + 8 * x := by ring
  rw [hoff, ← List.drop_drop, hpixels]
  exact isPrefix_drop_trans hinGrid hinRow

/-- Each channel of a pixel is read two bytes after the one before it (R51). -/
theorem memRead_channel {f : List Byte} {off i : Nat} {p : Pixel} {v : BitVec 16}
    (h : intPixelBytes (intPixel p) <+: f.drop off) (hv : [p.r, p.g, p.b, p.a][i]? = some v) :
    memRead f (off + 2 * i) 2 = v.toNat := by
  rw [intPixelBytes_eq_flatMap] at h
  have hchannel := block_prefix_flatMap (block := fun v : BitVec 16 => natBytes 2 v.toNat)
    (fun v _ => natBytes_length 2 v.toNat) hv
  exact memRead_natBytes (isPrefix_drop_trans h hchannel) v.isLt

/-- Settles O57: the frame is blocks of fixed length, one after another, so every block stands at the sum of the lengths
before it. -/
theorem pixelsStandAtTheirOffsets : Obligations.PixelsStandAtTheirOffsets := by
  intro g f h
  obtain ⟨-, hw, hh, -⟩ := encodeFrame_eq_ok h
  obtain ⟨hmagic, hwidth, hheight, -⟩ := encodeFrame_parts h
  have hlength := encodeFrame_length h
  have hpixel := @pixel_prefix_encodeFrame _ _ h
  simp only [derivedWidth_intGrid, intGrid_length] at hw hh hwidth hheight hlength hpixel
  refine ⟨hlength, hmagic, memRead_natBytes hwidth hw, memRead_natBytes hheight hh, fun y x row p hrow hp => ?_⟩
  have hat := hpixel (y := y) (x := x) (row := row.map intPixel) (p := intPixel p) (by simp [intGrid, hrow])
    (by simp [hp])
  exact ⟨memRead_channel hat (i := 0) rfl, memRead_channel hat (i := 1) rfl, memRead_channel hat (i := 2) rfl,
    memRead_channel hat (i := 3) rfl⟩

end Sys2Proof.Machine
end

section
/-! SUPPORT. What the decoder accepts, format by format, and the obligation about it (R50, R51, R80, R81, R88). -/

namespace Sys2Proof.Machine

open Laws

/-! ### Selectors -/

/-- Every 4-bit number is the selector of some phase and `eof` (R80). -/
theorem exists_dsel (sel : BitVec 4) : ∃ ph eof, dsel ph eof = sel :=
  ⟨dPhaseOfCode ((sel >>> 1).setWidth 3), sel.getLsbD 0, by revert sel; decide⟩

/-- Every 4-bit number is the selector of some phase and kind (R81). -/
theorem exists_esel (sel : BitVec 4) : ∃ ph k, esel ph k = sel :=
  ⟨ePhaseOfCode ((sel >>> 2).setWidth 2), kindOfCode (sel.setWidth 2), by revert sel; decide⟩

/-- The one row of `DEC.EOF` covers the selectors of every reachable phase (R88). -/
theorem decEof_row {ph : DPhase} (hph : dPhaseReachable ph = true) :
    ∃ r ∈ decSelRows, r.mnemonic = "DEC.EOF" ∧ selRowCovers r (dsel ph true) = true := by
  cases ph with
  | magic | width | height | pay | drain => exact ⟨⟨"DEC.EOF", .decSel, 0x1, 0x1⟩, by decide, rfl, by decide⟩
  | unused5 | unused6 | unused7 => cases hph

/-- A `dec_sel` word that decodes is of a row of its instruction: the byte operation of its phase, or `DEC.EOF` (R80,
R88). -/
theorem decode_dec_ok {sel : BitVec 4} {data : Byte} {i : Instr} (h : decode (.dec sel data) = .ok i) :
    i.wellFormed = true ∧ EncodesToOwnRow.rowOf i.mnemonic (.dec sel data) := by
  obtain ⟨ph, eof, rfl⟩ := exists_dsel sel
  cases eof with
  | true =>
    cases ph with
    | unused5 | unused6 | unused7 => cases h
    | magic | width | height | pay | drain => cases h; exact ⟨rfl, decEof_row rfl⟩
  | false =>
    cases ph with
    | magic => cases h; exact ⟨rfl, EncodesToOwnRow.decMagic data rfl⟩
    | width => cases h; exact ⟨rfl, EncodesToOwnRow.decWidth data rfl⟩
    | height => cases h; exact ⟨rfl, EncodesToOwnRow.decHeight data rfl⟩
    | pay => cases h; exact ⟨rfl, EncodesToOwnRow.decPay data rfl⟩
    | drain => cases h; exact ⟨rfl, EncodesToOwnRow.decDrain data rfl⟩
    | unused5 | unused6 | unused7 => cases h

/-- Each selector of an `END` in a reachable phase has a row of `ENC.END` (R81). -/
theorem encEnd_row {ph : EPhase} (hph : ePhaseReachable ph = true) :
    ∃ r ∈ encSelRows, r.mnemonic = "ENC.END" ∧ selRowCovers r (esel ph .close) = true := by
  cases ph with
  | idle => exact EncodesToOwnRow.encEnd 0 rfl
  | body => exact ⟨⟨"ENC.END", .encSel, 0x7, 0xF⟩, by decide, rfl, by decide⟩
  | drain => exact ⟨⟨"ENC.END", .encSel, 0xB, 0xF⟩, by decide, rfl, by decide⟩
  | unused3 => cases hph

/-- An `enc_sel` word that decodes is of a row of its instruction (R81). -/
theorem decode_enc_ok {sel : BitVec 4} {payload : BitVec 64} {i : Instr} (h : decode (.enc sel payload) = .ok i) :
    i.wellFormed = true ∧ EncodesToOwnRow.rowOf i.mnemonic (.enc sel payload) := by
  obtain ⟨ph, k, rfl⟩ := exists_esel sel
  cases ph with
  | idle =>
    cases k with
    | hdr => cases h; exact ⟨rfl, EncodesToOwnRow.encHdr _ _ rfl⟩
    | pix => cases h; exact ⟨rfl, EncodesToOwnRow.encViol .pix payload rfl⟩
    | pixl => cases h; exact ⟨rfl, EncodesToOwnRow.encViol .pixl payload rfl⟩
    | close => cases h; exact ⟨rfl, encEnd_row rfl⟩
  | body =>
    cases k with
    | hdr => cases h; exact ⟨rfl, EncodesToOwnRow.encViol .hdr payload rfl⟩
    | pix => cases h; exact ⟨rfl, EncodesToOwnRow.encPix _ rfl⟩
    | pixl => cases h; exact ⟨rfl, EncodesToOwnRow.encPixl _ rfl⟩
    | close => cases h; exact ⟨rfl, encEnd_row rfl⟩
  | drain =>
    cases k with
    | hdr => cases h; exact ⟨rfl, EncodesToOwnRow.encDrain .hdr payload rfl⟩
    | pix => cases h; exact ⟨rfl, EncodesToOwnRow.encDrain .pix payload rfl⟩
    | pixl => cases h; exact ⟨rfl, EncodesToOwnRow.encDrain .pixl payload rfl⟩
    | close => cases h; exact ⟨rfl, encEnd_row rfl⟩
  | unused3 => cases k <;> cases h

/-! ### Wire fields -/

/-- The fields of the wire format with their places and values: what bytes at an offset may be (R50, R51, R70, R71,
R73). -/
inductive FieldAt (bytes : List Byte) : Nat → Instr → Prop
  | magic (hlen : bytes.length = 8) (hval : beOf 64 bytes = magic64) : FieldAt bytes 0 (.hdrMagic (beOf 64 bytes))
  | width (hlen : bytes.length = 4) : FieldAt bytes 8 (.hdrWidth (beOf 32 bytes))
  | height (hlen : bytes.length = 4) : FieldAt bytes 12 (.hdrHeight (beOf 32 bytes))
  | red (hlen : bytes.length = 2) (k : Nat) : FieldAt bytes (16 + 8 * k) (.pixelR (beOf 16 bytes))
  | green (hlen : bytes.length = 2) (k : Nat) : FieldAt bytes (16 + 8 * k + 2) (.pixelG (beOf 16 bytes))
  | blue (hlen : bytes.length = 2) (k : Nat) : FieldAt bytes (16 + 8 * k + 4) (.pixelB (beOf 16 bytes))
  | alpha (hlen : bytes.length = 2) (k : Nat) : FieldAt bytes (16 + 8 * k + 6) (.pixelA (beOf 16 bytes))

/-- Bytes that decode are a field of the wire format. -/
theorem decode_wire_ok {off : Nat} {bytes : List Byte} {i : Instr} (h : decode (.wire off bytes) = .ok i) :
    FieldAt bytes off i := by
  simp only [decode, decodeWire] at h
  split_ifs at h with hmagic hval hwidth hheight hchannel
  · cases h; obtain ⟨rfl, hlen⟩ := hmagic; exact .magic hlen hval
  · cases h; obtain ⟨rfl, hlen⟩ := hwidth; exact .width hlen
  · cases h; obtain ⟨rfl, hlen⟩ := hheight; exact .height hlen
  · obtain ⟨hoff, hlen⟩ := hchannel
    obtain ⟨j, rfl⟩ := Nat.exists_eq_add_of_le hoff
    have hj := Nat.div_add_mod j 8
    rw [Nat.add_sub_cancel_left] at h
    split at h
    case h_1 hmod => cases h; rw [← hj, hmod]; exact .red hlen _
    case h_2 hmod => cases h; rw [← hj, hmod]; exact .green hlen _
    case h_3 hmod => cases h; rw [← hj, hmod]; exact .blue hlen _
    case h_4 hmod => cases h; rw [← hj, hmod]; exact .alpha hlen _
    case h_5 => cases h

/-- A wire field is well formed, the magic because it was compared (R70, R82). -/
theorem FieldAt.wellFormed {bytes : List Byte} {off : Nat} {i : Instr} (h : FieldAt bytes off i) :
    i.wellFormed = true := by
  cases h with
  | magic hlen hval => exact beq_iff_eq.mpr hval
  | width | height | red | green | blue | alpha => rfl

/-- Settles O2: a selector is some phase's with some beat, each with its row, and decoded bytes are one of the fields of
`FieldAt`. -/
theorem decodedWordIsCoveredByItsTableRow : Obligations.DecodedWordIsCoveredByItsTableRow := by
  intro word i h
  cases word with
  | dec sel data =>
    obtain ⟨hwf, r, hr, hmnemonic, hcovers⟩ := decode_dec_ok h
    refine ⟨hwf, ?_, nofun, nofun⟩
    rintro _ _ ⟨⟩
    exact ⟨r, hr, hcovers, hmnemonic⟩
  | enc sel payload =>
    obtain ⟨hwf, r, hr, hmnemonic, hcovers⟩ := decode_enc_ok h
    refine ⟨hwf, nofun, ?_, nofun⟩
    rintro _ _ ⟨⟩
    exact ⟨r, hr, hcovers, hmnemonic⟩
  | wire off bytes =>
    have hfield := decode_wire_ok h
    refine ⟨hfield.wellFormed, nofun, nofun, ?_⟩
    rintro _ _ ⟨⟩
    cases hfield with
    | magic hlen => exact .inl ⟨_, rfl, rfl, hlen, beOf_toNat hlen rfl (by decide)⟩
    | width hlen => exact .inr (.inl ⟨_, rfl, rfl, hlen, beOf_toNat hlen rfl (by decide)⟩)
    | height hlen => exact .inr (.inr (.inl ⟨_, rfl, rfl, hlen, beOf_toNat hlen rfl (by decide)⟩))
    | red hlen k | green hlen k | blue hlen k | alpha hlen k =>
      exact .inr (.inr (.inr ⟨_, k, hlen, beOf_toNat hlen rfl (by decide), by simp⟩))

end Sys2Proof.Machine
end

section
/-! SUPPORT. The words of instructions and the fields of beats as numbers, and the obligations about decoding and layouts
(R70, R71, R75, R77, R80, R81, R88). -/

namespace Sys2Proof.Machine

/-! ### Decoding what was encoded -/

/-- A field of the wire format decodes to its instruction: the converse of `decode_wire_ok`. -/
theorem FieldAt.decode_eq_ok {bytes : List Byte} {off : Nat} {i : Instr} (h : FieldAt bytes off i) :
    decode (.wire off bytes) = .ok i := by
  cases h with
  | magic hlen hval => simp [decode, decodeWire, hlen, hval]
  | width hlen | height hlen => simp [decode, decodeWire, hlen]
  | red hlen k | green hlen k | blue hlen k | alpha hlen k =>
    simp [decode, decodeWire, hlen, Nat.add_assoc]

/-- A wire field is encoded as its bytes at its place (R70, R71, R73). -/
theorem fieldAt_encode {i : Instr} (hi : isWireField i = true) (hwf : i.wellFormed = true) :
    ∃ off bytes, encode i = .wire off bytes ∧ FieldAt bytes off i := by
  cases i with
  | hdrMagic m =>
    obtain rfl : m = magic64 := beq_iff_eq.mp hwf
    exact ⟨0, magicBytes, rfl, .magic (beBytes_length 8 magic64) (beOf_beBytes64 magic64)⟩
  | hdrWidth w => exact ⟨8, beBytes 4 w, rfl,
    by simpa only [beOf_beBytes32] using FieldAt.width (beBytes_length 4 w)⟩
  | hdrHeight h => exact ⟨12, beBytes 4 h, rfl,
    by simpa only [beOf_beBytes32] using FieldAt.height (beBytes_length 4 h)⟩
  | pixelR v => exact ⟨16, beBytes 2 v, rfl,
    by simpa only [beOf_beBytes16] using FieldAt.red (beBytes_length 2 v) 0⟩
  | pixelG v => exact ⟨18, beBytes 2 v, rfl,
    by simpa only [beOf_beBytes16] using FieldAt.green (beBytes_length 2 v) 0⟩
  | pixelB v => exact ⟨20, beBytes 2 v, rfl,
    by simpa only [beOf_beBytes16] using FieldAt.blue (beBytes_length 2 v) 0⟩
  | pixelA v => exact ⟨22, beBytes 2 v, rfl,
    by simpa only [beOf_beBytes16] using FieldAt.alpha (beBytes_length 2 v) 0⟩
  | _ => cases hi

/-- Encoded and decoded, a wire field is what it was. -/
theorem decode_encode_wireField {i : Instr} (hi : isWireField i = true) (hwf : i.wellFormed = true) :
    decode (encode i) = .ok i := by
  obtain ⟨off, bytes, henc, hfield⟩ := fieldAt_encode hi hwf
  rw [henc, hfield.decode_eq_ok]

/-- Settles O1: a wire field stands at its place and its bytes assemble its value, and a selector's operands are read
back from the beat they were laid out in. -/
theorem decodeOfEncodeIsTheInstruction : Obligations.DecodeOfEncodeIsTheInstruction := by
  intro i hwf
  cases i with
  | hdrMagic | hdrWidth | hdrHeight | pixelR | pixelG | pixelB | pixelA => exact decode_encode_wireField rfl hwf
  | decMagic | decWidth | decHeight | decPay | decDrain | decEof => rfl
  | encHdr w h => simpa [encode, encWord] using decode_encWord .idle (gridBeat .hdr (hdrPayload w h))
  | encPix p => simpa [encode, encWord] using decode_encWord .body (gridBeat .pix (pixelWord p))
  | encPixl p => simpa [encode, encWord] using decode_encWord .body (gridBeat .pixl (pixelWord p))
  | encEnd => rfl
  | encDrain k payload =>
    cases k with
    | hdr | pix | pixl => rfl
    | close => cases hwf
  | encViol k payload =>
    cases k with
    | hdr | pix | pixl => rfl
    | close => cases hwf

/-! ### Selectors -/

/-- `dsel` as a number (R80). -/
theorem dsel_toNat (ph : DPhase) (eof : Bool) : (dsel ph eof).toNat = 2 * (dPhaseCode ph).toNat + eof.toNat := by
  cases ph <;> cases eof <;> rfl

/-- `esel` as a number (R81). -/
theorem esel_toNat (ph : EPhase) (k : GridKind) :
    (esel ph k).toNat = 4 * (ePhaseCode ph).toNat + (kindCode k).toNat := by
  cases ph <;> cases k <;> rfl

theorem kindCode_beatKind (t : GridBeat) : kindCode (beatKind t) = t.extractLsb' 64 2 := by
  rw [beatKind, kindCode_kindOfCode, BitVec.setWidth_ushiftRight_eq_extractLsb]

theorem payloadW_toNat (p : BitVec 64) : (payloadW p).toNat = p.toNat / 2 ^ 32 := by
  have := p.isLt
  simp only [payloadW, BitVec.toNat_setWidth, BitVec.toNat_ushiftRight, Nat.shiftRight_eq_div_pow]
  omega

theorem payloadH_toNat (p : BitVec 64) : (payloadH p).toNat = p.toNat % 2 ^ 32 := BitVec.toNat_setWidth ..

/-- The channels cut from a payload make it up (R22, R81). -/
theorem pixelPayload_pixelOfWord (p : BitVec 64) : pixelPayload (pixelOfWord p) = p.toNat := by
  obtain ⟨hr, hg, hb, ha⟩ := pixelOfWord_toNat p
  rw [pixelPayload, hr, hg, hb, ha]
  omega

/-- Settles O3: the selector is the phase and the beat's `eof` put together; its sixteen values are looked up. -/
theorem decSelectorPicksTheOperation : Obligations.DecSelectorPicksTheOperation := by
  refine ⟨fun s t ts hin => ?fetch, fun data => ⟨rfl, rfl, rfl, rfl, rfl, ?eof, ?unreachable⟩, by decide⟩
  case fetch => exact ⟨dsel s.dec.phase (beatEof t), fetch_dec_cons hin, dsel_toNat _ _⟩
  case eof => simp only [List.forall_mem_cons]; exact ⟨rfl, rfl, rfl, rfl, rfl, nofun⟩
  case unreachable => simp only [List.forall_mem_cons]; exact ⟨rfl, rfl, rfl, rfl, rfl, rfl, nofun⟩

/-- Settles O4: the selector is the phase and the beat's `kind` put together; its sixteen values are looked up, and the
operands are numbers cut from the payload. -/
theorem encSelectorPicksTheOperation : Obligations.EncSelectorPicksTheOperation := by
  refine ⟨fun s t ts hin => ?fetch, fun p => ⟨⟨_, _, rfl, payloadW_toNat p, payloadH_toNat p⟩, rfl, rfl, rfl,
    ⟨_, rfl, pixelPayload_pixelOfWord p⟩, ⟨_, rfl, pixelPayload_pixelOfWord p⟩, rfl, rfl, rfl, ?close,
    ?unreachable⟩, by decide⟩
  case fetch =>
    refine ⟨esel s.enc.phase (beatKind t), fetch_enc_cons hin, ?_⟩
    rw [esel_toNat, kindCode_beatKind]
  case close => simp only [List.forall_mem_cons]; exact ⟨rfl, rfl, rfl, nofun⟩
  case unreachable => simp only [List.forall_mem_cons]; exact ⟨rfl, rfl, rfl, rfl, nofun⟩

/-- Settles O5: each word is a closed term that the decoder evaluates. -/
theorem writtenOutWordsDecode : Obligations.WrittenOutWordsDecode :=
  ⟨rfl, rfl, rfl, rfl, rfl, rfl, rfl, rfl, rfl, rfl, rfl⟩

/-! ### Layouts of the output beats -/

theorem hdrPayload_toNat (w h : BitVec 32) : (hdrPayload w h).toNat = w.toNat * 2 ^ 32 + h.toNat := by
  rw [hdrPayload, BitVec.toNat_append, ← Nat.shiftLeft_add_eq_or_of_lt h.isLt, Nat.shiftLeft_eq]

/-- A grid beat as a number (R75). -/
theorem gridBeat_eq (k : GridKind) (p : BitVec 64) : gridBeat k p = gridWordOf (kindCode k).toNat p.toNat := by
  have hk := (kindCode k).isLt
  have hp := p.isLt
  apply BitVec.eq_of_toNat_eq
  rw [gridBeat, gridWordOf, BitVec.toNat_append, ← Nat.shiftLeft_add_eq_or_of_lt hp, Nat.shiftLeft_eq,
    BitVec.toNat_ofNat, Nat.mod_eq_of_lt (by omega)]

/-- A byte beat as a number (R77). -/
theorem byteBeat_eq (eof : Bool) (b : Byte) : byteBeat eof b = BitVec.ofNat 9 (eof.toNat * 2 ^ 8 + b.toNat) := by
  have heof := eof.toNat_lt
  have hb := b.isLt
  apply BitVec.eq_of_toNat_eq
  rw [byteBeat, BitVec.toNat_append, ← Nat.shiftLeft_add_eq_or_of_lt hb, Nat.shiftLeft_eq, BitVec.toNat_ofBool,
    BitVec.toNat_ofNat, Nat.mod_eq_of_lt (by omega)]

/-- Settles O6: a beat is its kind's number before its payload's. -/
theorem decOutBeatLayout : Obligations.DecOutBeatLayout := by
  refine ⟨fun w h => ?_, fun p => ?_, fun p => ?_, gridTokWord_stat⟩
  · rw [gridTokWord, gridBeat_eq, hdrPayload_toNat]; rfl
  · rw [gridTokWord, gridBeat_eq, pixelWord_toNat]; rfl
  · rw [gridTokWord, gridBeat_eq, pixelWord_toNat]; rfl

/-- Settles O7: the bit above a byte is 0, and above a code it is 256. -/
theorem encOutBeatLayout : Obligations.EncOutBeatLayout :=
  ⟨fun b => (byteBeat_eq false b).trans (by simp), byteTokWord_eof⟩

end Sys2Proof.Machine
end

section
/-! SUPPORT. A field's bytes shifted into a register, and what `DEC` holds after a field, and the obligations about both
(R14, R73, R101 to R104). -/

namespace Sys2Proof.Machine

/-! ### The shift register (R14, R73) -/

/-- The value of bytes followed by others (R15). -/
theorem beNat_append (xs ys : List Byte) : beNat (xs ++ ys) = beNat xs * 256 ^ ys.length + beNat ys := by
  induction ys using List.reverseRecOn with
  | nil => simp [beNat_nil]
  | append_singleton ys b ih =>
    rw [← List.append_assoc, beNat_append_singleton, ih, beNat_append_singleton, List.length_append,
      List.length_singleton]
    ring

/-- Bytes shifted in follow what the register held, cut to its width. -/
theorem foldl_shiftIn_toNat {n : Nat} (hn : 8 ≤ n) (bytes : List Byte) (r : BitVec n) :
    (bytes.foldl shiftIn r).toNat = (r.toNat * 256 ^ bytes.length + beNat bytes) % 2 ^ n := by
  induction bytes using List.reverseRecOn with
  | nil => simp [beNat_nil, Nat.mod_eq_of_lt r.isLt]
  | append_singleton bytes b ih =>
    have hsum : r.toNat * 256 ^ (bytes ++ [b]).length + beNat (bytes ++ [b])
        = (r.toNat * 256 ^ bytes.length + beNat bytes) * 256 + b.toNat := by
      rw [beNat_append_singleton, List.length_append, List.length_singleton]; ring
    rw [List.foldl_append, List.foldl_cons, List.foldl_nil, shiftIn_toNat hn, ih, hsum]
    exact ((Nat.mod_modEq _ _).mul_right 256).add_right b.toNat

/-- As many bytes as the register holds leave nothing of what it held. -/
theorem foldl_shiftIn_toNat_full {n : Nat} {bytes : List Byte} (hn : n = 8 * bytes.length) (hpos : 8 ≤ n)
    (r : BitVec n) : (bytes.foldl shiftIn r).toNat = beNat bytes := by
  have hpow : 2 ^ n = 256 ^ bytes.length := by rw [hn, Nat.pow_mul]
  rw [foldl_shiftIn_toNat hpos, hpow, Nat.mul_add_mod_of_lt (beNat_lt bytes)]

/-- What such a register held before makes no difference. -/
theorem foldl_shiftIn_eq_beOf {n : Nat} {bytes : List Byte} (hn : n = 8 * bytes.length) (hpos : 8 ≤ n)
    (r : BitVec n) : bytes.foldl shiftIn r = beOf n bytes :=
  BitVec.eq_of_toNat_eq ((foldl_shiftIn_toNat_full hn hpos r).trans (foldl_shiftIn_toNat_full hn hpos 0#n).symm)

theorem foldl_shiftIn_beBytes16 (r v : BitVec 16) : (beBytes 2 v).foldl shiftIn r = v :=
  (foldl_shiftIn_eq_beOf (by simp [beBytes_length]) (by decide) r).trans (beOf_beBytes16 v)

theorem foldl_shiftIn_beBytes32 (r v : BitVec 32) : (beBytes 4 v).foldl shiftIn r = v :=
  (foldl_shiftIn_eq_beOf (by simp [beBytes_length]) (by decide) r).trans (beOf_beBytes32 v)

theorem foldl_shiftIn_beBytes64 (r v : BitVec 64) : (beBytes 8 v).foldl shiftIn r = v :=
  (foldl_shiftIn_eq_beOf (by simp [beBytes_length]) (by decide) r).trans (beOf_beBytes64 v)

/-- Settles O8: as many bytes as a register holds leave their value in it, and nothing of what it held. -/
theorem shiftRegisterHoldsTheBytesOfItsField : Obligations.ShiftRegisterHoldsTheBytesOfItsField := by
  refine ⟨fun r a b c d => ?_, foldl_shiftIn_beBytes32, foldl_shiftIn_beBytes64, foldl_shiftIn_beBytes16⟩
  rw [foldl_shiftIn_toNat_full (n := 32) (bytes := [a, b, c, d]) rfl (by decide)]
  simp only [beNat, List.foldl_cons, List.foldl_nil]
  ring

/-- The bytes of a channel have the channel as their value. -/
theorem beNat_beBytes16 (v : BitVec 16) : beNat (beBytes 2 v) = v.toNat := by
  rw [← foldl_shiftIn_toNat_full (n := 16) (by simp [beBytes_length]) (by decide) 0#16, foldl_shiftIn_beBytes16]

/-! ### Bytes, phase by phase -/

/-- Bytes before and after. -/
theorem decBytes_append (xs ys : List Byte) :
    decBytes (xs ++ ys) = fun s => andThen (decBytes xs s) (decBytes ys) := by
  induction xs with
  | nil => rfl
  | cons b xs ih =>
    funext s
    rw [List.cons_append, decBytes, decBytes, andThen_assoc, ih]

/-- A byte that sends nothing, before others. -/
theorem bytesEffect_cons {b : Byte} {bs : List Byte} {c : Config} {d d' : DecRegs}
    (h : byteEffect b c d = some (d', [])) : bytesEffect (b :: bs) c d = bytesEffect bs c d' := by
  rw [bytesEffect, h, Option.bind_some]
  cases bytesEffect bs c d' <;> rfl

/-- In `D_DRAIN` no byte has an effect (R105). -/
theorem bytesEffect_drain {d : DecRegs} (hp : d.phase = .drain) (bs : List Byte) (c : Config) :
    bytesEffect bs c d = some (d, []) := by
  induction bs with
  | nil => rfl
  | cons b bs ih => rw [bytesEffect_cons (by rw [byteEffect, hp]), ih]

/-- A 3-bit index below 7 counts on without wrapping (R26). -/
theorem idx_succ_toNat {i : BitVec 3} (h : i.toNat < 7) : (i + 1).toNat = i.toNat + 1 := by
  revert i; decide

/-- The bytes of the magic still due are the next one and those due after it (R72, R101). -/
theorem magicBytes_drop (i : BitVec 3) :
    magicBytes.drop i.toNat = magicByte i :: magicBytes.drop (i.toNat + 1) := by
  revert i; decide

section
variable {d : DecRegs} {b : Byte} {bs : List Byte} {c : Config}

/-! In each phase a byte has the effect of the phase's operation (R80). -/

theorem byteEffect_magic (hp : d.phase = .magic) : byteEffect b c d = magicEffect b c d := by rw [byteEffect, hp]
theorem byteEffect_width (hp : d.phase = .width) : byteEffect b c d = widthEffect b c d := by rw [byteEffect, hp]
theorem byteEffect_height (hp : d.phase = .height) : byteEffect b c d = heightEffect b c d := by rw [byteEffect, hp]
theorem byteEffect_pay (hp : d.phase = .pay) : byteEffect b c d = payEffect b c d := by rw [byteEffect, hp]

theorem bytesEffect_singleton : bytesEffect [b] c d = byteEffect b c d := by
  cases h : byteEffect b c d <;> simp [bytesEffect, h]

/-- As many bytes as the magic still lacks end it where they are those bytes, and drain the frame where one differs
(R101, R105). -/
theorem bytesEffect_magic (hp : d.phase = .magic) (hlen : d.idx.toNat + bs.length = 8) :
    ∃ k, bytesEffect bs c d = some
      (if bs = magicBytes.drop d.idx.toNat then { d with idx := 0, phase := .width }
        else { d with idx := k, err := statusCode .invalidMagic, phase := .drain }, []) := by
  induction bs generalizing d with
  | nil => exact absurd hlen (Nat.ne_of_lt d.idx.isLt)
  | cons b bs ih =>
    rw [List.length_cons] at hlen
    rw [magicBytes_drop]
    by_cases hb : b = magicByte d.idx
    · have hmatch := not_not.mpr hb
      cases bs with
      | nil =>
        have h7 : d.idx = 7 := BitVec.eq_of_toNat_eq (Nat.succ.inj hlen)
        have hdrop : magicBytes.drop (d.idx.toNat + 1) = [] := by rw [h7]; rfl
        refine ⟨0, ?_⟩
        rw [bytesEffect_singleton, byteEffect_magic hp, magicEffect, if_neg hmatch, if_pos h7, hdrop, hb, if_pos rfl]
      | cons b' bs =>
        have h7 : d.idx.toNat < 7 := by rw [List.length_cons] at hlen; omega
        have hstep : magicEffect b c d = some ({ d with idx := d.idx + 1 }, []) :=
          (if_neg hmatch).trans (if_neg (BitVec.ne_of_lt h7))
        obtain ⟨k, hk⟩ := ih (d := { d with idx := d.idx + 1 }) hp (by rw [idx_succ_toNat h7]; omega)
        refine ⟨k, ?_⟩
        rw [bytesEffect_cons ((byteEffect_magic hp).trans hstep), hk, hb, idx_succ_toNat h7]
        simp only [List.cons.injEq, true_and]
    · have hstep : magicEffect b c d = some ({ d with err := statusCode .invalidMagic, phase := .drain }, []) :=
        if_pos hb
      refine ⟨d.idx, ?_⟩
      rw [bytesEffect_cons ((byteEffect_magic hp).trans hstep), bytesEffect_drain rfl,
        if_neg fun h => hb (List.head_eq_of_cons_eq h)]

/-- As many bytes as the width still lacks are shifted in and end it (R102). -/
theorem bytesEffect_width (hp : d.phase = .width) (hidx : d.idx.toNat < 4) (hlen : d.idx.toNat + bs.length = 4) :
    bytesEffect bs c d = some ({ d with w := bs.foldl shiftIn d.w, idx := 0, phase := .height }, []) := by
  induction bs generalizing d with
  | nil => exact absurd hlen (Nat.ne_of_lt hidx)
  | cons b bs ih =>
    rw [List.length_cons] at hlen
    cases bs with
    | nil =>
      have h3 : d.idx = 3 := BitVec.eq_of_toNat_eq (Nat.succ.inj hlen)
      rw [bytesEffect_singleton, byteEffect_width hp, widthEffect, if_pos h3, List.foldl_cons, List.foldl_nil]
    | cons b' bs =>
      have h3 : d.idx.toNat < 3 := by rw [List.length_cons] at hlen; omega
      have hsucc := idx_succ_toNat (i := d.idx) (by omega)
      have hstep : widthEffect b c d = some ({ d with w := shiftIn d.w b, idx := d.idx + 1 }, []) :=
        if_neg (BitVec.ne_of_lt h3)
      rw [bytesEffect_cons ((byteEffect_width hp).trans hstep), List.foldl_cons]
      exact ih (d := { d with w := shiftIn d.w b, idx := d.idx + 1 }) hp (by rw [hsucc]; omega) (by rw [hsucc]; omega)

/-- As many bytes as the height still lacks are shifted in, and the header is rejected or sent (R103). -/
theorem bytesEffect_height (hp : d.phase = .height) (hidx : d.idx.toNat < 4) (hlen : d.idx.toNat + bs.length = 4) :
    bytesEffect bs c d =
      if tooLarge c d.w (bs.foldl shiftIn d.h) then
        some ({ d with
          h := bs.foldl shiftIn d.h, idx := 0, err := statusCode .dimensionsTooLarge, phase := .drain }, [])
      else
        some ({ d with
          h := bs.foldl shiftIn d.h, idx := 0, rem := payloadLength d.w (bs.foldl shiftIn d.h), col := 0
          phase := .pay },
          [gridTokWord (.hdr d.w (bs.foldl shiftIn d.h))]) := by
  induction bs generalizing d with
  | nil => exact absurd hlen (Nat.ne_of_lt hidx)
  | cons b bs ih =>
    rw [List.length_cons] at hlen
    cases bs with
    | nil =>
      have h3 : d.idx = 3 := BitVec.eq_of_toNat_eq (Nat.succ.inj hlen)
      rw [bytesEffect_singleton, byteEffect_height hp, heightEffect, if_neg (not_not.mpr h3), List.foldl_cons,
        List.foldl_nil]
    | cons b' bs =>
      have h3 : d.idx.toNat < 3 := by rw [List.length_cons] at hlen; omega
      have hsucc := idx_succ_toNat (i := d.idx) (by omega)
      have hstep : heightEffect b c d = some ({ d with h := shiftIn d.h b, idx := d.idx + 1 }, []) :=
        if_pos (BitVec.ne_of_lt h3)
      rw [bytesEffect_cons ((byteEffect_height hp).trans hstep), List.foldl_cons]
      exact ih (d := { d with h := shiftIn d.h b, idx := d.idx + 1 }) hp (by rw [hsucc]; omega) (by rw [hsucc]; omega)

/-- A byte before the last of a pixel is shifted in (R104). -/
theorem byteEffect_pay_next (hp : d.phase = .pay) (hrem : d.rem ≠ 0) (hidx : d.idx.toNat < 7) :
    byteEffect b c d = some ({ d with rem := d.rem - 1, sh := shiftIn d.sh b, idx := d.idx + 1 }, []) :=
  (byteEffect_pay hp).trans ((if_neg hrem).trans (if_pos (BitVec.ne_of_lt hidx)))

/-- Bytes before the last of a pixel are shifted in (R104). -/
theorem bytesEffect_pay_next (hp : d.phase = .pay) (hrem : bs.length ≤ d.rem) (hidx : d.idx.toNat + bs.length < 8) :
    bytesEffect bs c d = some ({ d with
      rem := d.rem - bs.length, sh := bs.foldl shiftIn d.sh, idx := d.idx + BitVec.ofNat 3 bs.length }, []) := by
  induction bs generalizing d with
  | nil => simp [bytesEffect]
  | cons b bs ih =>
    rw [List.length_cons] at hrem hidx
    have hsucc := idx_succ_toNat (i := d.idx) (by omega)
    rw [bytesEffect_cons (byteEffect_pay_next hp (by omega) (by omega)),
      ih (d := { d with rem := d.rem - 1, sh := shiftIn d.sh b, idx := d.idx + 1 }) hp (Nat.le_sub_of_add_le hrem)
        (by rw [hsucc]; omega), List.length_cons, Nat.sub_sub, Nat.add_comm 1, BitVec.ofNat_add, BitVec.add_assoc,
      BitVec.add_comm 1]
    rfl

/-- As many bytes as a pixel still lacks are shifted in and send it (R104). -/
theorem bytesEffect_pay_pixel (hp : d.phase = .pay) (hrem : bs.length ≤ d.rem) (hlen : d.idx.toNat + bs.length = 8) :
    bytesEffect bs c d = some ({ d with
        rem := d.rem - bs.length, sh := bs.foldl shiftIn d.sh, idx := 0
        col := if lastColumn d.col d.w then 0 else d.col + 1 },
      [gridTokWord (if lastColumn d.col d.w then .pixl (pixelOfWord (bs.foldl shiftIn d.sh))
        else .pix (pixelOfWord (bs.foldl shiftIn d.sh)))]) := by
  induction bs generalizing d with
  | nil => exact absurd hlen (Nat.ne_of_lt d.idx.isLt)
  | cons b bs ih =>
    rw [List.length_cons] at hrem hlen
    cases bs with
    | nil =>
      have h7 : d.idx = 7 := BitVec.eq_of_toNat_eq (Nat.succ.inj hlen)
      rw [bytesEffect_singleton, byteEffect_pay hp, payEffect, if_neg (by omega), if_neg (not_not.mpr h7)]
      split_ifs <;> rfl
    | cons b' bs =>
      have h7 : d.idx.toNat < 7 := by rw [List.length_cons] at hlen; omega
      rw [bytesEffect_cons (byteEffect_pay_next hp (by omega) h7),
        ih (d := { d with rem := d.rem - 1, sh := shiftIn d.sh b, idx := d.idx + 1 }) hp (Nat.le_sub_of_add_le hrem)
          (by rw [idx_succ_toNat h7]; omega), Nat.sub_sub, Nat.add_comm 1]
      rfl

end

/-! ### Fields (R70, R71) -/

/-- What `DEC` takes and sends, by the effect of the bytes. -/
theorem decBytes_of_effect {bs : List Byte} {s : State} {d : DecRegs} {beats : List GridBeat}
    (h : bytesEffect bs s.cfg s.dec = some (d, beats)) :
    decBytes bs s = .next { s with dec := d, decOut := s.decOut ++ beats } := by
  rw [decBytes_eq, h]; rfl

/-- Bytes whose effect sends nothing write `DEC`'s registers alone. -/
theorem decBytes_of_silent_effect {bs : List Byte} {s : State} {d : DecRegs}
    (h : bytesEffect bs s.cfg s.dec = some (d, [])) : decBytes bs s = .next { s with dec := d } := by
  rw [decBytes_of_effect h, List.append_nil]

/-- Words with the same bytes are the same. -/
theorem beBytes8_injective {m m' : BitVec 64} (h : beBytes 8 m = beBytes 8 m') : m = m' := by
  rw [← beOf_beBytes64 m, h, beOf_beBytes64]

/-- A channel's bytes are shifted in after what the register held. -/
theorem foldl_shiftIn_channel (r : BitVec 64) (v : BitVec 16) :
    (beBytes 2 v).foldl shiftIn r = BitVec.ofNat 64 (r.toNat * 2 ^ 16 + v.toNat) := by
  apply BitVec.eq_of_toNat_eq
  rw [foldl_shiftIn_toNat (by decide), beNat_beBytes16, beBytes_length, BitVec.toNat_ofNat]
  rfl

/-- The bytes of a pixel's four channels, in order (R22, R71). -/
def pixelBytes (p : Pixel) : List Byte := beBytes 2 p.r ++ (beBytes 2 p.g ++ (beBytes 2 p.b ++ beBytes 2 p.a))

theorem foldl_shiftIn_pixelBytes (r : BitVec 64) (p : Pixel) : (pixelBytes p).foldl shiftIn r = pixelWord p := by
  apply BitVec.eq_of_toNat_eq
  rw [foldl_shiftIn_toNat_full (by simp [pixelBytes, beBytes_length]) (by decide), pixelWord_toNat]
  simp only [pixelBytes, beNat_append, beNat_beBytes16, List.length_append, beBytes_length]
  ring

/-- The four channels one after another are the bytes of the pixel. -/
theorem exec_pixel (p : Pixel) (s : State) :
    andThen (exec (.pixelR p.r) s) (fun s => andThen (exec (.pixelG p.g) s) fun s =>
      andThen (exec (.pixelB p.b) s) (exec (.pixelA p.a))) = decBytes (pixelBytes p) s := by
  rw [pixelBytes, decBytes_append, decBytes_append, decBytes_append]
  rfl

/-- Settles O27: each field is its bytes, and the bytes that complete a header field, a channel or a pixel have one
effect. -/
theorem wireFieldsAreTakenMostSignificantByteFirst : Obligations.WireFieldsAreTakenMostSignificantByteFirst := by
  refine ⟨fun s hp hi => ?magic, fun m s hp hi hm => ?wrongMagic, fun w s hp hi => ?width,
    fun h s hp hi hlt => ?height, fun h s hp hi hle => ?tooLarge, fun v s i k hp hi hrem hfield => ?channel,
    fun p s hp hi hrem => ?pixel⟩
  case magic =>
    obtain ⟨k, heff⟩ := bytesEffect_magic (bs := magicBytes) (c := s.cfg) hp (by rw [hi]; rfl)
    rw [if_pos (by rw [hi]; rfl), ← hi] at heff
    exact decBytes_of_silent_effect heff
  case wrongMagic =>
    obtain ⟨k, heff⟩ := bytesEffect_magic (bs := beBytes 8 m) (c := s.cfg) hp (by rw [hi]; rfl)
    rw [if_neg (by rw [hi]; exact fun h => hm (beBytes8_injective h))] at heff
    exact ⟨k, decBytes_of_silent_effect heff⟩
  case width =>
    have heff := bytesEffect_width (bs := beBytes 4 w) (c := s.cfg) hp (by rw [hi]; decide) (by rw [hi]; rfl)
    rw [foldl_shiftIn_beBytes32, ← hi] at heff
    exact decBytes_of_silent_effect heff
  case height =>
    have heff := bytesEffect_height (bs := beBytes 4 h) (c := s.cfg) hp (by rw [hi]; decide) (by rw [hi]; rfl)
    rw [foldl_shiftIn_beBytes32, if_neg (by rw [tooLarge_iff]; exact Nat.not_le.mpr hlt), ← hi] at heff
    exact decBytes_of_effect heff
  case tooLarge =>
    have heff := bytesEffect_height (bs := beBytes 4 h) (c := s.cfg) hp (by rw [hi]; decide) (by rw [hi]; rfl)
    rw [foldl_shiftIn_beBytes32, if_pos ((tooLarge_iff _ _ _).mpr hle), ← hi] at heff
    exact decBytes_of_silent_effect heff
  case channel =>
    have hexec : exec i s = decBytes (beBytes 2 v) s := by
      obtain ⟨rfl, -⟩ | ⟨rfl, -⟩ | ⟨rfl, -⟩ := hfield <;> rfl
    have heff := bytesEffect_pay_next (bs := beBytes 2 v) (c := s.cfg) hp hrem (by rw [hi, beBytes_length]; omega)
    have hidx : s.dec.idx = BitVec.ofNat 3 k := by rw [← hi, BitVec.ofNat_toNat, BitVec.setWidth_eq]
    rw [foldl_shiftIn_channel, beBytes_length, hidx, ← BitVec.ofNat_add] at heff
    rw [hexec, decBytes_of_silent_effect heff]
  case pixel =>
    have heff := bytesEffect_pay_pixel (bs := pixelBytes p) (c := s.cfg) hp hrem (by rw [hi]; rfl)
    rw [foldl_shiftIn_pixelBytes, pixelOfWord_pixelWord, ← hi] at heff
    rw [exec_pixel, decBytes_of_effect heff]
    simp only [lastColumn_iff, BitVec.ofNat_add, BitVec.ofNat_toNat, BitVec.setWidth_eq]
    rfl

end Sys2Proof.Machine
end

section
/-! SUPPORT. The codes a closing beat can report, and the obligation about them (R78, R107, R137). -/

namespace Sys2Proof.Machine

theorem gridTokWord_injective : Function.Injective gridTokWord := Function.LeftInverse.injective gridTokOf_gridTokWord

theorem byteTokWord_injective : Function.Injective byteTokWord := Function.LeftInverse.injective byteTokOf_byteTokWord

/-! ### `DEC` (R106, R107) -/

section
variable {c : Config} {d d' : DecRegs} {code : BitVec 4}

/-- A byte never makes `DEC` send a `STAT` (R101 to R105). -/
theorem byteEffect_ne_stat (b : Byte) : byteEffect b c d ≠ some (d', [gridTokWord (.stat code)]) := by
  unfold byteEffect
  cases d.phase with
  | magic => unfold magicEffect; split_ifs <;> simp
  | width => unfold widthEffect; split_ifs <;> simp
  | height => unfold heightEffect; split_ifs <;> simp [gridTokWord_injective.eq_iff]
  | pay => unfold payEffect; split_ifs <;> simp [gridTokWord_injective.eq_iff]
  | drain | unused5 | unused6 | unused7 => simp

/-- A `STAT` is sent for an `EOF`, with the code of `DEC.EOF` (R106). -/
theorem decEofCode_of_stat {t : ByteBeat} (h : decBeatEffect t c d = some (d', [gridTokWord (.stat code)])) :
    decEofCode d = some code := by
  unfold decBeatEffect eofEffect at h
  split at h
  · split at h
    case h_1 code' hcode =>
      simp only [Option.some.injEq, Prod.mk.injEq, List.cons.injEq, gridTokWord_injective.eq_iff,
        GridTok.stat.injEq] at h
      obtain ⟨-, rfl, -⟩ := h
      exact hcode
    case h_2 => cases h
  · exact absurd h (byteEffect_ne_stat _)

/-- Under the invariant `DEC.EOF` reports a code of R78 that is `DEC`'s. -/
theorem decEofCode_le (hinv : decInv c d) (hcode : decEofCode d = some code) : code.toNat ≤ 5 := by
  unfold decInv at hinv
  unfold decEofCode at hcode
  cases hp : d.phase with
  | magic | width | height => rw [hp] at hcode; cases hcode; decide
  | pay => rw [hp] at hcode; cases hcode; split_ifs <;> decide
  | drain =>
    rw [hp] at hinv hcode
    cases hcode
    obtain herr | herr | herr := hinv <;> rw [herr] <;> decide
  | unused5 | unused6 | unused7 => rw [hp] at hinv; exact hinv.elim

end

/-! ### `ENC` (R134, R137) -/

section
variable {e e' : EncRegs} {code : BitVec 4}

theorem eof_notMem_headerToks (w h : BitVec 32) : .eof code ∉ headerToks w h := by simp [headerToks, sendToks]

theorem eof_notMem_pixelToks (p : Pixel) : .eof code ∉ pixelToks p := by simp [pixelToks, sendToks]

/-- Tokens with no `EOF` among them are not sent as one (R77). -/
theorem map_byteTokWord_ne_eof {toks : List ByteTok} (h : .eof code ∉ toks) :
    toks.map byteTokWord ≠ [byteTokWord (.eof code)] := fun heq => by
  obtain rfl : toks = [.eof code] := byteTokWord_injective.list_map heq
  exact h (List.mem_singleton_self _)

theorem hdrEffect_ne_eof (w h : BitVec 32) : hdrEffect w h e ≠ some (e', [byteTokWord (.eof code)]) := by
  simp [hdrEffect, map_byteTokWord_ne_eof (eof_notMem_headerToks w h)]

theorem pixEffect_ne_eof (p : Pixel) : pixEffect p e ≠ some (e', [byteTokWord (.eof code)]) := by
  unfold pixEffect
  split_ifs
  · simp
  · simp [map_byteTokWord_ne_eof (eof_notMem_pixelToks p)]

theorem pixlEffect_ne_eof (p : Pixel) : pixlEffect p e ≠ some (e', [byteTokWord (.eof code)]) := by
  unfold pixlEffect
  split_ifs
  · simp
  · simp [map_byteTokWord_ne_eof (eof_notMem_pixelToks p)]

theorem violEffect_ne_eof : violEffect e ≠ some (e', [byteTokWord (.eof code)]) := by simp [violEffect]

/-- `ENC.END` sends its code (R134). -/
theorem encEndCode_of_endEffect (h : endEffect e = some (e', [byteTokWord (.eof code)])) :
    encEndCode e = some code := by
  unfold endEffect at h
  split at h
  case h_1 code' hcode =>
    simp only [Option.some.injEq, Prod.mk.injEq, List.cons.injEq, byteTokWord_injective.eq_iff, ByteTok.eof.injEq] at h
    obtain ⟨-, rfl, -⟩ := h
    exact hcode
  case h_2 => cases h

/-- An `EOF` is sent for an `END`, with the code of `ENC.END` (R134). -/
theorem encEndCode_of_eof {t : GridBeat} (h : encBeatEffect t e = some (e', [byteTokWord (.eof code)])) :
    encEndCode e = some code := by
  unfold encBeatEffect at h
  split at h
  case h_1 => cases h
  case h_2 => exact encEndCode_of_endEffect h
  case h_3 => exact absurd h (hdrEffect_ne_eof _ _)
  case h_4 | h_5 => exact absurd h violEffect_ne_eof
  case h_6 => exact absurd h (pixEffect_ne_eof _)
  case h_7 => exact absurd h (pixlEffect_ne_eof _)
  case h_8 => cases h

/-- Under the invariant `ENC.END` reports a code of R78 that is `ENC`'s. -/
theorem encEndCode_mem (hinv : encInv e) (hcode : encEndCode e = some code) : code = 0 ∨ code = 6 ∨ code = 8 := by
  unfold encInv at hinv
  unfold encEndCode at hcode
  cases hp : e.phase with
  | idle => rw [hp] at hcode; cases hcode; decide
  | body => rw [hp] at hcode; cases hcode; split_ifs <;> decide
  | drain =>
    rw [hp] at hinv hcode
    cases hcode
    exact .inr hinv
  | unused3 => rw [hp] at hinv; exact hinv.elim

end

/-- Settles O34: only the closing beat makes a unit send a status, and the invariant bounds the code it reports. -/
theorem reservedStatusCodesAreNeverReported : Obligations.ReservedStatusCodesAreNeverReported := by
  refine ⟨fun s t c ⟨hdec, _⟩ h hout => ?_, fun s t c ⟨_, henc⟩ h hout => ?_⟩
  · obtain rfl | ⟨b, d, beats, -, heff, ht⟩ := stepUnit_dec_frame h
    · exact absurd hout (by simp)
    · obtain rfl : beats = [gridTokWord (.stat c)] := List.append_cancel_left (by rw [← hout, ht])
      exact decEofCode_le hdec (decEofCode_of_stat heff)
  · obtain rfl | ⟨b, e, beats, -, heff, ht⟩ := stepUnit_enc_frame h
    · exact absurd hout (by simp)
    · obtain rfl : beats = [byteTokWord (.eof c)] := List.append_cancel_left (by rw [← hout, ht])
      exact encEndCode_mem henc (encEndCode_of_eof heff)

end Sys2Proof.Machine
end

section
/-! SUPPORT. Steps that are refused or make no difference, and the obligations about them (R74, R76, R83). -/

namespace Sys2Proof.Machine

/-- Under the invariant both units are in phases some rule writes (R83). -/
theorem State.inv.phasesReachable {s : State} (h : s.inv) : s.phasesReachable := by
  obtain ⟨hdec, henc⟩ := h
  unfold decInv at hdec
  unfold encInv at henc
  constructor
  · cases hp : s.dec.phase with
    | magic | width | height | pay | drain => rfl
    | unused5 | unused6 | unused7 => rw [hp] at hdec; exact hdec.elim
  · cases hp : s.enc.phase with
    | idle | body | drain => rfl
    | unused3 => rw [hp] at henc; exact henc.elim

/-- Settles O47: a step is a reset event or a unit's step, and from reachable phases a unit's step answers. -/
theorem noStepIsRefusedUnderTheInvariant : Obligations.NoStepIsRefusedUnderTheInvariant := by
  intro s hinv
  obtain ⟨-, hs⟩ | ⟨-, u, a, hs⟩ := step_cases s
  · exact ⟨_, hs⟩
  · obtain ⟨t, ht, -⟩ := stepUnit_reachable u (s := { s with arb := a }) hinv.phasesReachable
    exact ⟨t, hs.trans ht⟩

/-- Two beats with the same effect on `DEC` are taken alike, or the full port stops both (R218). -/
theorem stepUnit_dec_of_same_effect {s : State} {b b' : ByteBeat} (bs : List ByteBeat)
    (h : decBeatEffect b s.cfg s.dec = decBeatEffect b' s.cfg s.dec) :
    stepUnit .dec { s with decIn := b :: bs } = .next { s with decIn := b :: bs } ∧
      stepUnit .dec { s with decIn := b' :: bs } = .next { s with decIn := b' :: bs } ∨
    stepUnit .dec { s with decIn := b :: bs } = stepUnit .dec { s with decIn := b' :: bs } := by
  rw [stepUnit_dec_cons (s := { s with decIn := b :: bs }) rfl,
    stepUnit_dec_cons (s := { s with decIn := b' :: bs }) rfl, h]
  cases decBeatEffect b' s.cfg s.dec with
  | none => exact .inr rfl
  | some p =>
    cases hroom : s.roomFor .dec { s with dec := p.1, decIn := bs, decOut := s.decOut ++ p.2 } with
    | true => exact .inr ((if_pos hroom).trans (if_pos hroom).symm)
    | false => exact .inl ⟨if_neg (ne_true_of_eq_false hroom), if_neg (ne_true_of_eq_false hroom)⟩

/-- The same of `ENC`. -/
theorem stepUnit_enc_of_same_effect {s : State} {b b' : GridBeat} (bs : List GridBeat)
    (h : encBeatEffect b s.enc = encBeatEffect b' s.enc) :
    stepUnit .enc { s with encIn := b :: bs } = .next { s with encIn := b :: bs } ∧
      stepUnit .enc { s with encIn := b' :: bs } = .next { s with encIn := b' :: bs } ∨
    stepUnit .enc { s with encIn := b :: bs } = stepUnit .enc { s with encIn := b' :: bs } := by
  rw [stepUnit_enc_cons (s := { s with encIn := b :: bs }) rfl,
    stepUnit_enc_cons (s := { s with encIn := b' :: bs }) rfl, h]
  cases encBeatEffect b' s.enc with
  | none => exact .inr rfl
  | some p =>
    cases hroom : s.roomFor .enc { s with enc := p.1, encIn := bs, encOut := s.encOut ++ p.2 } with
    | true => exact .inr ((if_pos hroom).trans (if_pos hroom).symm)
    | false => exact .inl ⟨if_neg (ne_true_of_eq_false hroom), if_neg (ne_true_of_eq_false hroom)⟩

/-- Every `EOF` has the effect of `DEC.EOF` (R74). -/
theorem decBeatEffect_eof (data : Byte) (c : Config) (d : DecRegs) :
    decBeatEffect (byteBeat true data) c d = eofEffect c d := if_pos (beatEof_byteBeat true data)

/-- No effect of an `END` depends on its payload (R76). -/
theorem encBeatEffect_close (p p' : BitVec 64) (e : EncRegs) :
    encBeatEffect (gridBeat .close p) e = encBeatEffect (gridBeat .close p') e := by
  unfold encBeatEffect
  cases e.phase <;> simp only [beatKind_gridBeat]

/-- Settles O38: an `EOF` has the effect of any other, and so has an `END`. -/
theorem ignoredBitsChangeNothing : Obligations.IgnoredBitsChangeNothing :=
  ⟨fun s d d' bs => stepUnit_dec_of_same_effect bs (by rw [decBeatEffect_eof, decBeatEffect_eof]),
    fun s p p' bs => stepUnit_enc_of_same_effect bs (encBeatEffect_close p p' s.enc)⟩

/-- Settles O14: in a phase no rule writes the oldest beat has no effect, which is the refusal. -/
theorem unreachablePhaseIsRefused : Obligations.UnreachablePhaseIsRefused := by
  refine ⟨fun s b bs hd hin => ?_, fun s b bs he hin => ?_⟩
  · rw [stepUnit_dec_cons hin, decBeatEffect_unreachable hd]; rfl
  · rw [stepUnit_enc_cons hin, encBeatEffect_unreachable he]; rfl

end Sys2Proof.Machine
end

section
/-! SUPPORT. The effects of the beats keep the invariant, and the obligation about it (R107, R137). -/

namespace Sys2Proof.Machine

/-! ### The column of the next pixel (R31, R36, R104, R132) -/

section
variable {col w : BitVec 32} {n : Nat} (hcol : col.toNat = n % w.toNat)
include hcol

/-- After the last pixel of a row the next one is in column 0. -/
theorem succ_mod_of_lastColumn (hlast : lastColumn col w = true) : (n + 1) % w.toNat = 0 := by
  rw [lastColumn_iff, hcol] at hlast
  rw [← Nat.mod_add_mod, hlast, Nat.mod_self]

/-- After any other pixel the next one is a column further, and the register does not wrap. -/
theorem succ_mod_of_not_lastColumn (hw : 0 < w.toNat) (hlast : ¬ lastColumn col w = true) :
    (col + 1).toNat = (n + 1) % w.toNat := by
  rw [lastColumn_iff] at hlast
  have hlt : col.toNat + 1 < w.toNat := by have := Nat.mod_lt n hw; omega
  have hwrap := w.isLt
  rw [BitVec.toNat_add_of_lt (by simpa using hlt.trans hwrap), ← Nat.mod_add_mod, ← hcol, Nat.mod_eq_of_lt hlt]
  rfl

end

/-! ### `DEC` (R107) -/

section
variable {b : Byte} {c : Config} {d d' : DecRegs} {beats : List GridBeat}

/-! The invariant in each phase. -/

theorem decInv_magic (hp : d.phase = .magic) : decInv c d ↔ d.err = 0 := by rw [decInv, hp]
theorem decInv_width (hp : d.phase = .width) : decInv c d ↔ d.err = 0 ∧ d.idx.toNat ≤ 3 := by rw [decInv, hp]
theorem decInv_height (hp : d.phase = .height) : decInv c d ↔ d.err = 0 ∧ d.idx.toNat ≤ 3 := by rw [decInv, hp]
theorem decInv_pay (hp : d.phase = .pay) : decInv c d ↔ d.err = 0 ∧ payInv c d := by rw [decInv, hp]

theorem decInv_reset : decInv c DecRegs.reset := rfl

theorem magicEffect_inv (hp : d.phase = .magic) (hinv : decInv c d) (h : magicEffect b c d = some (d', beats)) :
    decInv c d' := by
  have herr := (decInv_magic hp).mp hinv
  unfold magicEffect at h
  split_ifs at h
  · cases h; exact .inl rfl
  · cases h; exact ⟨herr, Nat.zero_le _⟩
  · cases h; exact Iff.mpr (decInv_magic hp) herr

/-- An index below 3 counts on, and stays at most 3 (R26). -/
theorem idx_succ_le {i : BitVec 3} (hi : i.toNat ≤ 3) (h3 : i ≠ 3) : (i + 1).toNat ≤ 3 := by
  revert i; decide

theorem widthEffect_inv (hp : d.phase = .width) (hinv : decInv c d) (h : widthEffect b c d = some (d', beats)) :
    decInv c d' := by
  obtain ⟨herr, hidx⟩ := (decInv_width hp).mp hinv
  unfold widthEffect at h
  split_ifs at h with h3
  · cases h; exact ⟨herr, Nat.zero_le _⟩
  · cases h; exact Iff.mpr (decInv_width hp) ⟨herr, idx_succ_le hidx h3⟩

/-- A frame whose header was just accepted owes all of its bytes (R103). -/
theorem payInv_start (hidx : d.idx = 0) (hcol : d.col = 0) (hrem : d.rem = payloadLength d.w d.h)
    (hsize : ¬ tooLarge c d.w d.h = true) : payInv c d := by
  rw [tooLarge_iff] at hsize
  refine ⟨hrem.le, Nat.lt_of_not_le hsize, ?_, fun _ => hcol, fun _ => ?_⟩
  · rw [hidx, hrem, Nat.sub_self]; rfl
  · rw [hcol, hrem, Nat.sub_self, Nat.zero_div, Nat.zero_mod]; rfl

theorem heightEffect_inv (hp : d.phase = .height) (hinv : decInv c d)
    (h : heightEffect b c d = some (d', beats)) : decInv c d' := by
  obtain ⟨herr, hidx⟩ := (decInv_height hp).mp hinv
  unfold heightEffect at h
  split_ifs at h with h3 hsize
  · cases h; exact Iff.mpr (decInv_height hp) ⟨herr, idx_succ_le hidx h3⟩
  · cases h; exact .inr (.inl rfl)
  · cases h; exact ⟨herr, payInv_start rfl rfl rfl hsize⟩

theorem idx_lt_seven {i : BitVec 3} (h7 : i ≠ 7) : i.toNat < 7 := by
  revert i; decide

/-- A byte before the last of a pixel is one more taken, of the same pixel (R104). -/
theorem payInv_next (hinv : payInv c d) (hrem : d.rem ≠ 0) (h7 : d.idx ≠ 7) (sh : BitVec 64) :
    payInv c { d with rem := d.rem - 1, sh := sh, idx := d.idx + 1 } := by
  obtain ⟨hle, hlt, hidx, hcol0, hcol⟩ := hinv
  have htaken : payloadLength d.w d.h - (d.rem - 1) = payloadLength d.w d.h - d.rem + 1 := by omega
  have hidx7 := idx_lt_seven h7
  refine ⟨(Nat.sub_le _ _).trans hle, hlt, ?_, hcol0, fun hw => (hcol hw).trans ?_⟩
  · rw [idx_succ_toNat hidx7, htaken]; omega
  · rw [htaken, show (payloadLength d.w d.h - d.rem + 1) / 8 = (payloadLength d.w d.h - d.rem) / 8 by omega]

/-- The last byte of a pixel is one more taken and the pixel one more sent (R104). -/
theorem payInv_pixel (hinv : payInv c d) (hrem : d.rem ≠ 0) (h7 : d.idx = 7) (sh : BitVec 64) :
    payInv c { d with
      rem := d.rem - 1, sh := sh, idx := 0, col := if lastColumn d.col d.w then 0 else d.col + 1 } := by
  obtain ⟨hle, hlt, hidx, -, hcol⟩ := hinv
  have htaken : payloadLength d.w d.h - (d.rem - 1) = payloadLength d.w d.h - d.rem + 1 := by omega
  have hfull : (payloadLength d.w d.h - d.rem) % 8 = 7 := by rw [← hidx, h7]; rfl
  have hw : 0 < d.w.toNat := by
    by_contra hw
    have hzero : payloadLength d.w d.h = 0 := by simp [payloadLength, Nat.eq_zero_of_not_pos hw]
    omega
  refine ⟨(Nat.sub_le _ _).trans hle, hlt, ?_, fun hw0 => absurd hw0 hw.ne', fun _ => ?_⟩
  · rw [htaken]
    exact (show (payloadLength d.w d.h - d.rem + 1) % 8 = 0 by omega).symm
  · rw [htaken,
      show (payloadLength d.w d.h - d.rem + 1) / 8 = (payloadLength d.w d.h - d.rem) / 8 + 1 by omega]
    split_ifs with hlast
    · exact (succ_mod_of_lastColumn (hcol hw) hlast).symm
    · exact succ_mod_of_not_lastColumn (hcol hw) hw hlast

theorem payEffect_inv (hp : d.phase = .pay) (hinv : decInv c d) (h : payEffect b c d = some (d', beats)) :
    decInv c d' := by
  obtain ⟨herr, hpay⟩ := (decInv_pay hp).mp hinv
  unfold payEffect at h
  split_ifs at h with hrem hstrict h7 hlast
  · cases h; exact .inr (.inr rfl)
  · cases h; exact hinv
  · cases h; exact Iff.mpr (decInv_pay hp) ⟨herr, payInv_next hpay hrem h7 _⟩
  · have hnext := payInv_pixel hpay hrem (not_not.mp h7) (shiftIn d.sh b)
    rw [if_pos hlast] at hnext
    cases h; exact Iff.mpr (decInv_pay hp) ⟨herr, hnext⟩
  · have hnext := payInv_pixel hpay hrem (not_not.mp h7) (shiftIn d.sh b)
    rw [if_neg hlast] at hnext
    cases h; exact Iff.mpr (decInv_pay hp) ⟨herr, hnext⟩

/-- What a `dec_in` beat does keeps R107. -/
theorem decBeatEffect_inv {t : ByteBeat} (hinv : decInv c d) (h : decBeatEffect t c d = some (d', beats)) :
    decInv c d' := by
  unfold decBeatEffect at h
  split_ifs at h
  · unfold eofEffect at h
    split at h
    · cases h; exact decInv_reset
    · cases h
  · unfold byteEffect at h
    split at h
    case h_1 hp => exact magicEffect_inv hp hinv h
    case h_2 hp => exact widthEffect_inv hp hinv h
    case h_3 hp => exact heightEffect_inv hp hinv h
    case h_4 hp => exact payEffect_inv hp hinv h
    case h_5 => cases h; exact hinv
    all_goals cases h

end

/-! ### `ENC` (R137) -/

section
variable {e e' : EncRegs} {beats : List ByteBeat}

theorem encInv_idle (hp : e.phase = .idle) : encInv e ↔ e.err = 0 := by rw [encInv, hp]
theorem encInv_body (hp : e.phase = .body) : encInv e ↔ e.err = 0 ∧ bodyInv e := by rw [encInv, hp]

theorem encInv_reset : encInv EncRegs.reset := rfl

/-- A grid whose header was just taken owes all of its pixels (R131). -/
theorem bodyInv_start (hcol : e.col = 0) (hrem : e.rem = BitVec.ofNat 64 (e.w.toNat * e.h.toNat)) : bodyInv e := by
  have htoNat : e.rem.toNat = e.w.toNat * e.h.toNat := by
    rw [hrem, BitVec.toNat_ofNat, Nat.mod_eq_of_lt (dimensions_product_fits _ _)]
  refine ⟨htoNat.le, fun _ => hcol, fun _ => ?_⟩
  rw [hcol, htoNat, Nat.sub_self, Nat.zero_mod]; rfl

/-- A pixel is one more accepted (R132, R133). -/
theorem bodyInv_pixel (hinv : bodyInv e) (hrem : e.rem ≠ 0) :
    bodyInv { e with rem := e.rem - 1, col := if lastColumn e.col e.w then 0 else e.col + 1 } := by
  obtain ⟨hle, -, hcol⟩ := hinv
  have hpos : 0 < e.rem.toNat := by
    rw [Nat.pos_iff_ne_zero]; exact fun h => hrem (BitVec.eq_of_toNat_eq h)
  have hpred : (e.rem - 1).toNat = e.rem.toNat - 1 := BitVec.toNat_sub_of_le (BitVec.le_def.mpr hpos)
  have htaken : e.w.toNat * e.h.toNat - (e.rem.toNat - 1) = e.w.toNat * e.h.toNat - e.rem.toNat + 1 := by omega
  have hw : 0 < e.w.toNat := Nat.pos_of_mul_pos_right (hpos.trans_le hle)
  refine ⟨?_, fun hw0 => absurd hw0 hw.ne', fun _ => ?_⟩
  · rw [hpred]; exact (Nat.sub_le _ _).trans hle
  · rw [hpred, htaken]
    split_ifs with hlast
    · exact (succ_mod_of_lastColumn (hcol hw) hlast).symm
    · exact succ_mod_of_not_lastColumn (hcol hw) hw hlast

theorem pixEffect_inv {p : Pixel} (hp : e.phase = .body) (hinv : encInv e)
    (h : pixEffect p e = some (e', beats)) : encInv e' := by
  obtain ⟨herr, hbody⟩ := (encInv_body hp).mp hinv
  unfold pixEffect at h
  split_ifs at h with hirr
  · cases h; exact .inl rfl
  · simp only [pixIrregular, Bool.or_eq_true, beq_iff_eq, not_or] at hirr
    obtain ⟨hrem, hlast⟩ := hirr
    have hnext := bodyInv_pixel hbody hrem
    rw [if_neg hlast] at hnext
    cases h
    exact Iff.mpr (encInv_body hp) ⟨herr, hnext⟩

theorem pixlEffect_inv {p : Pixel} (hp : e.phase = .body) (hinv : encInv e)
    (h : pixlEffect p e = some (e', beats)) : encInv e' := by
  obtain ⟨herr, hbody⟩ := (encInv_body hp).mp hinv
  unfold pixlEffect at h
  split_ifs at h with hirr
  · cases h; exact .inl rfl
  · simp only [pixlIrregular, Bool.or_eq_true, Bool.not_eq_true', beq_iff_eq, not_or, Bool.not_eq_false] at hirr
    obtain ⟨hrem, hlast⟩ := hirr
    have hnext := bodyInv_pixel hbody hrem
    rw [if_pos hlast] at hnext
    cases h
    exact Iff.mpr (encInv_body hp) ⟨herr, hnext⟩

/-- What an `enc_in` beat does keeps R137. -/
theorem encBeatEffect_inv {t : GridBeat} (hinv : encInv e) (h : encBeatEffect t e = some (e', beats)) :
    encInv e' := by
  have hend (h : endEffect e = some (e', beats)) : encInv e' := by
    unfold endEffect at h
    split at h
    · cases h; exact encInv_reset
    · cases h
  have hviol (h : violEffect e = some (e', beats)) : encInv e' := by cases h; exact .inr rfl
  unfold encBeatEffect at h
  split at h
  case h_1 => cases h
  case h_2 => exact hend h
  case h_3 hp _ => cases h; exact ⟨(encInv_idle hp).mp hinv, bodyInv_start rfl rfl⟩
  case h_4 | h_5 => exact hviol h
  case h_6 hp _ => exact pixEffect_inv hp hinv h
  case h_7 hp _ => exact pixlEffect_inv hp hinv h
  case h_8 => cases h; exact hinv

end

/-- Settles O46: a reset event leaves both units between frames, and a unit's step has the effect of a beat. -/
theorem everyStepKeepsTheInvariant : Obligations.EveryStepKeepsTheInvariant := by
  intro s t ⟨hdec, henc⟩ h
  obtain ⟨-, hs⟩ | ⟨-, u, a, hs⟩ := step_cases s
  · cases hs.symm.trans h
    exact ⟨decInv_reset, encInv_reset⟩
  · have hu := hs.symm.trans h
    cases u with
    | dec =>
      obtain rfl | ⟨b, d, beats, -, heff, ht⟩ := stepUnit_dec_frame hu
      · exact ⟨hdec, henc⟩
      · rw [ht]; exact ⟨decBeatEffect_inv hdec heff, henc⟩
    | enc =>
      obtain rfl | ⟨b, e, beats, -, heff, ht⟩ := stepUnit_enc_frame hu
      · exact ⟨hdec, henc⟩
      · rw [ht]; exact ⟨hdec, encBeatEffect_inv henc heff⟩

end Sys2Proof.Machine
end

section
/-! SUPPORT. What `DEC` sends for a frame and its `EOF`, and the obligation about its shape (R101 to R106, R108). -/

namespace Sys2Proof.Machine

/-! ### A frame's beats, one after another -/

/-- The bytes of a frame, then its `EOF` (R87). -/
theorem decBeatsEffect_decodeBeats (f : List Byte) (eofData : Byte) (c : Config) (d : DecRegs) :
    decBeatsEffect (decodeBeats f eofData) c d =
      (bytesEffect f c d).bind fun p => (eofEffect c p.1).map fun q => (q.1, p.2 ++ q.2) := by
  have heof (d' : DecRegs) : decBeatsEffect [byteBeat true eofData] c d' = eofEffect c d' := by
    rw [decBeatsEffect, decBeatEffect_eof]
    cases eofEffect c d' <;> simp [decBeatsEffect]
  simp only [decodeBeats, decBeatsEffect_append, decBeatsEffect_bytes, heof]

/-- `DEC.EOF` sends its code and leaves the registers as after a reset (R106). -/
theorem eofEffect_eq_some {c : Config} {d : DecRegs} {p : DecRegs × List GridBeat} (h : eofEffect c d = some p) :
    ∃ code, decEofCode d = some code ∧ p = (DecRegs.reset, [gridTokWord (.stat code)]) := by
  unfold eofEffect at h
  split at h
  case h_1 code hcode => cases h; exact ⟨code, hcode, rfl⟩
  case h_2 => cases h

/-- A run over a frame sends what its bytes send, then the code of the phase they end in. -/
theorem decOut_of_run_frame {s t : State} {f : List Byte} {eofData : Byte} (hr : s.rst = false) (he : s.encIn = [])
    (hcap : s.decOutCap = none) (hin : s.decIn = decodeBeats f eofData) (hrun : run (f.length + 1) s = .next t) :
    ∃ d beats code, bytesEffect f s.cfg s.dec = some (d, beats) ∧ decEofCode d = some code ∧
      t.decOut = s.decOut ++ (beats ++ [gridTokWord (.stat code)]) := by
  have hlen : (decodeBeats f eofData).length = f.length + 1 := by simp [decodeBeats]
  rw [← hlen, run_dec (decodeBeats f eofData) [] s hr he hcap (by rw [hin, List.append_nil])] at hrun
  obtain ⟨sent, heff, hout⟩ := applyDec_eq_next hrun
  rw [decBeatsEffect_decodeBeats, Option.bind_eq_some_iff] at heff
  obtain ⟨⟨d, beats⟩, hbytes, heof⟩ := heff
  obtain ⟨q, hq, hsent⟩ := Option.map_eq_some_iff.mp heof
  obtain ⟨code, hcode, rfl⟩ := eofEffect_eq_some hq
  obtain ⟨-, rfl⟩ := Prod.mk.inj hsent
  exact ⟨d, beats, code, hbytes, hcode, hout⟩

section
variable {b : Byte} {bs : List Byte} {c : Config} {d d' : DecRegs} {beats : List GridBeat}

/-- A byte and those after it: each has an effect, and the beats follow each other. -/
theorem bytesEffect_cons_eq_some (h : bytesEffect (b :: bs) c d = some (d', beats)) :
    ∃ d₁ beats₁ beats₂, byteEffect b c d = some (d₁, beats₁) ∧ bytesEffect bs c d₁ = some (d', beats₂) ∧
      beats = beats₁ ++ beats₂ := by
  rw [bytesEffect, Option.bind_eq_some_iff] at h
  obtain ⟨⟨d₁, beats₁⟩, h₁, h⟩ := h
  obtain ⟨⟨d₂, beats₂⟩, h₂, h⟩ := Option.map_eq_some_iff.mp h
  cases h
  exact ⟨d₁, beats₁, beats₂, h₁, h₂, rfl⟩

/-! ### Pixels after the header (R104, R108) -/

/-- Beats that are pixels, whether the last of a row or not. -/
def PixelBeats (beats : List GridBeat) : Prop :=
  ∃ pixels : List GridTok, beats = pixels.map gridTokWord ∧ ∀ tok ∈ pixels, ∃ p, tok = .pix p ∨ tok = .pixl p

theorem PixelBeats.nil : PixelBeats [] := ⟨[], rfl, nofun⟩

theorem PixelBeats.pix (p : Pixel) : PixelBeats [gridTokWord (.pix p)] :=
  ⟨[.pix p], rfl, fun _ h => ⟨p, .inl (List.mem_singleton.mp h)⟩⟩

theorem PixelBeats.pixl (p : Pixel) : PixelBeats [gridTokWord (.pixl p)] :=
  ⟨[.pixl p], rfl, fun _ h => ⟨p, .inr (List.mem_singleton.mp h)⟩⟩

theorem PixelBeats.append {beats beats' : List GridBeat} (h : PixelBeats beats) (h' : PixelBeats beats') :
    PixelBeats (beats ++ beats') := by
  obtain ⟨pixels, rfl, hp⟩ := h
  obtain ⟨pixels', rfl, hp'⟩ := h'
  exact ⟨pixels ++ pixels', List.map_append.symm, fun tok ht => (List.mem_append.mp ht).elim (hp tok) (hp' tok)⟩

/-- `DEC.PAY` sends a pixel or nothing, and stays or drains. -/
theorem payEffect_sends (hp : d.phase = .pay) (h : payEffect b c d = some (d', beats)) :
    PixelBeats beats ∧ (d'.phase = .pay ∨ d'.phase = .drain) := by
  unfold payEffect at h
  split_ifs at h
  · cases h; exact ⟨.nil, .inr rfl⟩
  · cases h; exact ⟨.nil, .inl hp⟩
  · cases h; exact ⟨.nil, .inl hp⟩
  · cases h; exact ⟨.pixl _, .inl hp⟩
  · cases h; exact ⟨.pix _, .inl hp⟩

/-- The bytes after a header send pixels only. -/
theorem pixelBeats_of_bytesEffect (hp : d.phase = .pay ∨ d.phase = .drain)
    (h : bytesEffect bs c d = some (d', beats)) : PixelBeats beats := by
  induction bs generalizing d beats with
  | nil => cases h; exact .nil
  | cons b bs ih =>
    obtain hp | hp := hp
    · obtain ⟨d₁, beats₁, beats₂, h₁, h₂, rfl⟩ := bytesEffect_cons_eq_some h
      obtain ⟨hsent, hp₁⟩ := payEffect_sends hp (byteEffect_pay hp ▸ h₁)
      exact hsent.append (ih hp₁ h₂)
    · cases h.symm.trans (bytesEffect_drain hp _ c)
      exact .nil

/-! ### The header (R101 to R103, R108) -/

/-- Outside `D_PAY` a byte sends the header, which enters it, or nothing. -/
theorem byteEffect_sends_header (hp : d.phase ≠ .pay) (h : byteEffect b c d = some (d', beats)) :
    d'.phase ≠ .pay ∧ beats = [] ∨ d'.phase = .pay ∧ ∃ w h, beats = [gridTokWord (.hdr w h)] := by
  cases hph : d.phase with
  | magic =>
    rw [byteEffect_magic hph, magicEffect] at h
    split_ifs at h
    · cases h; exact .inl ⟨nofun, rfl⟩
    · cases h; exact .inl ⟨nofun, rfl⟩
    · cases h; exact .inl ⟨hp, rfl⟩
  | width =>
    rw [byteEffect_width hph, widthEffect] at h
    split_ifs at h
    · cases h; exact .inl ⟨nofun, rfl⟩
    · cases h; exact .inl ⟨hp, rfl⟩
  | height =>
    rw [byteEffect_height hph, heightEffect] at h
    split_ifs at h
    · cases h; exact .inl ⟨hp, rfl⟩
    · cases h; exact .inl ⟨nofun, rfl⟩
    · cases h; exact .inr ⟨rfl, _, _, rfl⟩
  | pay => exact absurd hph hp
  | drain => rw [byteEffect, hph] at h; cases h; exact .inl ⟨hp, rfl⟩
  | unused5 | unused6 | unused7 => rw [byteEffect, hph] at h; cases h

/-- From a phase outside `D_PAY` bytes send nothing, or a header and pixels. -/
theorem bytesEffect_sends_header_pixels (hp : d.phase ≠ .pay) (h : bytesEffect bs c d = some (d', beats)) :
    beats = [] ∨ ∃ w h pixels, beats = gridTokWord (.hdr w h) :: pixels ∧ PixelBeats pixels := by
  induction bs generalizing d beats with
  | nil => cases h; exact .inl rfl
  | cons b bs ih =>
    obtain ⟨d₁, beats₁, beats₂, h₁, h₂, rfl⟩ := bytesEffect_cons_eq_some h
    obtain ⟨hp₁, rfl⟩ | ⟨hp₁, width, height, rfl⟩ := byteEffect_sends_header hp h₁
    · exact ih hp₁ h₂
    · exact .inr ⟨width, height, beats₂, rfl, pixelBeats_of_bytesEffect (.inl hp₁) h₂⟩

end

/-- Settles O51: a header is sent on entering `D_PAY`, pixels in it and after it, and the code at the `EOF`. -/
theorem decFrameIsHeaderPixelsStatus : Obligations.DecFrameIsHeaderPixelsStatus := by
  intro s t f eofData hdec hr he hcap hin hrun
  obtain ⟨d, beats, code, hbytes, -, hout⟩ := decOut_of_run_frame hr he hcap hin hrun
  have hstart : s.dec.phase ≠ .pay := by rw [hdec]; nofun
  obtain rfl | ⟨w, h, _, rfl, pixels, rfl, hpixels⟩ := bytesEffect_sends_header_pixels hstart hbytes
  · exact ⟨[], [], code, hout, .inl ⟨rfl, rfl⟩, nofun⟩
  · exact ⟨[.hdr w h], pixels, code, by simpa using hout, .inr ⟨w, h, rfl⟩, hpixels⟩

end Sys2Proof.Machine
end

section
/-! SUPPORT. The frames `decode` accepts, as what their bytes make `DEC` send, and the obligation about them (R101 to
R106, R160, R161). -/

namespace Sys2Proof.Machine

/-! ### Reading a frame (R15, R16) -/

/-- Blocks of one length that follow each other are the list up to their end. -/
theorem flatMap_range_blocks {α : Type} (l : List α) (n k : Nat) :
    ((List.range k).flatMap fun i => (l.drop (n * i)).take n) = l.take (n * k) := by
  induction k with
  | zero => simp
  | succ k ih => rw [List.range_succ, List.flatMap_append, ih, Nat.mul_succ, List.take_add]; simp

theorem memRead_lt (f : List Byte) (off k : Nat) : memRead f off k < 256 ^ k :=
  (beNat_lt _).trans_le (Nat.pow_le_pow_right (by decide) (List.length_take_le _ _))

theorem ofNat_memRead_toNat (f : List Byte) (off : Nat) : (BitVec.ofNat 32 (memRead f off 4)).toNat = memRead f off 4 :=
  Nat.mod_eq_of_lt (memRead_lt f off 4)

theorem length_take_drop {α : Type} {l : List α} {off k : Nat} (h : off + k ≤ l.length) :
    ((l.drop off).take k).length = k :=
  List.length_take_of_le (by rw [List.length_drop]; omega)

/-- The bytes of a dimension, shifted into its register, leave what `MemRead` reads (R102, R103). -/
theorem foldl_shiftIn_dimension {f : List Byte} {off : Nat} {v : BitVec 32} (hlen : off + 4 ≤ f.length)
    (hv : memRead f off 4 = v.toNat) (r : BitVec 32) : ((f.drop off).take 4).foldl shiftIn r = v := by
  apply BitVec.eq_of_toNat_eq
  rw [foldl_shiftIn_toNat_full (by rw [length_take_drop hlen]) (by decide), ← memRead_eq, hv]

/-- The bytes of the channel that `MemRead` reads are those that stand there (R71). -/
theorem beBytes_channelAt {f : List Byte} {off : Nat} (h : off + 2 ≤ f.length) :
    beBytes 2 (BitVec.ofNat 16 (memRead f off 2)) = (f.drop off).take 2 := by
  obtain ⟨a, b, hbytes⟩ := List.length_eq_two.mp (length_take_drop h)
  have ha := a.isLt
  have hb := b.isLt
  have hv : (BitVec.ofNat 16 (memRead f off 2)).toNat = a.toNat * 256 + b.toNat := by
    rw [memRead_eq, hbytes, BitVec.toNat_ofNat]; simp only [beNat, List.foldl_cons, List.foldl_nil]; omega
  have hhigh : (BitVec.ofNat 16 (memRead f off 2) >>> 8).setWidth 8 = a :=
    BitVec.eq_of_toNat_eq (by rw [byte_of_shift_toNat, hv]; omega)
  have hlow : (BitVec.ofNat 16 (memRead f off 2) >>> 0).setWidth 8 = b :=
    BitVec.eq_of_toNat_eq (by rw [byte_of_shift_toNat, hv]; omega)
  rw [hbytes]
  exact congrArg₂ (fun x y => [x, y]) hhigh hlow

/-- The pixel at an offset is the eight bytes that stand there (R51, R160). -/
theorem pixelBytes_pixelAt {f : List Byte} {off : Nat} (h : off + 8 ≤ f.length) :
    pixelBytes (pixelAt f off) = (f.drop off).take 8 := by
  simp only [pixelBytes, pixelAt]
  rw [beBytes_channelAt (by omega), beBytes_channelAt (by omega), beBytes_channelAt (by omega),
    beBytes_channelAt (by omega), show 8 = 2 + (2 + (2 + 2)) from rfl]
  simp only [List.take_add, List.drop_drop]

/-- A row of pixels that stand one after another is their bytes (R51). -/
theorem row_pixelBytes {f : List Byte} {off w : Nat} (h : off + 8 * w ≤ f.length) :
    ((List.range w).map fun x => pixelAt f (off + 8 * x)).flatMap pixelBytes = (f.drop off).take (8 * w) := by
  rw [List.flatMap_map, ← flatMap_range_blocks]
  refine List.flatMap_congr fun x hx => ?_
  have hx := List.mem_range.mp hx
  rw [pixelBytes_pixelAt (by omega), List.drop_drop]

/-- The grid of a frame is the bytes after its header (R51, R160). -/
theorem gridAt_pixelBytes {f : List Byte} {w h : Nat} (hlen : 16 + 8 * w * h ≤ f.length) :
    ((gridAt f w h).flatMap fun row => row.flatMap pixelBytes) = (f.drop 16).take (8 * w * h) := by
  rw [gridAt, List.flatMap_map, ← flatMap_range_blocks]
  refine List.flatMap_congr fun y hy => ?_
  have hy : 8 * w * (y + 1) ≤ 8 * w * h := Nat.mul_le_mul_left _ (List.mem_range.mp hy)
  have hoff (x : Nat) : 16 + 8 * (y * w + x) = 16 + 8 * w * y + 8 * x := by ring
  simp only [hoff]
  rw [row_pixelBytes (by rw [Nat.mul_succ] at hy; omega), List.drop_drop]

theorem gridAt_length (f : List Byte) (w h : Nat) : (gridAt f w h).length = h := by simp [gridAt]

theorem gridAt_row_length {f : List Byte} {w h : Nat} {row : List Pixel} (hrow : row ∈ gridAt f w h) :
    row.length = w := by
  obtain ⟨y, -, rfl⟩ := List.mem_map.mp hrow
  simp

/-- A frame that `decode` accepts passed its gates (R160). -/
theorem decodeFrame_eq_ok {c : Config} {f : List Byte} {g : Grid} (h : decodeFrame c f = .ok g) :
    f.take 8 = magicBytes ∧ 16 ≤ f.length ∧ 8 * memRead f 8 4 * memRead f 12 4 < 2 ^ c.lenBits ∧
    16 + 8 * memRead f 8 4 * memRead f 12 4 ≤ f.length ∧
    (f.length = 16 + 8 * memRead f 8 4 * memRead f 12 4 ∨ c.strictTrailing = false) ∧
    g = gridAt f (memRead f 8 4) (memRead f 12 4) := by
  unfold decodeFrame at h
  simp only at h
  split_ifs at h with hmagic hheader hsize hshort hlong
  obtain ⟨-, hmagic⟩ := not_or.mp hmagic
  have htrailing : c.strictTrailing = true → f.length - 16 ≤ 8 * memRead f 8 4 * memRead f 12 4 :=
    fun hs => Nat.le_of_not_lt fun hl => hlong ⟨hl, hs⟩
  refine ⟨not_not.mp hmagic, by omega, by omega, by omega, ?_, (Except.ok.inj h).symm⟩
  cases hs : c.strictTrailing with
  | false => exact .inr rfl
  | true => have := htrailing hs; exact .inl (by omega)

section
variable {c : Config} {d : DecRegs}

/-! ### The bytes of a frame, part by part -/

theorem bytesEffect_append {xs ys : List Byte} {d₁ d₂ : DecRegs} {beats₁ beats₂ : List GridBeat}
    (h₁ : bytesEffect xs c d = some (d₁, beats₁)) (h₂ : bytesEffect ys c d₁ = some (d₂, beats₂)) :
    bytesEffect (xs ++ ys) c d = some (d₂, beats₁ ++ beats₂) := by
  rw [← decBeatsEffect_bytes] at h₁ h₂ ⊢
  rw [List.map_append, decBeatsEffect_append, h₁, Option.bind_some, h₂]
  rfl

/-- The registers where a header has been accepted and its pixel data is due (R103). -/
def DecRegs.owing (d : DecRegs) (w h : BitVec 32) : DecRegs :=
  { d with phase := .pay, idx := 0, w := w, h := h, rem := payloadLength w h, col := 0 }

/-- The sixteen bytes of a header that is accepted (R101 to R103). -/
theorem bytesEffect_header {f : List Byte} {w h : BitVec 32} (hw : memRead f 8 4 = w.toNat)
    (hh : memRead f 12 4 = h.toNat) (hp : d.phase = .magic) (hidx : d.idx = 0) (hlen : 16 ≤ f.length)
    (hmagic : f.take 8 = magicBytes) (hsize : payloadLength w h < 2 ^ c.lenBits) :
    bytesEffect (f.take 16) c d = some (d.owing w h, [gridTokWord (.hdr w h)]) := by
  have hparts : f.take 16 = f.take 8 ++ ((f.drop 8).take 4 ++ (f.drop 12).take 4) := by
    rw [show 16 = 8 + (4 + 4) from rfl, List.take_add, List.take_add, List.drop_drop]
  have hfits : ¬ tooLarge c w h = true := by rw [tooLarge_iff]; exact Nat.not_le.mpr hsize
  obtain ⟨k, hmagicEff⟩ := bytesEffect_magic (bs := f.take 8) (c := c) hp (by rw [hidx, hmagic]; rfl)
  rw [if_pos (by rw [hidx]; exact hmagic)] at hmagicEff
  have hwidthEff := bytesEffect_width (bs := (f.drop 8).take 4) (c := c) (d := { d with idx := 0, phase := .width })
    rfl (Nat.succ_pos 3) (by rw [length_take_drop (by omega)]; rfl)
  rw [foldl_shiftIn_dimension (by omega) hw] at hwidthEff
  have hheightEff := bytesEffect_height (bs := (f.drop 12).take 4) (c := c)
    (d := { d with idx := 0, phase := .height, w := w }) rfl (Nat.succ_pos 3)
    (by rw [length_take_drop (by omega)]; rfl)
  rw [foldl_shiftIn_dimension (by omega) hh, if_neg hfits] at hheightEff
  rw [hparts]
  exact bytesEffect_append hmagicEff (bytesEffect_append hwidthEff hheightEff)

/-- The eight bytes of a pixel (R104). -/
theorem bytesEffect_pixel (p : Pixel) (hp : d.phase = .pay) (hidx : d.idx = 0) (hrem : 8 ≤ d.rem) :
    bytesEffect (pixelBytes p) c d = some ({ d with
        rem := d.rem - 8, sh := pixelWord p, idx := 0, col := if lastColumn d.col d.w then 0 else d.col + 1 },
      [gridTokWord (if lastColumn d.col d.w then .pixl p else .pix p)]) := by
  have heff := bytesEffect_pay_pixel (bs := pixelBytes p) (c := c) hp hrem (by rw [hidx]; rfl)
  rwa [foldl_shiftIn_pixelBytes, pixelOfWord_pixelWord] at heff

/-- The bytes of the pixels left in a row send them, the last one marked, and end in column 0 (R104). -/
theorem bytesEffect_rest_of_row (p : Pixel) (ps : List Pixel) (hp : d.phase = .pay) (hidx : d.idx = 0)
    (hcol : d.col.toNat + (ps.length + 1) = d.w.toNat) (hrem : 8 * (ps.length + 1) ≤ d.rem) :
    ∃ sh, bytesEffect ((p :: ps).flatMap pixelBytes) c d = some
      ({ d with rem := d.rem - 8 * (ps.length + 1), sh := sh, idx := 0, col := 0 },
        (rowToks (p :: ps)).map gridTokWord) := by
  induction ps generalizing d p with
  | nil =>
    have hlast : lastColumn d.col d.w = true := (lastColumn_iff d.col d.w).mpr hcol
    have hpixel := bytesEffect_pixel (c := c) p hp hidx hrem
    rw [if_pos hlast, if_pos hlast] at hpixel
    exact ⟨_, bytesEffect_append hpixel rfl⟩
  | cons q ps ih =>
    rw [List.length_cons] at hcol hrem
    have hlast : ¬ lastColumn d.col d.w = true := by rw [lastColumn_iff]; omega
    have hpixel := bytesEffect_pixel (c := c) p hp hidx (by omega)
    rw [if_neg hlast, if_neg hlast] at hpixel
    have hsucc : (d.col + 1).toNat = d.col.toNat + 1 :=
      BitVec.toNat_add_of_lt (by have := d.w.isLt; simp; omega)
    obtain ⟨sh, hrest⟩ := ih (d := { d with rem := d.rem - 8, sh := pixelWord p, idx := 0, col := d.col + 1 }) q hp rfl
      (by rw [hsucc, Nat.add_assoc, Nat.add_comm 1]; exact hcol) (Nat.le_sub_of_add_le (by omega))
    have hboth := bytesEffect_append hpixel hrest
    rw [Nat.sub_sub, Nat.add_comm 8, ← Nat.mul_succ] at hboth
    exact ⟨sh, hboth⟩

/-- The bytes of a row send its pixels (R104). -/
theorem bytesEffect_row (row : List Pixel) (hp : d.phase = .pay) (hidx : d.idx = 0) (hcol : d.col = 0)
    (hrow : row.length = d.w.toNat) (hrem : 8 * d.w.toNat ≤ d.rem) :
    ∃ sh, bytesEffect (row.flatMap pixelBytes) c d = some
      ({ d with rem := d.rem - 8 * d.w.toNat, sh := sh, idx := 0, col := 0 }, (rowToks row).map gridTokWord) := by
  rw [← hrow] at hrem ⊢
  cases row with
  | nil => exact ⟨d.sh, by rw [← hidx, ← hcol]; rfl⟩
  | cons p ps => exact bytesEffect_rest_of_row p ps hp hidx (by rw [hcol, ← hrow, List.length_cons]; simp) hrem

/-- The bytes of rows send their pixels (R104). -/
theorem bytesEffect_rows (g : Grid) (hp : d.phase = .pay) (hidx : d.idx = 0) (hcol : d.col = 0)
    (hrows : ∀ row ∈ g, row.length = d.w.toNat) (hrem : 8 * d.w.toNat * g.length ≤ d.rem) :
    ∃ sh, bytesEffect (g.flatMap fun row => row.flatMap pixelBytes) c d = some
      ({ d with rem := d.rem - 8 * d.w.toNat * g.length, sh := sh, idx := 0, col := 0 },
        (g.flatMap rowToks).map gridTokWord) := by
  induction g generalizing d with
  | nil => exact ⟨d.sh, by rw [← hidx, ← hcol]; rfl⟩
  | cons row g ih =>
    rw [List.length_cons, Nat.mul_succ] at hrem
    obtain ⟨sh, hrow⟩ := bytesEffect_row (c := c) row hp hidx hcol (hrows row List.mem_cons_self) (by omega)
    obtain ⟨sh', hrest⟩ := ih (d := { d with rem := d.rem - 8 * d.w.toNat, sh := sh, idx := 0, col := 0 }) hp rfl rfl
      (fun r hr => hrows r (List.mem_cons_of_mem _ hr)) (Nat.le_sub_of_add_le hrem)
    have hboth := bytesEffect_append hrow hrest
    rw [Nat.sub_sub, Nat.add_comm, ← Nat.mul_succ, ← List.map_append] at hboth
    exact ⟨sh', hboth⟩

/-- Bytes beyond the declared length are discarded unless `STRICT_TRAILING` is set (R104). -/
theorem bytesEffect_trailing (bs : List Byte) (hp : d.phase = .pay) (hrem : d.rem = 0)
    (hstrict : c.strictTrailing = false) : bytesEffect bs c d = some (d, []) := by
  induction bs with
  | nil => rfl
  | cons b bs ih =>
    have hstep : payEffect b c d = some (d, []) := by simp [payEffect, hrem, hstrict]
    rw [bytesEffect_cons ((byteEffect_pay hp).trans hstep), ih]

/-- The bytes of a frame that `decode` accepts send its header and its grid, and leave nothing owed (R160). -/
theorem bytesEffect_accepted {f : List Byte} {w h : BitVec 32} {g : Grid} (hw : memRead f 8 4 = w.toNat)
    (hh : memRead f 12 4 = h.toNat) (hp : d.phase = .magic) (hidx : d.idx = 0) (hg : decodeFrame c f = .ok g) :
    ∃ d', bytesEffect f c d = some (d', (gridToks w h g).map gridTokWord) ∧ d'.phase = .pay ∧ d'.rem = 0 := by
  obtain ⟨hmagic, hlen, hsize, hdata, htrailing, rfl⟩ := decodeFrame_eq_ok hg
  rw [hw, hh] at hsize hdata htrailing ⊢
  have hdue : (d.owing w h).rem = 8 * w.toNat * (gridAt f w.toNat h.toNat).length := by rw [gridAt_length]; rfl
  have hheader := bytesEffect_header hw hh hp hidx hlen hmagic hsize
  obtain ⟨sh, hgrid⟩ := bytesEffect_rows (c := c) (d := d.owing w h) (gridAt f w.toNat h.toNat) rfl rfl rfl
    (fun row hrow => gridAt_row_length hrow) hdue.ge
  rw [gridAt_pixelBytes hdata] at hgrid
  have htail : ∀ d' : DecRegs, d'.phase = .pay → d'.rem = 0 →
      bytesEffect ((f.drop 16).drop (8 * w.toNat * h.toNat)) c d' = some (d', []) := fun d' hp' hrem' => by
    obtain hexact | hstrict := htrailing
    · rw [List.drop_drop, hexact.symm, List.drop_length]; rfl
    · exact bytesEffect_trailing _ hp' hrem' hstrict
  have hall := bytesEffect_append hheader (bytesEffect_append hgrid (htail _ rfl (Nat.sub_eq_zero_of_le hdue.le)))
  rw [List.take_append_drop, List.take_append_drop, List.append_nil] at hall
  exact ⟨_, hall, rfl, Nat.sub_eq_zero_of_le hdue.le⟩

end

/-- Settles O50: the bytes of an accepted frame are a header, its rows, and what is discarded, and nothing is owed at
the `EOF`. -/
theorem acceptedFrameIsSentAsItsGrid : Obligations.AcceptedFrameIsSentAsItsGrid := by
  intro s t f eofData g hdec hr he hcap hin hg hrun
  obtain ⟨d, beats, code, hbytes, hcode, hout⟩ := decOut_of_run_frame hr he hcap hin hrun
  obtain ⟨d', hbytes', hp, hrem⟩ := bytesEffect_accepted (d := s.dec) (ofNat_memRead_toNat f 8).symm
    (ofNat_memRead_toNat f 12).symm (by rw [hdec]; rfl) (by rw [hdec]; rfl) hg
  cases hbytes.symm.trans hbytes'
  obtain rfl : code = 0 := by
    rw [decEofCode, hp] at hcode
    cases hcode
    rw [if_neg (not_not.mpr hrem)]; rfl
  rw [hout, List.map_append]; rfl

end Sys2Proof.Machine
end

section
/-! SUPPORT. What a `DEC` operation leaves alone, and the phases its beats lead to, and the obligations about both
(R100, R110). -/

namespace Sys2Proof.Machine

/-- Settles O29: every such meaning is an effect on `DEC`'s registers and the beats it appends. -/
theorem decOperationsLeaveTheRestAlone : Obligations.DecOperationsLeaveTheRestAlone := by
  intro i s t hi h
  obtain ⟨effect, heff⟩ := exec_decLocal i hi
  rw [heff] at h
  cases hp : effect s.cfg s.dec with
  | none => rw [hp] at h; cases h
  | some p => rw [hp] at h; cases h; exact ⟨p.2, rfl⟩

/-! ### A beat the port has room for (R100, R218) -/

/-- From a reachable phase, where the port takes what the instruction of the oldest beat sends, the step is that beat's
effect. -/
theorem stepUnit_dec_of_room {s : State} {b : ByteBeat} {bs : List ByteBeat} (hin : s.decIn = b :: bs)
    (hd : dPhaseReachable s.dec.phase = true)
    (hroom : ∀ i u, decode (decWord s.dec.phase b) = .ok i → exec i { s with decIn := bs } = .next u →
      canTake s.decOutCap 1 s.decOut.length u.decOut.length) :
    ∃ d beats, decBeatEffect b s.cfg s.dec = some (d, beats) ∧
      stepUnit .dec s = .next { s with decIn := bs, dec := d, decOut := s.decOut ++ beats } := by
  obtain ⟨d, beats, heff, -, -⟩ := decBeatEffect_ok hd s.cfg b
  have hattempt := attempt_dec_cons hin
  rw [State.attempt, fetch_dec_cons hin, take_dec_eq hin, Option.map_some, Option.some_inj, heff] at hattempt
  refine ⟨d, beats, heff, ?_⟩
  rw [stepUnit_dec_cons hin, heff, applyDec, settle_next, if_pos]
  rw [roomFor_dec_iff]
  cases hdec : decode (decWord s.dec.phase b) with
  | error why => rw [hdec] at hattempt; cases hattempt
  | ok i => rw [hdec] at hattempt; exact hroom i _ hdec hattempt

/-! ### The table of phase changes (R110) -/

theorem idx_eq_three_iff {i : BitVec 3} : i = 3 ↔ i.toNat = 3 := BitVec.toNat_eq

theorem idx_eq_seven_iff {i : BitVec 3} : i = 7 ↔ i.toNat = 7 := BitVec.toNat_eq

section
variable {b : Byte} {c : Config} {d d' : DecRegs} {beats : List GridBeat}

theorem magicEffect_phase (hp : d.phase = .magic) (h : magicEffect b c d = some (d', beats)) :
    (b = magicByte d.idx → d'.phase = if d.idx.toNat = 7 then .width else .magic) ∧
    (b ≠ magicByte d.idx → d'.phase = .drain ∧ d'.err = 1) := by
  unfold magicEffect at h
  split_ifs at h with hb h7
  · cases h; exact ⟨fun heq => absurd heq hb, fun _ => ⟨rfl, rfl⟩⟩
  · rw [idx_eq_seven_iff] at h7
    cases h; exact ⟨fun _ => (if_pos h7).symm, fun hne => absurd hne hb⟩
  · rw [idx_eq_seven_iff] at h7
    cases h; exact ⟨fun _ => hp.trans (if_neg h7).symm, fun hne => absurd hne hb⟩

theorem widthEffect_phase (hp : d.phase = .width) (h : widthEffect b c d = some (d', beats)) :
    d'.phase = if d.idx.toNat = 3 then .height else .width := by
  unfold widthEffect at h
  split_ifs at h with h3
  · rw [idx_eq_three_iff] at h3
    cases h; exact (if_pos h3).symm
  · rw [idx_eq_three_iff] at h3
    cases h; exact hp.trans (if_neg h3).symm

theorem heightEffect_phase (hp : d.phase = .height) (h : heightEffect b c d = some (d', beats)) :
    (d.idx.toNat ≠ 3 → d'.phase = .height) ∧
    (d.idx.toNat = 3 → payloadLength d.w d'.h < 2 ^ c.lenBits → d'.phase = .pay) ∧
    (d.idx.toNat = 3 → 2 ^ c.lenBits ≤ payloadLength d.w d'.h → d'.phase = .drain ∧ d'.err = 3) := by
  unfold heightEffect at h
  rw [Ne, ← idx_eq_three_iff]
  split_ifs at h with h3 hsize
  · cases h; exact ⟨fun _ => hp, fun heq => absurd heq h3, fun heq => absurd heq h3⟩
  · rw [tooLarge_iff] at hsize
    cases h; exact ⟨fun hne => absurd hne h3, fun _ hlt => absurd hlt hsize.not_gt, fun _ _ => ⟨rfl, rfl⟩⟩
  · rw [tooLarge_iff] at hsize
    cases h; exact ⟨fun hne => absurd hne h3, fun _ _ => rfl, fun _ hle => absurd hle hsize⟩

theorem payEffect_phase (hp : d.phase = .pay) (h : payEffect b c d = some (d', beats)) :
    (0 < d.rem ∨ c.strictTrailing = false → d'.phase = .pay) ∧
    (d.rem = 0 → c.strictTrailing = true → d'.phase = .drain ∧ d'.err = 5) := by
  unfold payEffect at h
  split_ifs at h with hrem hstrict
  · cases h; exact ⟨fun hn => by simp [hrem, hstrict] at hn, fun _ _ => ⟨rfl, rfl⟩⟩
  · cases h; exact ⟨fun _ => hp, fun _ hs => absurd hs hstrict⟩
  all_goals cases h; exact ⟨fun _ => hp, fun hzero => absurd hzero hrem⟩

/-- A beat that is a byte has the effect of its phase's operation (R80). -/
theorem decBeatEffect_byte {t : ByteBeat} (ht : beatEof t = false) :
    decBeatEffect t c d = byteEffect (beatData t) c d := if_neg (ne_true_of_eq_false ht)

end

/-- Settles O35: the step is the beat's effect, and each row of the table is a branch of one. -/
theorem decPhaseTableIsComplete : Obligations.DecPhaseTableIsComplete := by
  intro s b bs hin hd hroom
  obtain ⟨d, beats, heff, hstep⟩ := stepUnit_dec_of_room hin hd hroom
  refine ⟨_, hstep, rfl, fun he => ?eof, ?_⟩
  case eof =>
    rw [decBeatEffect, if_pos he] at heff
    obtain ⟨code, -, hreset⟩ := eofEffect_eq_some heff
    obtain ⟨rfl, -⟩ := Prod.mk.inj hreset
    rfl
  have hbyte (he : beatEof b = false) : byteEffect (beatData b) s.cfg s.dec = some (d, beats) :=
    (decBeatEffect_byte he).symm.trans heff
  have hmagic (he) (hp : s.dec.phase = .magic) := magicEffect_phase hp ((byteEffect_magic hp).symm.trans (hbyte he))
  have hheight (he) (hp : s.dec.phase = .height) :=
    heightEffect_phase hp ((byteEffect_height hp).symm.trans (hbyte he))
  have hpay (he) (hp : s.dec.phase = .pay) := payEffect_phase hp ((byteEffect_pay hp).symm.trans (hbyte he))
  exact ⟨fun he hp => (hmagic he hp).1, fun he hp => (hmagic he hp).2,
    fun he hp => widthEffect_phase hp ((byteEffect_width hp).symm.trans (hbyte he)),
    fun he hp => (hheight he hp).1, fun he hp => (hheight he hp).2.1, fun he hp => (hheight he hp).2.2,
    fun he hp => (hpay he hp).1, fun he hp => (hpay he hp).2,
    fun he hp => by have h := hbyte he; rw [byteEffect, hp] at h; cases h; exact hp⟩

end Sys2Proof.Machine
end

section
/-! SUPPORT. Each `DEC` operation by its cases, and the obligations about them (R101 to R106). -/

namespace Sys2Proof.Machine

/-! ### The forms of the rules -/

/-- An effect that sends nothing writes `DEC`'s registers alone. -/
theorem applyDec_silent (s : State) (d : DecRegs) : applyDec s (some (d, [])) = .next { s with dec := d } := by
  rw [applyDec, List.append_nil]

/-- An index counts on in its three bits (R26). -/
theorem ofNat_toNat_succ {n : Nat} (v : BitVec n) : BitVec.ofNat n (v.toNat + 1) = v + 1 := by
  rw [BitVec.ofNat_add, BitVec.ofNat_toNat, BitVec.setWidth_eq]; rfl

/-- The shift-in as a number, cut to the register's width (R14). -/
theorem shiftIn_eq_ofNat {n : Nat} (hn : 8 ≤ n) (r : BitVec n) (b : Byte) :
    shiftIn r b = BitVec.ofNat n (r.toNat * 256 + b.toNat) :=
  BitVec.eq_of_toNat_eq (by rw [shiftIn_toNat hn, BitVec.toNat_ofNat])

/-- The bytes of the magic, written out (R72). -/
theorem magic_getElem? (i : BitVec 3) :
    ([0x66, 0x61, 0x72, 0x62, 0x66, 0x65, 0x6C, 0x64] : List Byte)[i.toNat]? = some (magicByte i) := by
  revert i; decide

/-! ### `DEC.MAGIC` -/

/-- Settles O15: the three branches of the operation. -/
theorem decMagicChecksOneByte : Obligations.DecMagicChecksOneByte := by
  refine ⟨fun _ => rfl, fun b m s _ hm => ?_⟩
  obtain rfl : magicByte s.dec.idx = m := Option.some_inj.mp ((magic_getElem? _).symm.trans hm)
  have hexec : exec (.decMagic b) s = applyDec s (magicEffect b s.cfg s.dec) := execDecMagic_eq b s
  rw [hexec, magicEffect]
  refine ⟨fun hne => ?differs, fun heq h7 => ?eighth, fun heq h7 => ?matching⟩
  case differs => rw [if_pos hne, applyDec_silent]; rfl
  case eighth => rw [if_neg (not_not.mpr heq), if_pos (idx_eq_seven_iff.mpr h7), applyDec_silent]; rfl
  case matching =>
    rw [if_neg (not_not.mpr heq), if_neg (BitVec.ne_of_lt h7), applyDec_silent, ofNat_toNat_succ]

/-! ### `DEC.WIDTH` -/

theorem exec_decWidth_last {s : State} (b : Byte) (h3 : s.dec.idx = 3) : exec (.decWidth b) s =
    .next { s with dec := { s.dec with w := shiftIn s.dec.w b, idx := 0, phase := .height } } := by
  have hexec : exec (.decWidth b) s = applyDec s (widthEffect b s.cfg s.dec) := execDecWidth_eq b s
  rw [hexec, widthEffect, if_pos h3, applyDec_silent]

theorem exec_decWidth_next {s : State} {i : BitVec 3} (b : Byte) (hidx : s.dec.idx = i) (h3 : i ≠ 3) :
    exec (.decWidth b) s = .next { s with dec := { s.dec with w := shiftIn s.dec.w b, idx := i + 1 } } := by
  have hexec : exec (.decWidth b) s = applyDec s (widthEffect b s.cfg s.dec) := execDecWidth_eq b s
  rw [hexec, widthEffect, if_neg (hidx ▸ h3), applyDec_silent, hidx]

/-- Settles O16: the two branches of the operation, and four bytes one after another. -/
theorem decWidthTakesOneByte : Obligations.DecWidthTakesOneByte := by
  refine ⟨fun _ => rfl, fun b s _ => ⟨fun h3 => ?last, fun h3 => ?next⟩, fun a b c d s _ hidx => ?four⟩
  case last => rw [exec_decWidth_last b (idx_eq_three_iff.mpr h3), shiftIn_eq_ofNat (by decide)]; rfl
  case next =>
    rw [exec_decWidth_next b rfl (idx_eq_three_iff.not.mpr h3), shiftIn_eq_ofNat (by decide), ofNat_toNat_succ]
  case four =>
    obtain ⟨hvalue, -⟩ := shiftRegisterHoldsTheBytesOfItsField
    have hw : shiftIn (shiftIn (shiftIn (shiftIn s.dec.w a) b) c) d =
        BitVec.ofNat 32 (a.toNat * 256 ^ 3 + b.toNat * 256 ^ 2 + c.toNat * 256 + d.toNat) := by
      rw [← hvalue s.dec.w a b c d, BitVec.ofNat_toNat, BitVec.setWidth_eq]; rfl
    rw [exec_decWidth_next a hidx (by decide), andThen_next, exec_decWidth_next (i := 1) b rfl (by decide),
      andThen_next, exec_decWidth_next (i := 2) c rfl (by decide), andThen_next,
      exec_decWidth_last d rfl, hw]
    rfl

/-! ### `DEC.HEIGHT` -/

/-- Settles O17: the three branches of the operation. -/
theorem decHeightTakesOneByteAndChecksTheSize : Obligations.DecHeightTakesOneByteAndChecksTheSize := by
  refine ⟨fun _ => rfl, fun b s h _ hh => ?_⟩
  obtain rfl : shiftIn s.dec.h b = h := (shiftIn_eq_ofNat (by decide) _ _).trans hh.symm
  obtain ⟨hhdr, -⟩ := decOutBeatLayout
  have hexec : exec (.decHeight b) s = applyDec s (heightEffect b s.cfg s.dec) := execDecHeight_eq b s
  rw [hexec, heightEffect]
  refine ⟨fun h3 => ?next, fun h3 hle => ?tooLarge, fun h3 hlt => ?header⟩
  case next => rw [if_pos (idx_eq_three_iff.not.mpr h3), applyDec_silent, ofNat_toNat_succ]
  case tooLarge =>
    rw [if_neg (not_not.mpr (idx_eq_three_iff.mpr h3)), if_pos ((tooLarge_iff _ _ _).mpr hle), applyDec_silent]; rfl
  case header =>
    rw [if_neg (not_not.mpr (idx_eq_three_iff.mpr h3)), if_neg ((tooLarge_iff _ _ _).not.mpr hlt.not_ge), hhdr]; rfl

/-! ### `DEC.PAY` -/

/-- Settles O18: the five branches of the operation. -/
theorem decPayTakesOneByteAndSendsThePixel : Obligations.DecPayTakesOneByteAndSendsThePixel := by
  refine ⟨fun _ => rfl, fun b s sh _ hsh => ?_⟩
  obtain rfl : shiftIn s.dec.sh b = sh := (shiftIn_eq_ofNat (by decide) _ _).trans hsh.symm
  obtain ⟨-, hpix, hpixl, -⟩ := decOutBeatLayout
  have hexec : exec (.decPay b) s = applyDec s (payEffect b s.cfg s.dec) := execDecPay_eq b s
  rw [hexec, payEffect]
  refine ⟨fun hrem hstrict => ?trailing, fun hrem hstrict => ?discarded, fun hrem h7 => ?next,
    fun hrem h7 hlast => ?last, fun hrem h7 hlast => ?pixel⟩
  case trailing => rw [if_pos hrem, if_pos hstrict, applyDec_silent]; rfl
  case discarded => rw [if_pos hrem, if_neg (ne_true_of_eq_false hstrict), applyDec_silent]
  case next => rw [if_neg hrem.ne', if_pos (BitVec.ne_of_lt h7), applyDec_silent, ofNat_toNat_succ]
  case last =>
    rw [if_neg hrem.ne', if_neg (not_not.mpr (idx_eq_seven_iff.mpr h7)), if_pos ((lastColumn_iff _ _).mpr hlast), hpixl,
      pixelPayload_pixelOfWord]
    rfl
  case pixel =>
    rw [if_neg hrem.ne', if_neg (not_not.mpr (idx_eq_seven_iff.mpr h7)), if_neg ((lastColumn_iff _ _).not.mpr hlast),
      hpix, pixelPayload_pixelOfWord, ofNat_toNat_succ]
    rfl

/-! ### `DEC.DRAIN` -/

/-- In `D_DRAIN` a byte is taken and changes nothing else, whatever room its port has (R105, R218). -/
theorem step_drain_byte {s : State} {b : Byte} {bs : List ByteBeat} (hr : s.rst = false) (he : s.encIn = [])
    (hp : s.dec.phase = .drain) (hin : s.decIn = byteBeat false b :: bs) : step s = .next { s with decIn := bs } := by
  have hroom : s.roomFor .dec { s with decIn := bs } = true := (roomFor_dec_iff _ _).mpr (.inl le_rfl)
  rw [step_dec s hr he, stepUnit_dec_cons hin, decBeatEffect_drain hp, beatEof_byteBeat, if_neg Bool.false_ne_true,
    applyDec_silent, settle_next]
  exact if_pos hroom

/-- Settles O19: no byte has an effect, so neither have several. -/
theorem decDrainHasNoEffect : Obligations.DecDrainHasNoEffect := by
  refine ⟨fun _ => rfl, fun _ _ _ => rfl, fun bs s hr he hp hin => ?_⟩
  induction bs generalizing s with
  | nil => rw [List.length_nil, run_zero, ← List.map_nil (f := byteBeat false), ← hin]
  | cons b bs ih =>
    rw [List.length_cons, run_succ, step_drain_byte hr he hp hin, andThen_next]
    exact ih { s with decIn := bs.map (byteBeat false) } hr he hp rfl

/-! ### `DEC.EOF` -/

/-- `DEC.EOF` sends the code of the phase it finds and resets `DEC`'s registers. -/
theorem exec_decEof {s : State} {code : BitVec 4} (data : Byte) (h : decEofCode s.dec = some code) :
    exec (.decEof data) s =
      .next { s with dec := DecRegs.reset, decOut := s.decOut ++ [gridWordOf 3 code.toNat] } := by
  have hexec : exec (.decEof data) s = applyDec s (eofEffect s.cfg s.dec) := execDecEof_eq data s
  rw [hexec, eofEffect, h, applyDec, gridTokWord_stat]

/-- The odd selectors of the reachable phases are those of `DEC.EOF` (R80). -/
theorem mem_eof_selectors {sel : BitVec 4} (hle : sel.toNat ≤ 9) (hodd : sel.toNat % 2 = 1) :
    sel ∈ [0x1#4, 0x3#4, 0x5#4, 0x7#4, 0x9#4] := by
  revert sel; decide

/-- Settles O20: the code is that of the phase, whatever the data bits. -/
theorem decEofReportsTheStatusAndResets : Obligations.DecEofReportsTheStatusAndResets := by
  obtain ⟨-, hselectors, -⟩ := decSelectorPicksTheOperation
  refine ⟨fun sel data hle hodd => ?_, fun data s closed hclosed => ?_⟩
  · obtain ⟨-, -, -, -, -, heof, -⟩ := hselectors data
    exact heof sel (mem_eof_selectors hle hodd)
  · have hexec {code : BitVec 4} (h : decEofCode s.dec = some code) :
        exec (.decEof data) s = .next (closed code.toNat) := by rw [exec_decEof data h, hclosed]; rfl
    refine ⟨fun hp => ?magic, fun hp => ?header, fun hp hrem => ?owing, fun hp hrem => ?complete, fun hp => ?drain⟩
    case magic => exact hexec (by rw [decEofCode, hp])
    case header => exact hexec (code := 2) (by obtain hp | hp := hp <;> rw [decEofCode, hp] <;> rfl)
    case owing =>
      exact hexec (code := 4) (by rw [decEofCode, hp]; exact congrArg some (if_pos hrem.ne'))
    case complete =>
      exact hexec (code := 0) (by rw [decEofCode, hp]; exact congrArg some (if_neg (not_not.mpr hrem)))
    case drain => exact hexec (by rw [decEofCode, hp])

end Sys2Proof.Machine
end

section
/-! SUPPORT. What `ENC` sends for the beats of a grid and its `END`, and the obligation about its shape (R131 to
R137). -/

namespace Sys2Proof.Machine

/-! ### A grid's beats, one after another -/

/-- Every `END` has the effect of `ENC.END` (R76). -/
theorem encBeatEffect_end (p : BitVec 64) (e : EncRegs) : encBeatEffect (gridBeat .close p) e = endEffect e := by
  cases hp : e.phase <;> simp [encBeatEffect, endEffect, encEndCode, hp]

/-- `ENC.END` sends its code and leaves the registers as after a reset (R134). -/
theorem endEffect_eq_some {e : EncRegs} {q : EncRegs × List ByteBeat} (h : endEffect e = some q) :
    ∃ code, encEndCode e = some code ∧ q = (EncRegs.reset, [byteTokWord (.eof code)]) := by
  unfold endEffect at h
  split at h
  case h_1 code hcode => cases h; exact ⟨code, hcode, rfl⟩
  case h_2 => cases h

section
variable {b : GridBeat} {bs bs' : List GridBeat} {e e₁ e' : EncRegs} {beats beats' : List ByteBeat}

/-- A beat and those after it: each has an effect, and the beats sent follow each other. -/
theorem encBeatsEffect_cons_eq_some (h : encBeatsEffect (b :: bs) e = some (e', beats)) :
    ∃ e₁ beats₁ beats₂, encBeatEffect b e = some (e₁, beats₁) ∧ encBeatsEffect bs e₁ = some (e', beats₂) ∧
      beats = beats₁ ++ beats₂ := by
  rw [encBeatsEffect, Option.bind_eq_some_iff] at h
  obtain ⟨⟨e₁, beats₁⟩, h₁, h⟩ := h
  obtain ⟨⟨e₂, beats₂⟩, h₂, h⟩ := Option.map_eq_some_iff.mp h
  cases h
  exact ⟨e₁, beats₁, beats₂, h₁, h₂, rfl⟩

/-- Beats with an effect, then others with an effect. -/
theorem encBeatsEffect_append_of_eq_some (h : encBeatsEffect bs e = some (e₁, beats))
    (h' : encBeatsEffect bs' e₁ = some (e', beats')) :
    encBeatsEffect (bs ++ bs') e = some (e', beats ++ beats') := by
  rw [encBeatsEffect_append, h, Option.bind_some, h', Option.map_some]

theorem encBeatsEffect_cons_of_eq_some (h : encBeatEffect b e = some (e₁, beats))
    (h' : encBeatsEffect bs e₁ = some (e', beats')) :
    encBeatsEffect (b :: bs) e = some (e', beats ++ beats') := by
  rw [encBeatsEffect, h, Option.bind_some, h', Option.map_some]

/-- What several `enc_in` beats do keeps R137. -/
theorem encBeatsEffect_inv (hinv : encInv e) (h : encBeatsEffect bs e = some (e', beats)) : encInv e' := by
  induction bs generalizing e beats with
  | nil => cases h; exact hinv
  | cons b bs ih =>
    obtain ⟨e₁, _, _, h₁, h₂, -⟩ := encBeatsEffect_cons_eq_some h
    exact ih (encBeatEffect_inv hinv h₁) h₂

/-- In `E_DRAIN` the beats before an `END` have no effect (R135). -/
theorem encBeatsEffect_drain (hp : e.phase = .drain) (hopen : ∀ b ∈ bs, beatKind b ≠ .close) :
    encBeatsEffect bs e = some (e, []) := by
  induction bs with
  | nil => rfl
  | cons b bs ih =>
    obtain ⟨hb, hbs⟩ := List.forall_mem_cons.mp hopen
    have hstep : encBeatEffect b e = some (e, []) := by rw [encBeatEffect_drain hp, if_neg hb]
    exact encBeatsEffect_cons_of_eq_some hstep (ih hbs)

end

/-- A run over beats closed by an `END` sends what they send, then the code of the phase they end in. -/
theorem encOut_of_run_grid {s t : State} {body : List GridBeat} {endPayload : BitVec 64} (hr : s.rst = false)
    (hd : s.decIn = []) (hcap : s.encOutCap = none) (hin : s.encIn = body ++ [gridBeat .close endPayload])
    (hrun : run (body.length + 1) s = .next t) :
    ∃ e beats code, encBeatsEffect body s.enc = some (e, beats) ∧ encEndCode e = some code ∧
      t.encOut = s.encOut ++ (beats ++ [byteTokWord (.eof code)]) := by
  have hlen : (body ++ [gridBeat .close endPayload]).length = body.length + 1 := by simp
  rw [← hlen, run_enc _ [] s hr hd hcap (by rw [hin, List.append_nil])] at hrun
  obtain ⟨sent, heff, hout⟩ := applyEnc_eq_next hrun
  rw [encBeatsEffect_append, Option.bind_eq_some_iff] at heff
  obtain ⟨⟨e, beats⟩, hbody, hclose⟩ := heff
  obtain ⟨⟨_, last⟩, hlast, hsent⟩ := Option.map_eq_some_iff.mp hclose
  obtain ⟨_, _, _, hend, hnil, rfl⟩ := encBeatsEffect_cons_eq_some hlast
  obtain ⟨code, hcode, heq⟩ := endEffect_eq_some ((encBeatEffect_end endPayload e).symm.trans hend)
  cases heq
  cases hnil
  obtain ⟨-, rfl⟩ := Prod.mk.inj hsent
  exact ⟨e, beats, code, hbody, hcode, hout⟩

/-! ### Bytes (R131 to R133) -/

/-- Beats that are bytes, with no `EOF` among them (R77). -/
def ByteBeats (beats : List ByteBeat) : Prop := ∃ bytes : List Byte, beats = (bytes.map ByteTok.byte).map byteTokWord

theorem ByteBeats.nil : ByteBeats [] := ⟨[], rfl⟩

theorem ByteBeats.append {beats beats' : List ByteBeat} (h : ByteBeats beats) (h' : ByteBeats beats') :
    ByteBeats (beats ++ beats') := by
  obtain ⟨bytes, rfl⟩ := h
  obtain ⟨bytes', rfl⟩ := h'
  exact ⟨bytes ++ bytes', by rw [List.map_append, List.map_append]⟩

theorem ByteBeats.header (w h : BitVec 32) : ByteBeats ((headerToks w h).map byteTokWord) :=
  ⟨magicBytes ++ beBytes 4 w ++ beBytes 4 h, by simp [headerToks, sendToks]⟩

theorem ByteBeats.pixel (p : Pixel) : ByteBeats ((pixelToks p).map byteTokWord) :=
  ⟨pixelBytes p, by simp [pixelToks, sendToks, pixelBytes]⟩

/-! ### The pixels still owed (R35, R132, R133, R137) -/

theorem pixIrregular_iff (e : EncRegs) :
    pixIrregular e = true ↔ e.rem = 0 ∨ e.col.toNat + 1 = e.w.toNat := by
  rw [pixIrregular, Bool.or_eq_true, beq_iff_eq, lastColumn_iff]

theorem pixlIrregular_iff (e : EncRegs) :
    pixlIrregular e = true ↔ e.rem = 0 ∨ e.col.toNat + 1 ≠ e.w.toNat := by
  rw [pixlIrregular, Bool.or_eq_true, beq_iff_eq, Bool.not_eq_true', ← Bool.not_eq_true, lastColumn_iff]

/-- A counter that is not 0 counts down without wrapping (R35). -/
theorem ofNat_toNat_pred {v : BitVec 64} (hv : v ≠ 0) : BitVec.ofNat 64 (v.toNat - 1) = v - 1 := by bv_omega

section
variable {e : EncRegs} (p : Pixel)

theorem pixEffect_irregular (h : e.rem = 0 ∨ e.col.toNat + 1 = e.w.toNat) :
    pixEffect p e = some ({ e with err := 6, phase := .drain }, []) := if_pos ((pixIrregular_iff e).mpr h)

theorem pixEffect_regular (hrem : e.rem ≠ 0) (hcol : e.col.toNat + 1 ≠ e.w.toNat) :
    pixEffect p e = some ({ e with rem := BitVec.ofNat 64 (e.rem.toNat - 1), col := e.col + 1 },
      (pixelToks p).map byteTokWord) := by
  rw [ofNat_toNat_pred hrem]
  exact if_neg ((pixIrregular_iff e).not.mpr (not_or.mpr ⟨hrem, hcol⟩))

theorem pixlEffect_irregular (h : e.rem = 0 ∨ e.col.toNat + 1 ≠ e.w.toNat) :
    pixlEffect p e = some ({ e with err := 6, phase := .drain }, []) := if_pos ((pixlIrregular_iff e).mpr h)

theorem pixlEffect_regular (hrem : e.rem ≠ 0) (hcol : e.col.toNat + 1 = e.w.toNat) :
    pixlEffect p e = some ({ e with rem := BitVec.ofNat 64 (e.rem.toNat - 1), col := 0 },
      (pixelToks p).map byteTokWord) := by
  rw [ofNat_toNat_pred hrem]
  exact if_neg ((pixlIrregular_iff e).not.mpr (not_or.mpr ⟨hrem, not_not.mpr hcol⟩))

end

/-! ### The effect of a beat, by phase and kind (R81) -/

section
variable {b : GridBeat} {e : EncRegs}

theorem encBeatEffect_idle_hdr (hp : e.phase = .idle) (hk : beatKind b = .hdr) :
    encBeatEffect b e = hdrEffect (payloadW (beatPayload b)) (payloadH (beatPayload b)) e := by
  simp only [encBeatEffect, hp, hk]

theorem encBeatEffect_idle_pixel (hp : e.phase = .idle) (hk : beatKind b = .pix ∨ beatKind b = .pixl) :
    encBeatEffect b e = violEffect e := by
  obtain hk | hk := hk <;> simp only [encBeatEffect, hp, hk]

theorem encBeatEffect_body_hdr (hp : e.phase = .body) (hk : beatKind b = .hdr) :
    encBeatEffect b e = violEffect e := by simp only [encBeatEffect, hp, hk]

theorem encBeatEffect_body_pix (hp : e.phase = .body) (hk : beatKind b = .pix) :
    encBeatEffect b e = pixEffect (pixelOfWord (beatPayload b)) e := by simp only [encBeatEffect, hp, hk]

theorem encBeatEffect_body_pixl (hp : e.phase = .body) (hk : beatKind b = .pixl) :
    encBeatEffect b e = pixlEffect (pixelOfWord (beatPayload b)) e := by simp only [encBeatEffect, hp, hk]

theorem encBeatEffect_of_close (hk : beatKind b = .close) : encBeatEffect b e = endEffect e := by
  rw [← gridBeat_fields b, hk, encBeatEffect_end]

end

/-! ### What a grid's beats send (R137) -/

section
variable {b : GridBeat} {bs : List GridBeat} {e e' : EncRegs} {beats : List ByteBeat}

/-- What the beats after the first send: bytes, eight for each pixel less that is owed, where `E_BODY` is not left. -/
structure SendsPixels (e e' : EncRegs) (beats : List ByteBeat) : Prop where
  bytes : ByteBeats beats
  phase_ne : e'.phase ≠ .idle
  owed : e'.phase = .body → e.phase = .body ∧ beats.length + 8 * e'.rem.toNat = 8 * e.rem.toNat

/-- Draining sends nothing. -/
theorem SendsPixels.drain (hp : e'.phase = .drain) : SendsPixels e e' [] :=
  ⟨.nil, by rw [hp]; nofun, by rw [hp]; nofun⟩

/-- A pixel sent is a pixel less owed. -/
theorem SendsPixels.pixel (hp : e.phase = .body) (hrem : e.rem ≠ 0) (p : Pixel) (col : BitVec 32) :
    SendsPixels e { e with rem := BitVec.ofNat 64 (e.rem.toNat - 1), col := col } ((pixelToks p).map byteTokWord) := by
  refine ⟨.pixel p, by rw [hp]; nofun, fun _ => ⟨hp, ?_⟩⟩
  rw [List.length_map, pixelToks_length, ofNat_toNat_pred hrem]
  bv_omega

theorem pixEffect_sends {p : Pixel} (hp : e.phase = .body) (h : pixEffect p e = some (e', beats)) :
    SendsPixels e e' beats := by
  by_cases hirr : e.rem = 0 ∨ e.col.toNat + 1 = e.w.toNat
  · cases (pixEffect_irregular p hirr).symm.trans h; exact .drain rfl
  · obtain ⟨hrem, hcol⟩ := not_or.mp hirr
    cases (pixEffect_regular p hrem hcol).symm.trans h; exact .pixel hp hrem p _

theorem pixlEffect_sends {p : Pixel} (hp : e.phase = .body) (h : pixlEffect p e = some (e', beats)) :
    SendsPixels e e' beats := by
  by_cases hirr : e.rem = 0 ∨ e.col.toNat + 1 ≠ e.w.toNat
  · cases (pixlEffect_irregular p hirr).symm.trans h; exact .drain rfl
  · obtain ⟨hrem, hcol⟩ := not_or.mp hirr
    cases (pixlEffect_regular p hrem (not_not.mp hcol)).symm.trans h; exact .pixel hp hrem p _

/-- Outside `E_IDLE` a beat other than `END` sends a pixel or nothing. -/
theorem encBeatEffect_sends (hp : e.phase ≠ .idle) (hb : beatKind b ≠ .close)
    (h : encBeatEffect b e = some (e', beats)) : SendsPixels e e' beats := by
  cases hph : e.phase with
  | idle => exact absurd hph hp
  | body =>
    cases hk : beatKind b with
    | hdr => rw [encBeatEffect_body_hdr hph hk] at h; cases h; exact .drain rfl
    | pix => exact pixEffect_sends hph ((encBeatEffect_body_pix hph hk).symm.trans h)
    | pixl => exact pixlEffect_sends hph ((encBeatEffect_body_pixl hph hk).symm.trans h)
    | close => exact absurd hk hb
  | drain => rw [encBeatEffect_drain hph, if_neg hb] at h; cases h; exact .drain hph
  | unused3 => rw [encBeatEffect_unreachable (by rw [hph]; rfl)] at h; cases h

theorem SendsPixels.trans {e₁ : EncRegs} {beats₁ beats₂ : List ByteBeat} (h₁ : SendsPixels e e₁ beats₁)
    (h₂ : SendsPixels e₁ e' beats₂) : SendsPixels e e' (beats₁ ++ beats₂) := by
  refine ⟨h₁.bytes.append h₂.bytes, h₂.phase_ne, fun hbody => ?_⟩
  obtain ⟨hbody₁, hlen₂⟩ := h₂.owed hbody
  obtain ⟨hbody₀, hlen₁⟩ := h₁.owed hbody₁
  refine ⟨hbody₀, ?_⟩
  rw [List.length_append]
  omega

/-- Outside `E_IDLE` the beats before an `END` send pixels. -/
theorem encBeatsEffect_sends (hp : e.phase ≠ .idle) (hopen : ∀ b ∈ bs, beatKind b ≠ .close)
    (h : encBeatsEffect bs e = some (e', beats)) : SendsPixels e e' beats := by
  induction bs generalizing e beats with
  | nil => cases h; exact ⟨.nil, hp, fun hbody => ⟨hbody, Nat.zero_add _⟩⟩
  | cons b bs ih =>
    obtain ⟨hb, hbs⟩ := List.forall_mem_cons.mp hopen
    obtain ⟨e₁, beats₁, beats₂, h₁, h₂, rfl⟩ := encBeatsEffect_cons_eq_some h
    have hsends := encBeatEffect_sends hp hb h₁
    exact hsends.trans (ih hsends.phase_ne hbs h₂)

/-- A payload is made of its two dimensions (R75). -/
theorem hdrPayload_fields (p : BitVec 64) : hdrPayload (payloadW p) (payloadH p) = p := by
  apply BitVec.eq_of_toNat_eq
  rw [hdrPayload_toNat, payloadW_toNat, payloadH_toNat]
  omega

/-- A `HDR` beat is made of its two dimensions (R76). -/
theorem eq_gridBeat_hdr (hk : beatKind b = .hdr) :
    b = gridBeat .hdr (hdrPayload (payloadW (beatPayload b)) (payloadH (beatPayload b))) := by
  rw [hdrPayload_fields, ← hk, gridBeat_fields]

/-- The beats before an `END` send bytes; where they end in `E_BODY`, the first was a `HDR`, and its sixteen bytes,
those sent for pixels and those of the pixels still owed make up the grid. -/
theorem encBeatsEffect_grid (hp : e.phase = .idle) (hopen : ∀ b ∈ bs, beatKind b ≠ .close)
    (h : encBeatsEffect bs e = some (e', beats)) :
    ByteBeats beats ∧ (e'.phase = .body → ∃ w h, bs.head? = some (gridBeat .hdr (hdrPayload w h)) ∧
      beats.length + 8 * e'.rem.toNat = 16 + 8 * w.toNat * h.toNat) := by
  cases bs with
  | nil => cases h; exact ⟨.nil, fun hbody => by rw [hp] at hbody; cases hbody⟩
  | cons b bs =>
    obtain ⟨hb, hbs⟩ := List.forall_mem_cons.mp hopen
    obtain ⟨e₁, beats₁, beats₂, h₁, h₂, rfl⟩ := encBeatsEffect_cons_eq_some h
    have hviol (hk : beatKind b = .pix ∨ beatKind b = .pixl) :
        ByteBeats (beats₁ ++ beats₂) ∧ e'.phase ≠ .body := by
      rw [encBeatEffect_idle_pixel hp hk] at h₁
      cases h₁
      obtain ⟨hbytes, -, howed⟩ := encBeatsEffect_sends (by nofun) hbs h₂
      exact ⟨hbytes, fun hbody => by obtain ⟨hdrain, -⟩ := howed hbody; cases hdrain⟩
    cases hk : beatKind b with
    | hdr =>
      rw [encBeatEffect_idle_hdr hp hk] at h₁
      cases h₁
      obtain ⟨hbytes, -, howed⟩ := encBeatsEffect_sends (by nofun) hbs h₂
      refine ⟨ByteBeats.append (.header _ _) hbytes, fun hbody => ⟨_, _, congrArg some (eq_gridBeat_hdr hk), ?_⟩⟩
      obtain ⟨-, hlen⟩ := howed hbody
      rw [BitVec.toNat_ofNat, Nat.mod_eq_of_lt (dimensions_product_fits _ _), ← Nat.mul_assoc] at hlen
      rw [List.length_append, List.length_map, headerToks_length, Nat.add_assoc, hlen]
    | pix => exact (hviol (.inl hk)).imp_right fun h hbody => absurd hbody h
    | pixl => exact (hviol (.inr hk)).imp_right fun h hbody => absurd hbody h
    | close => exact absurd hk hb

end

/-- `ENC.END` reports `OK` only in `E_BODY` with no pixel owed (R134, R137). -/
theorem encEndCode_eq_zero {e : EncRegs} (hinv : encInv e) (hcode : encEndCode e = some 0) :
    e.phase = .body ∧ e.rem = 0 := by
  unfold encEndCode at hcode
  cases hp : e.phase with
  | idle => rw [hp] at hcode; cases hcode
  | body =>
    rw [hp] at hcode
    refine ⟨rfl, by_contra fun hrem => ?_⟩
    simp only [if_pos hrem] at hcode
    cases hcode
  | drain =>
    rw [hp] at hcode
    rw [encInv, hp, Option.some.inj hcode] at hinv
    exact absurd hinv (not_or.mpr ⟨by decide, by decide⟩)
  | unused3 => rw [hp] at hcode; cases hcode

/-- Settles O52: every beat but the `END` sends bytes, and `OK` is reported where the pixels owed at the header were all
sent. -/
theorem encFrameIsBytesThenStatus : Obligations.EncFrameIsBytesThenStatus := by
  intro s t body endPayload henc hr hd hcap hopen hin hrun
  obtain ⟨e, beats, code, hbody, hcode, hout⟩ := encOut_of_run_grid hr hd hcap hin hrun
  obtain ⟨⟨bytes, rfl⟩, hgrid⟩ := encBeatsEffect_grid (by rw [henc]; rfl) hopen hbody
  refine ⟨bytes, code, by rw [hout, List.map_append]; rfl, ?_⟩
  rintro rfl
  have hinv := encBeatsEffect_inv (by rw [henc]; exact encInv_reset) hbody
  obtain ⟨hp, hrem⟩ := encEndCode_eq_zero hinv hcode
  obtain ⟨w, h, hhead, hlen⟩ := hgrid hp
  refine ⟨w, h, hhead, ?_⟩
  simpa [hrem] using hlen

end Sys2Proof.Machine
end

section
/-! SUPPORT. The pixels of a grid's rows as they are checked against the header, and the obligation about the check
(R132, R133, R138, R139). -/

namespace Sys2Proof.Machine

/-! ### Rows as beats (R138) -/

/-- The beats of rows of pixels. -/
def rowsBeats (g : Grid) : List GridBeat := (g.flatMap rowToks).map gridTokWord

theorem beatKind_of_mem_rowToks {row : List Pixel} {tok : GridTok} (h : tok ∈ rowToks row) :
    beatKind (gridTokWord tok) ≠ .close := by
  induction row using rowToks.induct with
  | case1 => cases h
  | case2 p =>
    obtain rfl := List.mem_singleton.mp h
    rw [gridTokWord, beatKind_gridBeat]; nofun
  | case3 p q ps ih =>
    obtain rfl | h := List.mem_cons.mp h
    · rw [gridTokWord, beatKind_gridBeat]; nofun
    · exact ih h

/-- No beat of a row is an `END`. -/
theorem rowsBeats_open (g : Grid) : ∀ b ∈ rowsBeats g, beatKind b ≠ .close := by
  intro b hb
  obtain ⟨tok, htok, rfl⟩ := List.mem_map.mp hb
  obtain ⟨row, -, htok⟩ := List.mem_flatMap.mp htok
  exact beatKind_of_mem_rowToks htok

section
variable {e : EncRegs}

theorem encBeatEffect_pix (p : Pixel) (hp : e.phase = .body) :
    encBeatEffect (gridTokWord (.pix p)) e = pixEffect p e := by
  rw [gridTokWord, encBeatEffect_body_pix hp (beatKind_gridBeat _ _), beatPayload_gridBeat, pixelOfWord_pixelWord]

theorem encBeatEffect_pixl (p : Pixel) (hp : e.phase = .body) :
    encBeatEffect (gridTokWord (.pixl p)) e = pixlEffect p e := by
  rw [gridTokWord, encBeatEffect_body_pixl hp (beatKind_gridBeat _ _), beatPayload_gridBeat, pixelOfWord_pixelWord]

/-! ### The two outcomes of the check (R132, R133) -/

/-- The registers after `n` more pixels of the grid, the last of them the last of its row. -/
def EncRegs.afterPixels (e : EncRegs) (n : Nat) : EncRegs :=
  { e with rem := BitVec.ofNat 64 (e.rem.toNat - n), col := 0 }

theorem EncRegs.afterPixels_rem (e : EncRegs) (n : Nat) : (e.afterPixels n).rem.toNat = e.rem.toNat - n :=
  Nat.mod_eq_of_lt ((Nat.sub_le _ _).trans_lt e.rem.isLt)

theorem EncRegs.afterPixels_afterPixels (e : EncRegs) (m n : Nat) :
    (e.afterPixels m).afterPixels n = e.afterPixels (m + n) := by
  rw [afterPixels, afterPixels_rem, Nat.sub_sub]; rfl

theorem EncRegs.afterPixels_zero (hcol : e.col = 0) : e.afterPixels 0 = e := by
  rw [afterPixels, Nat.sub_zero, BitVec.ofNat_toNat, BitVec.setWidth_eq, ← hcol]

/-- The registers after one more pixel that is not the last of its row. -/
def EncRegs.withinRow (e : EncRegs) : EncRegs := { e with rem := BitVec.ofNat 64 (e.rem.toNat - 1), col := e.col + 1 }

theorem EncRegs.withinRow_rem (e : EncRegs) : e.withinRow.rem.toNat = e.rem.toNat - 1 := e.afterPixels_rem 1

theorem EncRegs.withinRow_col (h : e.col.toNat < e.w.toNat) : e.withinRow.col.toNat = e.col.toNat + 1 :=
  BitVec.toNat_add_of_lt (by have := e.w.isLt; simp; omega)

theorem EncRegs.withinRow_afterPixels (e : EncRegs) (n : Nat) : e.withinRow.afterPixels n = e.afterPixels (1 + n) := by
  rw [afterPixels, withinRow_rem, Nat.sub_sub]; rfl

/-- Beats one of which raised `IrregularGrid`. -/
def RaisesIrregular (o : Option (EncRegs × List ByteBeat)) : Prop :=
  ∃ e beats, o = some (e, beats) ∧ e.phase = .drain ∧ e.err = 6

/-- What follows in the same grid leaves it raised (R135). -/
theorem RaisesIrregular.append {bs bs' : List GridBeat} (h : RaisesIrregular (encBeatsEffect bs e))
    (hopen : ∀ b ∈ bs', beatKind b ≠ .close) : RaisesIrregular (encBeatsEffect (bs ++ bs') e) := by
  obtain ⟨e₁, beats, heff, hp, herr⟩ := h
  exact ⟨e₁, _, encBeatsEffect_append_of_eq_some heff (encBeatsEffect_drain hp hopen), hp, herr⟩

/-- What was accepted before leaves it raised. -/
theorem RaisesIrregular.after {bs bs' : List GridBeat} {e₁ : EncRegs} {beats : List ByteBeat}
    (heff : encBeatsEffect bs e = some (e₁, beats)) (h : RaisesIrregular (encBeatsEffect bs' e₁)) :
    RaisesIrregular (encBeatsEffect (bs ++ bs') e) := by
  obtain ⟨e₂, beats', heff', hp, herr⟩ := h
  exact ⟨e₂, _, encBeatsEffect_append_of_eq_some heff heff', hp, herr⟩

/-! ### One row -/

theorem ne_zero_of_succ_le {n : Nat} {v : BitVec 64} (h : n + 1 ≤ v.toNat) : v ≠ 0 := by
  rintro rfl
  exact Nat.not_succ_le_zero _ h

/-- The last pixel of a row is sent in the last column if one is owed, and raises `IrregularGrid` otherwise. -/
theorem encBeatsEffect_last_of_row (p : Pixel) (hp : e.phase = .body) :
    if e.col.toNat + 1 = e.w.toNat ∧ 1 ≤ e.rem.toNat then
      encBeatsEffect [gridTokWord (.pixl p)] e = some (e.afterPixels 1, (pixelToks p).map byteTokWord)
    else RaisesIrregular (encBeatsEffect [gridTokWord (.pixl p)] e) := by
  have hone : encBeatsEffect [gridTokWord (.pixl p)] e = pixlEffect p e := by
    rw [← encBeatEffect_pixl p hp]
    simp [encBeatsEffect]
  rw [hone]
  split_ifs with h
  · obtain ⟨hlast, hrem⟩ := h
    exact pixlEffect_regular p (ne_zero_of_succ_le hrem) hlast
  · refine ⟨_, _, pixlEffect_irregular p ?_, rfl, rfl⟩
    by_contra hreg
    obtain ⟨hrem, hlast⟩ := not_or.mp hreg
    exact h ⟨not_not.mp hlast, by bv_omega⟩

/-- The pixels left in a row are sent if they fill it and are owed, and one of them raises `IrregularGrid` otherwise. -/
theorem encBeatsEffect_rest_of_row (p : Pixel) (ps : List Pixel) (hp : e.phase = .body)
    (hcol : e.rem ≠ 0 → e.col.toNat < e.w.toNat) :
    if e.col.toNat + (ps.length + 1) = e.w.toNat ∧ ps.length + 1 ≤ e.rem.toNat then
      encBeatsEffect ((rowToks (p :: ps)).map gridTokWord) e =
        some (e.afterPixels (ps.length + 1), ((p :: ps).flatMap pixelToks).map byteTokWord)
    else RaisesIrregular (encBeatsEffect ((rowToks (p :: ps)).map gridTokWord) e) := by
  induction ps generalizing e p with
  | nil => rw [List.flatMap_singleton]; exact encBeatsEffect_last_of_row p hp
  | cons q ps ih =>
    rw [List.length_cons]
    by_cases hirr : e.rem = 0 ∨ e.col.toNat + 1 = e.w.toNat
    · have hraise : RaisesIrregular (encBeatsEffect [gridTokWord (.pix p)] e) :=
        ⟨_, _, encBeatsEffect_cons_of_eq_some ((encBeatEffect_pix p hp).trans (pixEffect_irregular p hirr)) rfl, rfl,
          rfl⟩
      have hnot : ¬ (e.col.toNat + (ps.length + 1 + 1) = e.w.toNat ∧ ps.length + 1 + 1 ≤ e.rem.toNat) := by
        rintro ⟨hfills, howed⟩
        obtain hrem | hlast := hirr
        · exact ne_zero_of_succ_le howed hrem
        · omega
      rw [if_neg hnot]
      exact hraise.append fun b hb => by
        obtain ⟨tok, htok, rfl⟩ := List.mem_map.mp hb
        exact beatKind_of_mem_rowToks htok
    · obtain ⟨hrem, hlast⟩ := not_or.mp hirr
      have hfirst : encBeatsEffect [gridTokWord (.pix p)] e = some (e.withinRow, _) :=
        encBeatsEffect_cons_of_eq_some ((encBeatEffect_pix p hp).trans (pixEffect_regular p hrem hlast)) rfl
      have hcol₁ := e.withinRow_col (hcol hrem)
      have hlt : e.withinRow.col.toNat < e.w.toNat := by rw [hcol₁]; have := hcol hrem; omega
      have hiff : e.withinRow.col.toNat + (ps.length + 1) = e.w.toNat ∧ ps.length + 1 ≤ e.withinRow.rem.toNat ↔
          e.col.toNat + (ps.length + 1 + 1) = e.w.toNat ∧ ps.length + 1 + 1 ≤ e.rem.toNat := by
        rw [hcol₁, e.withinRow_rem]; omega
      have hrest := ih (e := e.withinRow) q hp fun _ => hlt
      rw [EncRegs.withinRow_afterPixels, Nat.add_comm 1] at hrest
      split_ifs with h
      · have hboth := encBeatsEffect_append_of_eq_some hfirst ((if_pos (hiff.mpr h)).mp hrest)
        rw [List.flatMap_cons, List.map_append]
        exact hboth
      · exact .after hfirst ((if_neg (hiff.not.mpr h)).mp hrest)

/-! ### The rows of a grid (R139) -/

/-- What the check asks of rows: each is empty or as long as the header says, and no more pixels stand in them than are
owed. -/
def RowsFit (g : Grid) (e : EncRegs) : Prop :=
  (∀ row ∈ g, row = [] ∨ row.length = e.w.toNat) ∧ g.flatten.length ≤ e.rem.toNat

/-- An empty row sends nothing, so the check does not see it (R138). -/
theorem rowsFit_nil_cons (g : Grid) (e : EncRegs) : RowsFit ([] :: g) e ↔ RowsFit g e := by
  simp [RowsFit]

theorem rowsFit_cons_cons (p : Pixel) (ps : List Pixel) (g : Grid) (e : EncRegs) :
    RowsFit ((p :: ps) :: g) e ↔
      (ps.length + 1 = e.w.toNat ∧ ps.length + 1 ≤ e.rem.toNat) ∧ RowsFit g (e.afterPixels (ps.length + 1)) := by
  rw [RowsFit, RowsFit, e.afterPixels_rem, List.forall_mem_cons, List.flatten_cons, List.length_append,
    List.length_cons]
  simp only [reduceCtorEq, false_or]
  constructor
  · rintro ⟨⟨hrow, hrows⟩, hlen⟩
    exact ⟨⟨hrow, by omega⟩, hrows, by omega⟩
  · rintro ⟨⟨hrow, hrem⟩, hrows, hlen⟩
    exact ⟨⟨hrow, hrows⟩, by omega⟩

theorem rowsBeats_cons (row : List Pixel) (g : Grid) :
    rowsBeats (row :: g) = (rowToks row).map gridTokWord ++ rowsBeats g := by
  rw [rowsBeats, List.flatMap_cons, List.map_append]; rfl

/-- From column 0, rows that fit are sent, and others raise `IrregularGrid`. -/
theorem encBeatsEffect_rows (g : Grid) (hp : e.phase = .body) (hcol : e.col = 0) (hw : e.rem ≠ 0 → 0 < e.w.toNat) :
    (RowsFit g e → encBeatsEffect (rowsBeats g) e =
      some (e.afterPixels g.flatten.length, (g.flatten.flatMap pixelToks).map byteTokWord)) ∧
    (¬ RowsFit g e → RaisesIrregular (encBeatsEffect (rowsBeats g) e)) := by
  induction g generalizing e with
  | nil =>
    refine ⟨fun _ => ?_, fun h => absurd ⟨nofun, Nat.zero_le _⟩ h⟩
    rw [List.flatten_nil, List.length_nil, EncRegs.afterPixels_zero hcol]; rfl
  | cons row g ih =>
    rw [rowsBeats_cons]
    cases row with
    | nil => rw [rowsFit_nil_cons]; exact ih hp hcol hw
    | cons p ps =>
      have hrow := encBeatsEffect_rest_of_row p ps hp (by rw [hcol]; exact hw)
      rw [hcol, show (0 : BitVec 32).toNat = 0 from rfl, Nat.zero_add] at hrow
      rw [rowsFit_cons_cons]
      split_ifs at hrow with hfit
      · obtain ⟨hsent, hraised⟩ := ih (e := e.afterPixels (ps.length + 1)) hp rfl fun _ => by
          obtain ⟨hlen, -⟩ := hfit
          exact hlen ▸ Nat.succ_pos _
        refine ⟨fun ⟨_, hrest⟩ => ?_, fun hnot => .after hrow (hraised fun hrest => hnot ⟨hfit, hrest⟩)⟩
        rw [encBeatsEffect_append_of_eq_some hrow (hsent hrest), EncRegs.afterPixels_afterPixels, List.flatten_cons,
          List.length_append, List.length_cons, List.flatMap_append, List.map_append]
      · exact ⟨fun ⟨h, _⟩ => absurd h hfit, fun _ => hrow.append (rowsBeats_open g)⟩

/-- The code at the `END` after the rows of a grid. -/
theorem encEndCode_of_rows {g : Grid} {e' : EncRegs} {beats : List ByteBeat} (hp : e.phase = .body) (hcol : e.col = 0)
    (hw : e.rem ≠ 0 → 0 < e.w.toNat) (heff : encBeatsEffect (rowsBeats g) e = some (e', beats)) :
    (RowsFit g e ∧ g.flatten.length = e.rem.toNat → encEndCode e' = some 0) ∧
    (¬ (RowsFit g e ∧ g.flatten.length = e.rem.toNat) → encEndCode e' = some 6) := by
  obtain ⟨hsent, hraised⟩ := encBeatsEffect_rows g hp hcol hw
  have hbody : (e.afterPixels g.flatten.length).phase = .body := hp
  by_cases hfit : RowsFit g e
  · cases heff.symm.trans (hsent hfit)
    have hrem : (e.afterPixels g.flatten.length).rem = 0 ↔ g.flatten.length = e.rem.toNat := by
      obtain ⟨-, hle⟩ := hfit
      rw [← BitVec.toNat_inj, e.afterPixels_rem, show (0 : BitVec 64).toNat = 0 from rfl]
      omega
    simp only [encEndCode, hbody, ne_eq, hrem]
    exact ⟨fun ⟨_, h⟩ => congrArg some (if_neg (not_not.mpr h)),
      fun h => congrArg some (if_pos fun heq => h ⟨hfit, heq⟩)⟩
  · obtain ⟨_, _, heff', hdrain, herr⟩ := hraised hfit
    cases heff.symm.trans heff'
    exact ⟨fun ⟨h, _⟩ => absurd h hfit, fun _ => by rw [encEndCode, hdrain, herr]⟩

end

/-! ### Regular grids (R23, R139) -/

theorem length_flatten_of_regular {g : Grid} (h : ∀ r ∈ g, r.length = derivedWidth g) :
    g.flatten.length = derivedWidth g * g.length := by
  rw [← List.flatMap_id]; exact length_flatMap_blocks h

/-- The first row has the derived width (R138). -/
theorem row_length_of_same {g : Grid} (h : ∀ r ∈ g, ∀ r' ∈ g, r.length = r'.length) :
    ∀ r ∈ g, r.length = derivedWidth g := by
  cases g with
  | nil => nofun
  | cons row g => exact fun r hr => h r hr row List.mem_cons_self

/-- Rows no longer than a width that hold as many pixels as rows of that width are all of that width. -/
theorem row_length_of_length_flatten {g : Grid} {w : Nat} (hle : ∀ r ∈ g, r.length ≤ w)
    (hlen : g.flatten.length = w * g.length) : ∀ r ∈ g, r.length = w := by
  intro r hr
  by_contra hne
  have hlt := List.sum_lt_sum (l := g) List.length (fun _ => w) hle ⟨r, hr, lt_of_le_of_ne (hle r hr) hne⟩
  rw [← List.length_flatten, hlen, List.map_const', List.sum_replicate, smul_eq_mul, Nat.mul_comm] at hlt
  exact lt_irrefl _ hlt

/-- The registers where a header has just been taken (R131). -/
def EncRegs.opened (w h : BitVec 32) : EncRegs := ⟨.body, 0, w, h, BitVec.ofNat 64 (w.toNat * h.toNat), 0⟩

theorem EncRegs.opened_rem (w h : BitVec 32) : (EncRegs.opened w h).rem.toNat = w.toNat * h.toNat :=
  Nat.mod_eq_of_lt (dimensions_product_fits w h)

/-- The rows of a grid are what its header says exactly if they are all of one length. -/
theorem rowsFit_opened_iff {g : Grid} {w h : BitVec 32} (hw : w.toNat = derivedWidth g) (hh : h.toNat = g.length) :
    RowsFit g (.opened w h) ∧ g.flatten.length = (EncRegs.opened w h).rem.toNat ↔
      ∀ r ∈ g, ∀ r' ∈ g, r.length = r'.length := by
  rw [RowsFit, EncRegs.opened_rem, hh, show (EncRegs.opened w h).w.toNat = derivedWidth g from hw, hw]
  constructor
  · rintro ⟨⟨hrows, -⟩, hlen⟩
    have hsame := row_length_of_length_flatten (fun r hr => by obtain rfl | h := hrows r hr <;> simp [*]) hlen
    exact fun r hr r' hr' => (hsame r hr).trans (hsame r' hr').symm
  · intro hsame
    have hrows := row_length_of_same hsame
    have hlen := length_flatten_of_regular hrows
    exact ⟨⟨fun r hr => .inr (hrows r hr), hlen.le⟩, hlen⟩

/-- A `HDR` on a grid that has just been reset opens it (R131). -/
theorem encBeatEffect_hdr_reset (w h : BitVec 32) : encBeatEffect (gridTokWord (.hdr w h)) EncRegs.reset =
    some (.opened w h, (headerToks w h).map byteTokWord) := by
  rw [gridTokWord, encBeatEffect_idle_hdr rfl (beatKind_gridBeat _ _), beatPayload_gridBeat, payloadW_hdrPayload,
    payloadH_hdrPayload]
  rfl

/-- The code `ENC` reports for `stream(W, H, G)` is that of the check (R134, R139). -/
theorem encEndCode_of_stream {g : Grid} {w h : BitVec 32} {e : EncRegs} {beats : List ByteBeat}
    (hw : w.toNat = derivedWidth g) (hh : h.toNat = g.length)
    (heff : encBeatsEffect (gridTokWord (.hdr w h) :: rowsBeats g) EncRegs.reset = some (e, beats)) :
    ((∀ r ∈ g, ∀ r' ∈ g, r.length = r'.length) → encEndCode e = some 0) ∧
    (¬ (∀ r ∈ g, ∀ r' ∈ g, r.length = r'.length) → encEndCode e = some 6) := by
  obtain ⟨_, _, _, hhdr, hrows, -⟩ := encBeatsEffect_cons_eq_some heff
  cases (encBeatEffect_hdr_reset w h).symm.trans hhdr
  have hpos (hrem : (EncRegs.opened w h).rem ≠ 0) : 0 < w.toNat := by
    refine Nat.pos_of_ne_zero fun hzero => hrem (BitVec.eq_of_toNat_eq ?_)
    rw [EncRegs.opened_rem, hzero, Nat.zero_mul]; rfl
  rw [← rowsFit_opened_iff hw hh]
  exact encEndCode_of_rows rfl rfl hpos hrows

/-- Settles O53: the rows of a grid fit its header and fill it exactly if they are all of one length. -/
theorem streamCheckIsTheRegularityCheck : Obligations.StreamCheckIsTheRegularityCheck := by
  intro s t g endPayload hh hw henc hr hd hcap hin hrun
  have hlen : (encodeBeats g endPayload).length = (gridTokWord _ :: rowsBeats g).length + 1 := List.length_append
  rw [hlen] at hrun
  obtain ⟨e, beats, code, heff, hcode, hout⟩ := encOut_of_run_grid hr hd hcap hin hrun
  have hlast : t.encOut.getLast? = some (byteTokWord (.eof code)) := by simp [hout]
  rw [henc] at heff
  obtain ⟨hok, hirregular⟩ := encEndCode_of_stream (w := .ofNat 32 _) (h := .ofNat 32 _) (Nat.mod_eq_of_lt hw)
    (Nat.mod_eq_of_lt hh) heff
  refine ⟨fun ⟨r, hr, r', hr', hne⟩ => ?irregular, fun hsame => ?regular⟩
  case irregular =>
    obtain rfl := Option.some.inj (hcode.symm.trans (hirregular fun hsame => hne (hsame r hr r' hr')))
    exact hlast
  case regular =>
    obtain rfl := Option.some.inj (hcode.symm.trans (hok hsame))
    exact hlast

end Sys2Proof.Machine
end

section
/-! SUPPORT. What an `ENC` operation leaves alone, and the phases its beats lead to, and the obligations about both
(R130, R140). -/

namespace Sys2Proof.Machine

/-- Settles O30: every such meaning is an effect on `ENC`'s registers and the beats it appends. -/
theorem encOperationsLeaveTheRestAlone : Obligations.EncOperationsLeaveTheRestAlone := by
  intro i s t hi h
  obtain ⟨effect, heff⟩ := exec_encLocal i hi
  rw [heff] at h
  cases hp : effect s.cfg s.enc with
  | none => rw [hp] at h; cases h
  | some p => rw [hp] at h; cases h; exact ⟨p.2, rfl⟩

/-- From a reachable phase, where the port takes what the instruction of the oldest `enc_in` beat sends, the step is
that beat's effect (R130, R218). -/
theorem stepUnit_enc_of_room {s : State} {b : GridBeat} {bs : List GridBeat} (hin : s.encIn = b :: bs)
    (he : ePhaseReachable s.enc.phase = true)
    (hroom : ∀ i u, decode (encWord s.enc.phase b) = .ok i → exec i { s with encIn := bs } = .next u →
      canTake s.encOutCap 16 s.encOut.length u.encOut.length) :
    ∃ e beats, encBeatEffect b s.enc = some (e, beats) ∧
      stepUnit .enc s = .next { s with encIn := bs, enc := e, encOut := s.encOut ++ beats } := by
  obtain ⟨e, beats, heff, -, -⟩ := encBeatEffect_ok he b
  have hattempt := attempt_enc_cons hin
  rw [State.attempt, fetch_enc_cons hin, take_enc_eq hin, Option.map_some, Option.some_inj, heff] at hattempt
  refine ⟨e, beats, heff, ?_⟩
  rw [stepUnit_enc_cons hin, heff, applyEnc, settle_next, if_pos]
  rw [roomFor_enc_iff]
  cases hdec : decode (encWord s.enc.phase b) with
  | error why => rw [hdec] at hattempt; cases hattempt
  | ok i => rw [hdec] at hattempt; exact hroom i _ hdec hattempt

section
variable {e e' : EncRegs} {beats : List ByteBeat} {p : Pixel}

theorem violEffect_phase (h : violEffect e = some (e', beats)) : e'.phase = .drain ∧ e'.err = 8 := by
  cases h; exact ⟨rfl, rfl⟩

theorem pixEffect_phase (hp : e.phase = .body) (h : pixEffect p e = some (e', beats)) :
    if e.rem = 0 ∨ e.col.toNat + 1 = e.w.toNat then e'.phase = .drain ∧ e'.err = 6 else e'.phase = .body := by
  split_ifs with hirr
  · cases (pixEffect_irregular p hirr).symm.trans h; exact ⟨rfl, rfl⟩
  · obtain ⟨hrem, hcol⟩ := not_or.mp hirr
    cases (pixEffect_regular p hrem hcol).symm.trans h; exact hp

theorem pixlEffect_phase (hp : e.phase = .body) (h : pixlEffect p e = some (e', beats)) :
    if e.rem = 0 ∨ e.col.toNat + 1 ≠ e.w.toNat then e'.phase = .drain ∧ e'.err = 6 else e'.phase = .body := by
  split_ifs with hirr
  · cases (pixlEffect_irregular p hirr).symm.trans h; exact ⟨rfl, rfl⟩
  · obtain ⟨hrem, hcol⟩ := not_or.mp hirr
    cases (pixlEffect_regular p hrem (not_not.mp hcol)).symm.trans h; exact hp

end

/-- Settles O36: the step is the beat's effect, and each row of the table is a branch of one. -/
theorem encPhaseTableIsComplete : Obligations.EncPhaseTableIsComplete := by
  intro s b bs hin he hroom
  obtain ⟨e, beats, heff, hstep⟩ := stepUnit_enc_of_room hin he hroom
  refine ⟨_, hstep, rfl, fun hk => ?close, fun hp hk => ?header, fun hp hk => ?noGrid, fun hp hk => ?secondHeader,
    fun hp hk => ?pix, fun hp hk => ?pixl, fun hp hk => ?drain⟩
  case close =>
    obtain ⟨_, -, hreset⟩ := endEffect_eq_some ((encBeatEffect_of_close hk).symm.trans heff)
    obtain ⟨rfl, -⟩ := Prod.mk.inj hreset
    rfl
  case header => cases (encBeatEffect_idle_hdr hp hk).symm.trans heff; rfl
  case noGrid => exact violEffect_phase ((encBeatEffect_idle_pixel hp hk).symm.trans heff)
  case secondHeader => exact violEffect_phase ((encBeatEffect_body_hdr hp hk).symm.trans heff)
  case pix => exact pixEffect_phase hp ((encBeatEffect_body_pix hp hk).symm.trans heff)
  case pixl => exact pixlEffect_phase hp ((encBeatEffect_body_pixl hp hk).symm.trans heff)
  case drain => rw [encBeatEffect_drain hp, if_neg hk] at heff; cases heff; exact hp

end Sys2Proof.Machine
end

section
/-! SUPPORT. Each `ENC` operation by its cases, and the obligations about them (R131 to R136). -/

namespace Sys2Proof.Machine

/-! ### The forms of the rules -/

/-- An effect that sends nothing writes `ENC`'s registers alone. -/
theorem applyEnc_silent (s : State) (e : EncRegs) : applyEnc s (some (e, [])) = .next { s with enc := e } := by
  rw [applyEnc, List.append_nil]

/-- The beats of `send(v, k)` as numbers (R73, R77, R130). -/
theorem sendToks_beats {n : Nat} (v : BitVec n) (k : Nat) :
    (sendToks v k).map byteTokWord = (List.range k).map fun i => byteOfNat v.toNat (k - 1 - i) := by
  obtain ⟨hbyte, -⟩ := encOutBeatLayout
  rw [sendToks, beBytes, List.map_map, List.map_map]
  refine List.map_congr_left fun i _ => ?_
  rw [Function.comp_apply, Function.comp_apply, hbyte, byte_of_shift_toNat, Nat.pow_mul]; rfl

/-- The beats of a pixel as numbers (R132). -/
theorem pixelToks_beats (p : Pixel) : (pixelToks p).map byteTokWord = pixelByteBeats p := by
  simp only [pixelToks, List.map_append, sendToks_beats]; rfl

/-- The beats of a header as numbers (R131). -/
theorem headerToks_beats (w h : BitVec 32) : (headerToks w h).map byteTokWord = headerByteBeats w h := by
  have hmagic : (magicBytes.map ByteTok.byte).map byteTokWord =
    [0x66, 0x61, 0x72, 0x62, 0x66, 0x65, 0x6C, 0x64] := by decide
  simp only [headerToks, List.map_append, sendToks_beats, hmagic]; rfl

theorem hdrPayload_eq_ofNat (w h : BitVec 32) : BitVec.ofNat 64 (w.toNat * 2 ^ 32 + h.toNat) = hdrPayload w h := by
  rw [← hdrPayload_toNat, BitVec.ofNat_toNat, BitVec.setWidth_eq]

theorem pixelWord_eq_ofNat (p : Pixel) : BitVec.ofNat 64 (pixelPayload p) = pixelWord p := by
  rw [pixelPayload, ← pixelWord_toNat, BitVec.ofNat_toNat, BitVec.setWidth_eq]

/-! ### `ENC.HDR` -/

/-- Settles O21: the operation has one branch, and its product fits. -/
theorem encHdrStartsAFrame : Obligations.EncHdrStartsAFrame := by
  refine ⟨fun w h => ?selector, fun w h s _ => ⟨?operation, dimensions_product_fits w h⟩⟩
  case selector => rw [hdrPayload_eq_ofNat]; exact decodeOfEncodeIsTheInstruction (.encHdr w h) rfl
  case operation =>
    have hexec : exec (.encHdr w h) s = applyEnc s (hdrEffect w h s.enc) := execEncHdr_eq w h s
    rw [hexec, hdrEffect, headerToks_beats]; rfl

/-! ### `ENC.PIX` and `ENC.PIXL` -/

/-- Settles O22: the two branches of the operation. -/
theorem encPixSerialisesAPixel : Obligations.EncPixSerialisesAPixel := by
  refine ⟨fun p => ?selector, fun p s _ => ?_⟩
  case selector => rw [pixelWord_eq_ofNat]; exact decodeOfEncodeIsTheInstruction (.encPix p) rfl
  have hexec : exec (.encPix p) s = applyEnc s (pixEffect p s.enc) := execEncPix_eq p s
  rw [hexec]
  refine ⟨fun hirr => ?irregular, fun hrem hcol => ?regular⟩
  case irregular => rw [pixEffect_irregular p hirr, applyEnc_silent]; rfl
  case regular => rw [pixEffect_regular p hrem hcol, pixelToks_beats, ofNat_toNat_succ]; rfl

/-- Settles O23: the two branches of the operation. -/
theorem encPixlSerialisesTheLastPixelOfARow : Obligations.EncPixlSerialisesTheLastPixelOfARow := by
  refine ⟨fun p => ?selector, fun p s _ => ?_⟩
  case selector => rw [pixelWord_eq_ofNat]; exact decodeOfEncodeIsTheInstruction (.encPixl p) rfl
  have hexec : exec (.encPixl p) s = applyEnc s (pixlEffect p s.enc) := execEncPixl_eq p s
  rw [hexec]
  refine ⟨fun hirr => ?irregular, fun hrem hcol => ?regular⟩
  case irregular => rw [pixlEffect_irregular p hirr, applyEnc_silent]; rfl
  case regular => rw [pixlEffect_regular p hrem hcol, pixelToks_beats]; rfl

/-! ### `ENC.END` -/

/-- `ENC.END` sends the code of the phase it finds and resets `ENC`'s registers. -/
theorem exec_encEnd {s : State} {code : BitVec 4} (p : BitVec 64) (h : encEndCode s.enc = some code) :
    exec (.encEnd p) s =
      .next { s with enc := EncRegs.reset, encOut := s.encOut ++ [BitVec.ofNat 9 (256 + code.toNat)] } := by
  have hexec : exec (.encEnd p) s = applyEnc s (endEffect s.enc) := execEncEnd_eq p s
  rw [hexec, endEffect, h, applyEnc, byteTokWord_eof]

/-- The selectors of an `END` in the reachable phases (R81). -/
theorem mem_end_selectors {sel : BitVec 4} (hle : sel.toNat ≤ 11) (hkind : sel.toNat % 4 = 3) :
    sel ∈ [0x3#4, 0x7#4, 0xB#4] := by
  revert sel; decide

/-- Settles O24: the code is that of the phase, whatever the payload. -/
theorem encEndReportsTheStatusAndResets : Obligations.EncEndReportsTheStatusAndResets := by
  obtain ⟨-, hselectors, -⟩ := encSelectorPicksTheOperation
  refine ⟨fun sel p hle hkind => ?_, fun p s closed hclosed => ?_⟩
  · obtain ⟨-, -, -, -, -, -, -, -, -, hend, -⟩ := hselectors p
    exact hend sel (mem_end_selectors hle hkind)
  · have hexec {code : BitVec 4} (h : encEndCode s.enc = some code) :
        exec (.encEnd p) s = .next (closed code.toNat) := by rw [exec_encEnd p h, hclosed]; rfl
    refine ⟨fun hp => ?idle, fun hp hrem => ?owing, fun hp hrem => ?complete, fun hp => ?drain⟩
    case idle => exact hexec (code := 8) (by rw [encEndCode, hp]; rfl)
    case owing => exact hexec (code := 6) (by rw [encEndCode, hp]; exact congrArg some (if_pos hrem))
    case complete => exact hexec (code := 0) (by rw [encEndCode, hp]; exact congrArg some (if_neg (not_not.mpr hrem)))
    case drain => exact hexec (by rw [encEndCode, hp])

/-! ### `ENC.DRAIN` -/

/-- In `E_DRAIN` a beat other than `END` is taken and changes nothing else, whatever room the port has (R135, R218). -/
theorem stepUnit_drain_beat {s : State} {b : GridBeat} {bs : List GridBeat} (hp : s.enc.phase = .drain)
    (hin : s.encIn = b :: bs) (hb : beatKind b ≠ .close) : stepUnit .enc s = .next { s with encIn := bs } := by
  have hroom : s.roomFor .enc { s with encIn := bs } = true := (roomFor_enc_iff _ _).mpr (.inl le_rfl)
  rw [stepUnit_enc_cons hin, encBeatEffect_drain hp, if_neg hb, applyEnc_silent, settle_next]
  exact if_pos hroom

/-- Settles O25: the operation has no effect, so a step takes the beat and no more. -/
theorem encDrainHasNoEffect : Obligations.EncDrainHasNoEffect := by
  refine ⟨fun _ => ⟨rfl, rfl, rfl⟩, fun _ _ _ _ _ => rfl, fun s t b bs hp hin hb h => ?_⟩
  cases (stepUnit_drain_beat hp hin hb).symm.trans h
  rfl

/-! ### `ENC.VIOL` -/

/-- Settles O26: the operation has one branch, whichever beat selected it. -/
theorem encViolRaisesProtocolViolation : Obligations.EncViolRaisesProtocolViolation := by
  refine ⟨fun _ => ⟨rfl, rfl, rfl⟩, fun k p s _ => ?_⟩
  have hexec : exec (.encViol k p) s = applyEnc s (violEffect s.enc) := execEncViol_eq k p s
  rw [hexec, violEffect, applyEnc_silent]; rfl

end Sys2Proof.Machine
end

section
/-! SUPPORT. The gates of `decode` one by one, what it reads back of an encoded grid, and the obligations about the two
contracts (R160, R162, R165 to R167). -/

namespace Sys2Proof.Machine

/-! ### The header of a frame (R50, R160) -/

/-- A frame with a good magic and all sixteen bytes of a header, which declares `w` columns and `h` rows. -/
structure HasHeader (f : List Byte) (w h : Nat) : Prop where
  magic : f.take 8 = magicBytes
  complete : 16 ≤ f.length
  width : memRead f 8 4 = w
  height : memRead f 12 4 = h

/-- What follows the bytes read makes no difference. -/
theorem memRead_append_left {f : List Byte} {off k : Nat} (h : off + k ≤ f.length) (x : List Byte) :
    memRead (f ++ x) off k = memRead f off k := by
  rw [memRead_eq, memRead_eq, List.drop_append_of_le_length (by omega),
    List.take_append_of_le_length (by rw [List.length_drop]; omega)]

section
variable {c : Config} {f : List Byte} {w h : Nat}

/-- What follows the sixteen bytes of a header makes no difference. -/
theorem hasHeader_append_iff (hlen : 16 ≤ f.length) (x : List Byte) : HasHeader (f ++ x) w h ↔ HasHeader f w h := by
  have hmagic : (f ++ x).take 8 = f.take 8 := List.take_append_of_le_length (by omega)
  have hwidth := memRead_append_left (f := f) (off := 8) (k := 4) (by omega) x
  have hheight := memRead_append_left (f := f) (off := 12) (k := 4) (by omega) x
  refine ⟨fun hx => ⟨hmagic ▸ hx.magic, hlen, hwidth ▸ hx.width, hheight ▸ hx.height⟩, fun hf => ?_⟩
  exact ⟨hmagic ▸ hf.magic, by rw [List.length_append]; omega, hwidth ▸ hf.width, hheight ▸ hf.height⟩

/-! ### The gates of `decode` (R160) -/

theorem decodeFrame_invalidMagic (hbad : f.length < 8 ∨ f.take 8 ≠ magicBytes) :
    decodeFrame c f = .error .invalidMagic := if_pos hbad

theorem length_of_take_magic (hmagic : f.take 8 = magicBytes) : 8 ≤ f.length := by
  have hlen := congrArg List.length hmagic
  rw [List.length_take, magicBytes_length] at hlen
  omega

/-- A good magic passes the first gate. -/
theorem magic_gate (hmagic : f.take 8 = magicBytes) : ¬ (f.length < 8 ∨ f.take 8 ≠ magicBytes) :=
  not_or.mpr ⟨(length_of_take_magic hmagic).not_gt, not_not.mpr hmagic⟩

theorem decodeFrame_truncatedHeader (hmagic : f.take 8 = magicBytes) (hlen : f.length < 16) :
    decodeFrame c f = .error .truncatedHeader := (if_neg (magic_gate hmagic)).trans (if_pos hlen)

/-- The gates after the header, by the dimensions it declares. -/
theorem HasHeader.decodeFrame_eq (hf : HasHeader f w h) : decodeFrame c f =
    if 2 ^ c.lenBits ≤ 8 * w * h then .error .dimensionsTooLarge
    else if f.length < 16 + 8 * w * h then .error .truncatedPixelData
    else if 16 + 8 * w * h < f.length ∧ c.strictTrailing = true then .error .trailingData
    else .ok (gridAt f w h) := by
  obtain ⟨hmagic, hlen, rfl, rfl⟩ := hf
  have hshort : f.length - 16 < 8 * memRead f 8 4 * memRead f 12 4 ↔
      f.length < 16 + 8 * memRead f 8 4 * memRead f 12 4 := by omega
  have hlong : f.length - 16 > 8 * memRead f 8 4 * memRead f 12 4 ↔
      16 + 8 * memRead f 8 4 * memRead f 12 4 < f.length := by omega
  rw [decodeFrame, if_neg (magic_gate hmagic), if_neg hlen.not_gt]
  simp only [hshort, hlong]

/-- A frame of no pixels is as many empty rows as its header declares (R167). -/
theorem gridAt_of_no_pixels (hzero : w = 0 ∨ h = 0) : gridAt f w h = List.replicate h [] := by
  obtain rfl | rfl := hzero
  · simp [gridAt]
  · rfl

end

/-! ### Regular grids (R23, R162) -/

theorem regular_iff_same_length {α : Type} (g : List (List α)) :
    regular (derivedWidth g) g.length g = true ↔ ∀ r ∈ g, ∀ r' ∈ g, r.length = r'.length := by
  refine ⟨fun hreg r hr r' hr' => ?_, fun hsame => ?_⟩
  · rw [regular_row_length hreg hr, regular_row_length hreg hr']
  · cases g with
    | nil => rfl
    | cons row g =>
      have hrows : ∀ r ∈ row :: g, r.length = row.length := fun r hr => hsame r hr row List.mem_cons_self
      simpa [regular, derivedWidth] using hrows

theorem regular_intGrid (w h : Nat) (g : Grid) : regular w h (intGrid g) = regular w h g := by
  simp [regular, intGrid, Function.comp_def]

/-- Sixteen-bit channels are in range (R162). -/
theorem intPixelOk_intPixel (p : Pixel) : intPixelOk (intPixel p) = true := by
  have hchannel (v : BitVec 16) : channelOk v.toNat = true := by
    have := v.isLt
    simp only [channelOk, Bool.and_eq_true, decide_eq_true_eq]
    omega
  simp [intPixelOk, intPixel, hchannel]

/-- `encode` rejects a grid with two rows of different length first of all (R162). -/
theorem encodeFrame_irregular {g : List (List IntPixel)} (h : ¬ regular (derivedWidth g) g.length g = true) :
    encodeFrame g = .error .irregularGrid := if_pos h

/-- A regular grid whose dimensions fit is encoded (R162). -/
theorem exists_encodeFrame {g : Grid} (hreg : regular (derivedWidth g) g.length g = true)
    (hw : derivedWidth g < 2 ^ 32) (hh : g.length < 2 ^ 32) : ∃ f, encodeFrame (intGrid g) = .ok f := by
  have hchannels : (intGrid g).all (fun row => row.all intPixelOk) = true := by
    simp [intGrid, intPixelOk_intPixel]
  unfold encodeFrame
  simp only [derivedWidth_intGrid, intGrid_length, regular_intGrid]
  rw [if_neg (not_not.mpr hreg), if_neg (not_or.mpr ⟨hw.not_ge, hh.not_ge⟩), if_neg (not_not.mpr hchannels)]
  exact ⟨_, rfl⟩

/-! ### Decoding an encoded grid (R165) -/

theorem pixelAt_of_prefix {f : List Byte} {off : Nat} {p : Pixel} (h : intPixelBytes (intPixel p) <+: f.drop off) :
    pixelAt f off = p := by
  have hr := memRead_channel h (i := 0) rfl
  have hg := memRead_channel h (i := 1) rfl
  have hb := memRead_channel h (i := 2) rfl
  have ha := memRead_channel h (i := 3) rfl
  simp only [Nat.mul_zero, Nat.mul_one, Nat.add_zero, Nat.reduceMul] at hr hg hb ha
  simp [pixelAt, hr, hg, hb, ha]

section
variable {c : Config} {g : Grid} {f : List Byte} (henc : encodeFrame (intGrid g) = .ok f)
include henc

theorem encodeFrame_intGrid_length : f.length = 16 + 8 * derivedWidth g * g.length := by
  simpa using encodeFrame_length henc

theorem hasHeader_encodeFrame : HasHeader f (derivedWidth g) g.length := by
  obtain ⟨-, hw, hh, -⟩ := encodeFrame_eq_ok henc
  obtain ⟨hmagic, hwidth, hheight, -⟩ := encodeFrame_parts henc
  simp only [derivedWidth_intGrid, intGrid_length] at hw hh hwidth hheight
  refine ⟨hmagic, ?_, memRead_natBytes hwidth hw, memRead_natBytes hheight hh⟩
  rw [encodeFrame_intGrid_length henc]
  exact Nat.le_add_right _ _

/-- The pixels of an encoded grid are read back where they stand (R51). -/
theorem gridAt_encodeFrame (x : List Byte) : gridAt (f ++ x) (derivedWidth g) g.length = g := by
  obtain ⟨hreg, -⟩ := encodeFrame_eq_ok henc
  rw [derivedWidth_intGrid, intGrid_length, regular_intGrid] at hreg
  refine List.ext_getElem (gridAt_length _ _ _) fun y hy hy' => ?_
  have hrow : g[y].length = derivedWidth g := regular_row_length hreg (List.getElem_mem hy')
  refine List.ext_getElem (by simp [gridAt, hrow]) fun i hi hi' => ?_
  have hpixel := pixel_prefix_encodeFrame henc (y := y) (x := i) (row := g[y].map intPixel) (p := intPixel g[y][i])
    (by simp [intGrid, hy']) (by simp [hi'])
  rw [derivedWidth_intGrid] at hpixel
  simpa [gridAt] using pixelAt_of_prefix (hpixel.trans ((List.prefix_append f x).drop _))

/-- An encoded grid decodes to the grid, whatever follows it where `STRICT_TRAILING` is off (R165, R167). -/
theorem decodeFrame_encodeFrame_append (hsize : 8 * derivedWidth g * g.length < 2 ^ c.lenBits) {x : List Byte}
    (hx : x = [] ∨ c.strictTrailing = false) : decodeFrame c (f ++ x) = .ok g := by
  have hf := hasHeader_encodeFrame henc
  have hlen := encodeFrame_intGrid_length henc
  have hexact : ¬ (16 + 8 * derivedWidth g * g.length < (f ++ x).length ∧ c.strictTrailing = true) := by
    obtain rfl | hstrict := hx
    · rw [List.append_nil, hlen]; exact fun ⟨hlt, _⟩ => lt_irrefl _ hlt
    · rw [hstrict]; exact fun ⟨_, h⟩ => nomatch h
  rw [((hasHeader_append_iff hf.complete x).mpr hf).decodeFrame_eq, if_neg hsize.not_ge,
    if_neg (by rw [List.length_append]; omega), if_neg hexact, gridAt_encodeFrame henc]

theorem decodeFrame_encodeFrame (hsize : 8 * derivedWidth g * g.length < 2 ^ c.lenBits) : decodeFrame c f = .ok g :=
  List.append_nil f ▸ decodeFrame_encodeFrame_append henc hsize (.inl rfl)

/-- A byte after an encoded grid is trailing data where `STRICT_TRAILING` is on (R167, R185). -/
theorem decodeFrame_encodeFrame_trailing (hsize : 8 * derivedWidth g * g.length < 2 ^ c.lenBits)
    (hstrict : c.strictTrailing = true) (b : Byte) : decodeFrame c (f ++ [b]) = .error .trailingData := by
  have hf := hasHeader_encodeFrame henc
  have hlen : (f ++ [b]).length = 16 + 8 * derivedWidth g * g.length + 1 := by
    rw [List.length_append, encodeFrame_intGrid_length henc]; rfl
  rw [((hasHeader_append_iff hf.complete [b]).mpr hf).decodeFrame_eq, if_neg hsize.not_ge, if_neg (by omega),
    if_pos ⟨by omega, hstrict⟩]

/-- An encoded grid with a pixel, one byte short, lacks pixel data (R167, R184). -/
theorem decodeFrame_encodeFrame_dropLast (hsize : 8 * derivedWidth g * g.length < 2 ^ c.lenBits)
    (hw : 0 < derivedWidth g) : decodeFrame c f.dropLast = .error .truncatedPixelData := by
  have hf := hasHeader_encodeFrame henc
  have hlen := encodeFrame_intGrid_length henc
  have hh : 0 < g.length := List.length_pos_iff.mpr fun hnil => by subst hnil; exact lt_irrefl 0 hw
  have hpos : 0 < 8 * derivedWidth g * g.length := by positivity
  have hshort := f.length_dropLast
  have hne : f ≠ [] := List.ne_nil_of_length_pos (by omega)
  rw [← List.dropLast_append_getLast hne, hasHeader_append_iff (by omega)] at hf
  rw [hf.decodeFrame_eq, if_neg hsize.not_ge, if_pos (by omega)]

end

/-- Settles O54: `decode` reads the dimensions and the pixels of an encoded grid back, if their product is in bounds. -/
theorem decodeOfEncodeIsTheGridUpToTheBound : Obligations.DecodeOfEncodeIsTheGridUpToTheBound := by
  intro c g hreg hw hh
  obtain ⟨f, henc⟩ := exists_encodeFrame hreg hw hh
  refine ⟨f, henc, decodeFrame_encodeFrame henc, fun hsize => ?_⟩
  rw [(hasHeader_encodeFrame henc).decodeFrame_eq, if_pos hsize]

/-- Settles O59: each property is the gate of `decode`, or the check of `encode`, that decides it. -/
theorem listedPropertiesOfTheContracts : Obligations.ListedPropertiesOfTheContracts := by
  refine ⟨fun c f hlen => decodeFrame_invalidMagic (.inl hlen),
    fun c f _ hlen hmagic => decodeFrame_truncatedHeader hmagic hlen, fun c f hlen hmagic hzero => ?empty,
    fun c g f b henc hsize => ⟨decodeFrame_encodeFrame_dropLast henc hsize,
      fun hstrict => decodeFrame_encodeFrame_trailing henc hsize hstrict b,
      fun hstrict => decodeFrame_encodeFrame_append henc hsize (.inr hstrict), fun hw => ?noColumns⟩,
    fun g r r' hr hr' hne => ?irregular⟩
  case empty =>
    have hnone : 8 * memRead f 8 4 * memRead f 12 4 = 0 := by
      obtain hzero | hzero := hzero <;> simp [hzero]
    rw [HasHeader.decodeFrame_eq ⟨hmagic, hlen.ge, rfl, rfl⟩, hnone, if_neg (Nat.two_pow_pos _).not_ge,
      if_neg (by omega), if_neg (by omega), gridAt_of_no_pixels hzero]
  case noColumns => rw [encodeFrame_intGrid_length henc, hw, Nat.mul_zero, Nat.zero_mul]
  case irregular => exact encodeFrame_irregular fun hreg => hne ((regular_iff_same_length g).mp hreg r hr r' hr')

/-- Settles O58: both contracts compute on these 48 bytes. -/
theorem twoByTwoGridIsByteExact : Obligations.TwoByTwoGridIsByteExact :=
  ⟨_, rfl, rfl, by decide, by decide⟩

end Sys2Proof.Machine
end

section
/-! SUPPORT. What `DEC` makes of every frame, gate by gate, and the obligation that it is `decode` (R101 to R106, R160,
R161, R163). -/

namespace Sys2Proof.Machine

/-! ### What a host observes of `DEC` (R161) -/

/-- Tokens that are pixels carry pixels. -/
theorem exists_mapM_tokPixel {toks : List GridTok} (h : ∀ tok ∈ toks, ∃ p, tok = .pix p ∨ tok = .pixl p) :
    ∃ q, toks.mapM tokPixel = some q := by
  induction toks with
  | nil => exact ⟨[], rfl⟩
  | cons tok toks ih =>
    obtain ⟨hhead, htail⟩ := List.forall_mem_cons.mp h
    obtain ⟨q, hq⟩ := ih htail
    obtain ⟨p, rfl | rfl⟩ := hhead
    · exact ⟨p :: q, by simp [tokPixel, hq]⟩
    · exact ⟨p :: q, by simp [tokPixel, hq]⟩

theorem mapM_tokPixel_rowToks (row : List Pixel) : (rowToks row).mapM tokPixel = some row := by
  induction row using rowToks.induct with
  | case1 => rfl
  | case2 p => rfl
  | case3 p q ps ih => simp [rowToks, tokPixel, ih]

/-- The pixels of a grid's tokens are those of its rows, one row after another (R138). -/
theorem mapM_tokPixel_rows (g : Grid) : (g.flatMap rowToks).mapM tokPixel = some g.flatten := by
  induction g with
  | nil => rfl
  | cons row g ih => simp [List.mapM_append, mapM_tokPixel_rowToks, ih]

/-- Cutting the pixels of rows of one width into rows of that width gives the rows (R161). -/
theorem gridOf_flatten {w : Nat} {g : Grid} (hrows : ∀ row ∈ g, row.length = w) : gridOf w g.length g.flatten = g := by
  induction g with
  | nil => rfl
  | cons row g ih =>
    obtain ⟨hrow, hrest⟩ := List.forall_mem_cons.mp hrows
    rw [List.flatten_cons, List.length_cons, gridOf, List.take_left' hrow, List.drop_left' hrow, ih hrest]

theorem map_gridTokOf_gridTokWord (toks : List GridTok) : (toks.map gridTokWord).map gridTokOf = toks := by
  simp [Function.comp_def]

/-- A frame closed with an error code is observed as that error. -/
theorem obsDec_of_error {toks : List GridTok} {header : Option (BitVec 32 × BitVec 32)} {q : List Pixel} {e : Status}
    (h : decFrameToks toks = some (header, q, statusCode e)) (he : e ≠ .ok) :
    obsDec (toks.map gridTokWord) = some (.error e) := by
  rw [obsDec, map_gridTokOf_gridTokWord, h]
  simp only [statusOfCode_statusCode]

/-- The header, the rows and `STAT OK` of a regular grid are observed as the grid. -/
theorem obsDec_gridToks {w h : BitVec 32} {g : Grid} (hh : g.length = h.toNat)
    (hrows : ∀ row ∈ g, row.length = w.toNat) :
    obsDec ((gridToks w h g ++ [GridTok.stat 0]).map gridTokWord) = some (.ok g) := by
  have hframe : decFrameToks (gridToks w h g ++ [.stat 0]) = some (some (w, h), g.flatten, statusCode .ok) :=
    decFrameToks_frame w h _ _ 0 (mapM_tokPixel_rows g)
  have hcount : g.flatten.length = w.toNat * h.toNat := by
    rw [← hh, ← List.flatMap_id]; exact length_flatMap_blocks hrows
  rw [obsDec, map_gridTokOf_gridTokWord, hframe]
  simp only [statusOfCode_statusCode]
  rw [if_pos hcount, ← hh, gridOf_flatten hrows]

/-! ### Frames that are not complete or not right (R101 to R106) -/

/-- The bytes are taken, and an `EOF` after them reports the status (R106). -/
def ClosesWith (c : Config) (d : DecRegs) (bs : List Byte) (e : Status) : Prop :=
  ∃ d' beats, bytesEffect bs c d = some (d', beats) ∧ decEofCode d' = some (statusCode e)

section
variable {c : Config} {d d₁ : DecRegs} {bs xs ys : List Byte} {beats : List GridBeat} {e : Status}

/-- What closes the bytes that follow closes all of them. -/
theorem ClosesWith.after (hxs : bytesEffect xs c d = some (d₁, beats)) (hys : ClosesWith c d₁ ys e) :
    ClosesWith c d (xs ++ ys) e := by
  obtain ⟨d', beats', heff, hcode⟩ := hys
  exact ⟨d', _, bytesEffect_append hxs heff, hcode⟩

/-- Once an error is latched, whatever follows (R105). -/
theorem closesWith_drain (hp : d.phase = .drain) (herr : d.err = statusCode e) (bs : List Byte) :
    ClosesWith c d bs e :=
  ⟨d, [], bytesEffect_drain hp bs c, by rw [decEofCode, hp, herr]⟩

/-- A property of the registers and of the number of bytes to come that every byte keeps holds after the last one. -/
theorem bytesEffect_keeps {P : Nat → DecRegs → Prop}
    (hstep : ∀ n d b, P (n + 1) d → ∃ d' beats, byteEffect b c d = some (d', beats) ∧ P n d')
    (h : P bs.length d) : ∃ d' beats, bytesEffect bs c d = some (d', beats) ∧ P 0 d' := by
  induction bs generalizing d with
  | nil => exact ⟨d, [], rfl, h⟩
  | cons b bs ih =>
    obtain ⟨d₁, beats₁, hb, hd₁⟩ := hstep _ d b h
    obtain ⟨d', beats', hbs, hd'⟩ := ih hd₁
    exact ⟨d', beats₁ ++ beats', by rw [bytesEffect, hb, Option.bind_some, hbs, Option.map_some], hd'⟩

/-- `n` bytes more leave the magic unfinished, or it was wrong already (R101). -/
def MagicUnfinished (n : Nat) (d : DecRegs) : Prop :=
  d.phase = .magic ∧ d.idx.toNat + n < 8 ∨ d.phase = .drain ∧ d.err = statusCode .invalidMagic

theorem MagicUnfinished.step (n : Nat) (d : DecRegs) (b : Byte) (h : MagicUnfinished (n + 1) d) :
    ∃ d' beats, byteEffect b c d = some (d', beats) ∧ MagicUnfinished n d' := by
  obtain ⟨hp, hidx⟩ | ⟨hp, herr⟩ := h
  · rw [byteEffect_magic hp, magicEffect]
    split_ifs with hb h7
    · exact ⟨_, _, rfl, .inr ⟨rfl, rfl⟩⟩
    · have hseven : d.idx.toNat = 7 := by rw [h7]; rfl
      omega
    · exact ⟨_, _, rfl, .inl ⟨hp, by rw [idx_succ_toNat (by omega)]; omega⟩⟩
  · exact ⟨d, [], by rw [byteEffect, hp], .inr ⟨hp, herr⟩⟩

/-- `n` bytes more leave the dimensions unfinished (R102, R103). -/
def DimensionsUnfinished (n : Nat) (d : DecRegs) : Prop :=
  d.phase = .width ∧ d.idx.toNat < 4 ∧ d.idx.toNat + n < 8 ∨ d.phase = .height ∧ d.idx.toNat + n < 4

theorem DimensionsUnfinished.step (n : Nat) (d : DecRegs) (b : Byte) (h : DimensionsUnfinished (n + 1) d) :
    ∃ d' beats, byteEffect b c d = some (d', beats) ∧ DimensionsUnfinished n d' := by
  obtain ⟨hp, hlt, hidx⟩ | ⟨hp, hidx⟩ := h
  · rw [byteEffect_width hp, widthEffect]
    split_ifs with h3
    · rw [h3] at hidx
      exact ⟨_, _, rfl, .inr ⟨rfl, by simp at hidx ⊢; omega⟩⟩
    · have hne : d.idx.toNat ≠ 3 := fun h => h3 (BitVec.eq_of_toNat_eq h)
      have hsucc := idx_succ_toNat (i := d.idx) (by omega)
      exact ⟨_, _, rfl, .inl ⟨hp, by rw [hsucc]; omega, by rw [hsucc]; omega⟩⟩
  · have h3 : d.idx ≠ 3 := BitVec.ne_of_lt (BitVec.lt_def.mpr (by simp; omega))
    rw [byteEffect_height hp, heightEffect, if_pos h3]
    exact ⟨_, _, rfl, .inr ⟨hp, by rw [idx_succ_toNat (by omega)]; omega⟩⟩

/-- `n` bytes more leave `k` bytes of pixel data due (R104). -/
def PixelDataDue (k n : Nat) (d : DecRegs) : Prop := d.phase = .pay ∧ d.rem = k + n

theorem PixelDataDue.step (k n : Nat) (d : DecRegs) (b : Byte) (h : PixelDataDue k (n + 1) d) :
    ∃ d' beats, byteEffect b c d = some (d', beats) ∧ PixelDataDue k n d' := by
  obtain ⟨hp, hrem⟩ := h
  have hnext : d.rem - 1 = k + n := by omega
  rw [byteEffect_pay hp, payEffect, if_neg (by omega)]
  split_ifs
  · exact ⟨_, _, rfl, hp, hnext⟩
  · exact ⟨_, _, rfl, hp, hnext⟩
  · exact ⟨_, _, rfl, hp, hnext⟩

end

section
variable {c : Config} {f : List Byte}

/-- As many bytes as the magic has are the magic, or are wrong (R101). -/
theorem bytesEffect_of_length_eight {bs : List Byte} (hlen : bs.length = 8) :
    ∃ k, bytesEffect bs c .reset = some
      (if bs = magicBytes then { DecRegs.reset with phase := .width }
        else { DecRegs.reset with idx := k, err := statusCode .invalidMagic, phase := .drain }, []) :=
  bytesEffect_magic (d := .reset) rfl ((Nat.zero_add _).trans hlen)

/-- A frame shorter than the magic, or with another in its place (R101, R106). -/
theorem closesWith_invalidMagic (hbad : f.length < 8 ∨ f.take 8 ≠ magicBytes) :
    ClosesWith c .reset f .invalidMagic := by
  obtain hlen | hlen := Nat.lt_or_ge f.length 8
  · obtain ⟨d, beats, heff, hd⟩ := bytesEffect_keeps (P := MagicUnfinished) (c := c) (d := .reset) (bs := f)
      MagicUnfinished.step (.inl ⟨rfl, by simpa [DecRegs.reset] using hlen⟩)
    refine ⟨d, beats, heff, ?_⟩
    obtain ⟨hp, -⟩ | ⟨hp, herr⟩ := hd
    · rw [decEofCode, hp]
    · rw [decEofCode, hp, herr]
  · obtain ⟨k, heff⟩ := bytesEffect_of_length_eight (c := c) (List.length_take_of_le hlen)
    rw [if_neg (hbad.resolve_left hlen.not_gt)] at heff
    rw [← List.take_append_drop 8 f]
    exact .after heff (closesWith_drain rfl rfl _)

/-- The magic is taken, and the width comes next (R101). -/
theorem bytesEffect_take_magic (hmagic : f.take 8 = magicBytes) :
    bytesEffect (f.take 8) c .reset = some ({ DecRegs.reset with phase := .width }, []) := by
  obtain ⟨k, heff⟩ := bytesEffect_of_length_eight (c := c) (bs := f.take 8) (by rw [hmagic, magicBytes_length])
  rwa [if_pos hmagic] at heff

/-- A good magic without the whole header (R106). -/
theorem closesWith_truncatedHeader (hmagic : f.take 8 = magicBytes) (hlen : f.length < 16) :
    ClosesWith c .reset f .truncatedHeader := by
  obtain ⟨d, beats, heff, hd⟩ := bytesEffect_keeps (P := DimensionsUnfinished) (c := c)
    (d := { DecRegs.reset with phase := .width }) (bs := f.drop 8) DimensionsUnfinished.step
    (.inl ⟨rfl, by decide, by simp [DecRegs.reset]; omega⟩)
  rw [← List.take_append_drop 8 f]
  refine .after (bytesEffect_take_magic hmagic) ⟨d, beats, heff, ?_⟩
  obtain ⟨hp, -⟩ | ⟨hp, -⟩ := hd <;> rw [decEofCode, hp]

section
variable {w h : BitVec 32} (hf : HasHeader f w.toNat h.toNat)
include hf

/-- A header whose pixel data is not below the bound (R103). -/
theorem closesWith_dimensionsTooLarge (hsize : 2 ^ c.lenBits ≤ 8 * w.toNat * h.toNat) :
    ClosesWith c .reset f .dimensionsTooLarge := by
  have hlen := hf.complete
  have hparts : f = f.take 8 ++ ((f.drop 8).take 4 ++ ((f.drop 12).take 4 ++ f.drop 16)) := by
    rw [show f.drop 16 = (f.drop 12).drop 4 by rw [List.drop_drop], List.take_append_drop,
      show f.drop 12 = (f.drop 8).drop 4 by rw [List.drop_drop], List.take_append_drop, List.take_append_drop]
  have hwidth := bytesEffect_width (bs := (f.drop 8).take 4) (c := c) (d := { DecRegs.reset with phase := .width })
    rfl (Nat.succ_pos 3) (by rw [length_take_drop (by omega)]; rfl)
  have hheight := bytesEffect_height (bs := (f.drop 12).take 4) (c := c)
    (d := { DecRegs.reset with phase := .height, w := w }) rfl (Nat.succ_pos 3)
    (by rw [length_take_drop (by omega)]; rfl)
  rw [foldl_shiftIn_dimension (by omega) hf.width] at hwidth
  rw [foldl_shiftIn_dimension (by omega) hf.height, if_pos ((tooLarge_iff c w h).mpr hsize)] at hheight
  rw [hparts]
  exact .after (bytesEffect_take_magic hf.magic) (.after hwidth (.after hheight (closesWith_drain rfl rfl _)))

variable (hsize : 8 * w.toNat * h.toNat < 2 ^ c.lenBits)
include hsize

/-- After an accepted header, bytes of the pixel data leave the others due (R103, R104). -/
theorem bytesEffect_take_pixelData {n : Nat} (hn : 16 + n ≤ f.length) (hle : n ≤ 8 * w.toNat * h.toNat) :
    ∃ d beats, bytesEffect (f.take (16 + n)) c .reset = some (d, beats) ∧ d.phase = .pay ∧
      d.rem = 8 * w.toNat * h.toNat - n := by
  have hheader := bytesEffect_header hf.width hf.height (d := .reset) rfl rfl hf.complete hf.magic hsize
  have hdue : PixelDataDue (8 * w.toNat * h.toNat - n) ((f.drop 16).take n).length (DecRegs.reset.owing w h) := by
    rw [length_take_drop hn]
    exact ⟨rfl, (Nat.sub_add_cancel hle).symm⟩
  obtain ⟨d, beats, heff, hp, hrem⟩ := bytesEffect_keeps (c := c) (PixelDataDue.step _) hdue
  rw [List.take_add]
  exact ⟨d, _, bytesEffect_append hheader heff, hp, hrem⟩

/-- Pixel data that ends too early (R106). -/
theorem closesWith_truncatedPixelData (hshort : f.length < 16 + 8 * w.toNat * h.toNat) :
    ClosesWith c .reset f .truncatedPixelData := by
  have hlen := hf.complete
  obtain ⟨d, beats, heff, hp, hrem⟩ := bytesEffect_take_pixelData hf hsize (n := f.length - 16) (by omega) (by omega)
  rw [List.take_of_length_le (by omega)] at heff
  refine ⟨d, beats, heff, ?_⟩
  simp only [decEofCode, hp]
  rw [if_pos (by omega)]

/-- A byte too many (R104). -/
theorem closesWith_trailingData (hlong : 16 + 8 * w.toNat * h.toNat < f.length) (hstrict : c.strictTrailing = true) :
    ClosesWith c .reset f .trailingData := by
  obtain ⟨d, beats, heff, hp, hrem⟩ := bytesEffect_take_pixelData hf hsize hlong.le le_rfl
  rw [Nat.sub_self] at hrem
  have hraise (b : Byte) : bytesEffect [b] c d =
      some ({ d with err := statusCode .trailingData, phase := .drain }, []) := by
    rw [bytesEffect_singleton, byteEffect_pay hp, payEffect, if_pos hrem, if_pos hstrict]
  rw [← List.take_append_drop (16 + 8 * w.toNat * h.toNat) f, List.drop_eq_getElem_cons hlong, ← List.singleton_append]
  exact .after heff (.after (hraise _) (closesWith_drain rfl rfl _))

end

/-- `DEC` reports the error of the first gate of `decode` that a frame does not pass. -/
theorem closesWith_of_decodeFrame_error {e : Status} (herr : decodeFrame c f = .error e) :
    e ≠ .ok ∧ ClosesWith c .reset f e := by
  by_cases hbad : f.length < 8 ∨ f.take 8 ≠ magicBytes
  · cases (decodeFrame_invalidMagic hbad).symm.trans herr
    exact ⟨nofun, closesWith_invalidMagic hbad⟩
  obtain ⟨-, hmagic⟩ := not_or.mp hbad
  have hmagic := not_not.mp hmagic
  by_cases hlen : f.length < 16
  · cases (decodeFrame_truncatedHeader hmagic hlen).symm.trans herr
    exact ⟨nofun, closesWith_truncatedHeader hmagic hlen⟩
  have hf : HasHeader f (BitVec.ofNat 32 (memRead f 8 4)).toNat (BitVec.ofNat 32 (memRead f 12 4)).toNat :=
    ⟨hmagic, Nat.le_of_not_lt hlen, (ofNat_memRead_toNat f 8).symm, (ofNat_memRead_toNat f 12).symm⟩
  rw [hf.decodeFrame_eq] at herr
  split_ifs at herr with hsize hshort hlong
  · cases herr; exact ⟨nofun, closesWith_dimensionsTooLarge hf hsize⟩
  · cases herr; exact ⟨nofun, closesWith_truncatedPixelData hf (Nat.lt_of_not_le hsize) hshort⟩
  · obtain ⟨hlong, hstrict⟩ := hlong
    cases herr; exact ⟨nofun, closesWith_trailingData hf (Nat.lt_of_not_le hsize) hlong hstrict⟩

/-! ### Every frame (R163) -/

/-- Whatever the bytes of a frame send, an error code after it is observed as the error (R108, R161). -/
theorem obsDec_bytesEffect_error {d : DecRegs} {beats : List GridBeat} {e : Status}
    (heff : bytesEffect f c .reset = some (d, beats)) (he : e ≠ .ok) :
    obsDec (beats ++ [gridTokWord (.stat (statusCode e))]) = some (.error e) := by
  obtain rfl | ⟨w, h, _, rfl, pixels, rfl, hpixels⟩ := bytesEffect_sends_header_pixels (by nofun) heff
  · exact obsDec_of_error (decFrameToks_stat _) he
  · obtain ⟨q, hq⟩ := exists_mapM_tokPixel hpixels
    have hobs := obsDec_of_error (decFrameToks_frame w h pixels q _ hq) he
    rwa [List.map_cons, List.map_append] at hobs

/-- The bytes of a frame and the code of its `EOF` are observed as `decode` of the frame. -/
theorem obsDec_bytesEffect (c : Config) (f : List Byte) :
    ∃ d beats code, bytesEffect f c .reset = some (d, beats) ∧ decEofCode d = some code ∧
      obsDec (beats ++ [gridTokWord (.stat code)]) = some (decodeFrame c f) := by
  cases hdecode : decodeFrame c f with
  | error e =>
    obtain ⟨he, d, beats, heff, hcode⟩ := closesWith_of_decodeFrame_error hdecode
    exact ⟨d, beats, _, heff, hcode, obsDec_bytesEffect_error heff he⟩
  | ok g =>
    obtain ⟨d, heff, hp, hrem⟩ := bytesEffect_accepted (d := .reset) (ofNat_memRead_toNat f 8).symm
      (ofNat_memRead_toNat f 12).symm rfl rfl hdecode
    refine ⟨d, _, 0, heff, by simp only [decEofCode, hp, hrem]; rfl, ?_⟩
    obtain ⟨-, -, -, -, -, rfl⟩ := decodeFrame_eq_ok hdecode
    rw [← List.map_singleton, ← List.map_append]
    refine obsDec_gridToks ?_ fun row hrow => ?_
    · rw [gridAt_length, ofNat_memRead_toNat]
    · rw [gridAt_row_length hrow, ofNat_memRead_toNat]

/-- A frame and its `EOF`, from the reset registers. -/
theorem decBeatsEffect_frame (c : Config) (f : List Byte) (eofData : Byte) :
    ∃ beats, decBeatsEffect (decodeBeats f eofData) c .reset = some (.reset, beats) ∧
      obsDec beats = some (decodeFrame c f) := by
  obtain ⟨d, beats, code, heff, hcode, hobs⟩ := obsDec_bytesEffect c f
  have heof : eofEffect c d = some (.reset, [gridTokWord (.stat code)]) := by rw [eofEffect, hcode]
  exact ⟨_, by rw [decBeatsEffect_decodeBeats, heff, Option.bind_some, heof, Option.map_some], hobs⟩

end

/-- Settles O48: a run over a frame's beats is their effect, which is observed as `decode`. -/
theorem decAgreesWithDecode : Obligations.DecAgreesWithDecode := by
  intro s f eofData rest hdec hr he hcap hin
  obtain ⟨beats, heff, hobs⟩ := decBeatsEffect_frame s.cfg f eofData
  have hrun := run_dec (decodeBeats f eofData) rest s hr he hcap hin
  rw [hdec, heff, show (decodeBeats f eofData).length = f.length + 1 by simp [decodeBeats]] at hrun
  exact ⟨_, beats, hrun, rfl, rfl, rfl, hobs⟩

end Sys2Proof.Machine
end

section
/-! SUPPORT. What `ENC` makes of every grid, and the obligation that it is `encode` (R131 to R134, R138, R162, R164). -/

namespace Sys2Proof.Machine

/-! ### Bytes sent and bytes written (R16, R73, R130) -/

/-- `send` and `MemWrite` put the same bytes, most significant first. -/
theorem natBytes_toNat {n : Nat} (k : Nat) (v : BitVec n) : natBytes k v.toNat = beBytes k v := by
  refine List.map_congr_left fun i _ => BitVec.eq_of_toNat_eq ?_
  rw [byte_of_shift_toNat, BitVec.toNat_ofNat, Nat.pow_mul]

theorem intPixelBytes_intPixel (p : Pixel) : intPixelBytes (intPixel p) = pixelBytes p := by
  simp [intPixelBytes, intPixel, natBytes_toNat, pixelBytes]

theorem pixelToks_eq_pixelBytes (p : Pixel) : pixelToks p = (pixelBytes p).map .byte := by
  simp [pixelToks, sendToks, pixelBytes]

/-- The bytes of a header and of the pixels of rows (R50, R51). -/
def frameBytes (w h : BitVec 32) (g : Grid) : List Byte :=
  magicBytes ++ beBytes 4 w ++ beBytes 4 h ++ g.flatten.flatMap pixelBytes

/-- What `ENC` sends for a header and for pixels is those bytes (R131 to R133). -/
theorem frameToks_eq_frameBytes (w h : BitVec 32) (g : Grid) :
    headerToks w h ++ g.flatten.flatMap pixelToks = (frameBytes w h g).map .byte := by
  rw [List.flatMap_congr fun p _ => pixelToks_eq_pixelBytes p]
  simp only [headerToks, sendToks, frameBytes, List.map_append, List.map_flatMap]

/-- What `encode` writes of a regular grid is those bytes (R162). -/
theorem encodeFrame_eq_frameBytes {g : Grid} {w h : BitVec 32} (hw : w.toNat = derivedWidth g)
    (hh : h.toNat = g.length) (hreg : regular (derivedWidth g) g.length g = true) :
    encodeFrame (intGrid g) = .ok (frameBytes w h g) := by
  obtain ⟨f, henc⟩ := exists_encodeFrame hreg (hw ▸ w.isLt) (hh ▸ h.isLt)
  obtain ⟨-, -, -, hf⟩ := encodeFrame_eq_ok henc
  have hpixels : ((intGrid g).flatMap fun row => row.flatMap intPixelBytes) = g.flatten.flatMap pixelBytes := by
    simp only [intGrid, List.flatMap_map, intPixelBytes_intPixel, ← List.flatMap_id, List.flatMap_assoc, id]
  rw [henc, hf, hpixels, derivedWidth_intGrid, intGrid_length, ← hw, ← hh, natBytes_toNat, natBytes_toNat, frameBytes]

/-! ### What a host observes of `ENC` (R164) -/

/-- The beats of a closed frame: bytes, then an `EOF` (R137). -/
def closedFrame (bytes : List Byte) (code : BitVec 4) : List ByteBeat :=
  (bytes.map ByteTok.byte ++ [ByteTok.eof code]).map byteTokWord

theorem encFrameToks_closedFrame (bytes : List Byte) (code : BitVec 4) :
    encFrameToks ((closedFrame bytes code).map byteTokOf) = some (bytes, code) := by
  rw [← encFrameToks_frame, closedFrame, List.map_map]
  simp [Function.comp_def]

theorem obsEnc_closedFrame_ok (bytes : List Byte) :
    obsEnc (closedFrame bytes (statusCode .ok)) = some (.ok bytes) := by
  rw [obsEnc, encFrameToks_closedFrame]
  simp only [statusOfCode_statusCode]

theorem obsEnc_closedFrame_error (bytes : List Byte) {e : Status} (he : e ≠ .ok) :
    obsEnc (closedFrame bytes (statusCode e)) = some (.error e) := by
  rw [obsEnc, encFrameToks_closedFrame]
  simp only [statusOfCode_statusCode]

/-! ### Every grid (R164) -/

/-- From a reachable phase any beats have an effect (R83). -/
theorem exists_encBeatsEffect {e : EncRegs} (he : ePhaseReachable e.phase = true) (bs : List GridBeat) :
    ∃ e' beats, encBeatsEffect bs e = some (e', beats) := by
  induction bs generalizing e with
  | nil => exact ⟨e, [], rfl⟩
  | cons b bs ih =>
    obtain ⟨e₁, beats₁, hb, he₁, -⟩ := encBeatEffect_ok he b
    obtain ⟨e', beats', hbs⟩ := ih he₁
    exact ⟨e', _, encBeatsEffect_cons_of_eq_some hb hbs⟩

/-- Whatever the rows of a grid, `ENC` sends bytes for its header and its rows (R137). -/
theorem encBeatsEffect_bytes (g : Grid) (w h : BitVec 32) :
    ∃ (e : EncRegs) (bytes : List Byte), encBeatsEffect (gridTokWord (.hdr w h) :: rowsBeats g) .reset =
      some (e, (bytes.map ByteTok.byte).map byteTokWord) := by
  have hopen : ∀ b ∈ gridTokWord (.hdr w h) :: rowsBeats g, beatKind b ≠ .close :=
    List.forall_mem_cons.mpr ⟨by rw [gridTokWord, beatKind_gridBeat]; nofun, rowsBeats_open g⟩
  obtain ⟨e, beats, heff⟩ := exists_encBeatsEffect (e := .reset) rfl (gridTokWord (.hdr w h) :: rowsBeats g)
  obtain ⟨⟨bytes, rfl⟩, -⟩ := encBeatsEffect_grid rfl hopen heff
  exact ⟨e, bytes, heff⟩

section
variable {g : Grid} {w h : BitVec 32} (hw : w.toNat = derivedWidth g) (hh : h.toNat = g.length)
include hw hh

/-- The header and the rows of a regular grid are sent as its frame (R131 to R133). -/
theorem encBeatsEffect_regular (hreg : regular (derivedWidth g) g.length g = true) :
    ∃ e, encBeatsEffect (gridTokWord (.hdr w h) :: rowsBeats g) .reset =
      some (e, ((frameBytes w h g).map ByteTok.byte).map byteTokWord) := by
  obtain ⟨hfit, -⟩ := (rowsFit_opened_iff hw hh).mpr ((regular_iff_same_length g).mp hreg)
  have hpos (hrem : (EncRegs.opened w h).rem ≠ 0) : 0 < (EncRegs.opened w h).w.toNat := by
    refine Nat.pos_of_ne_zero fun hzero => hrem (BitVec.eq_of_toNat_eq ?_)
    rw [EncRegs.opened_rem, show w.toNat = 0 from hzero, Nat.zero_mul]; rfl
  obtain ⟨hsent, -⟩ := encBeatsEffect_rows (e := .opened w h) g rfl rfl hpos
  refine ⟨(EncRegs.opened w h).afterPixels g.flatten.length, ?_⟩
  rw [encBeatsEffect_cons_of_eq_some (encBeatEffect_hdr_reset w h) (hsent hfit), ← List.map_append,
    frameToks_eq_frameBytes]

/-- The beats sent for a header and rows, with the code at the `END`, are observed as `encode` of the grid. -/
theorem obsEnc_encBeatsEffect :
    ∃ (e : EncRegs) (bytes : List Byte) (code : BitVec 4),
      encBeatsEffect (gridTokWord (.hdr w h) :: rowsBeats g) .reset =
        some (e, (bytes.map ByteTok.byte).map byteTokWord) ∧
      encEndCode e = some code ∧ obsEnc (closedFrame bytes code) = some (encodeFrame (intGrid g)) := by
  by_cases hreg : regular (derivedWidth g) g.length g = true
  · obtain ⟨e, heff⟩ := encBeatsEffect_regular hw hh hreg
    obtain ⟨hok, -⟩ := encEndCode_of_stream hw hh heff
    refine ⟨e, _, _, heff, hok ((regular_iff_same_length g).mp hreg), ?_⟩
    rw [encodeFrame_eq_frameBytes hw hh hreg]
    exact obsEnc_closedFrame_ok _
  · obtain ⟨e, bytes, heff⟩ := encBeatsEffect_bytes g w h
    obtain ⟨-, hirregular⟩ := encEndCode_of_stream hw hh heff
    refine ⟨e, bytes, _, heff, hirregular ((regular_iff_same_length g).not.mp hreg), ?_⟩
    rw [encodeFrame_irregular (by rwa [derivedWidth_intGrid, intGrid_length, regular_intGrid])]
    exact obsEnc_closedFrame_error bytes (e := .irregularGrid) nofun

end

/-- A grid's beats, from the reset registers. -/
theorem encBeatsEffect_encodeBeats {g : Grid} (hh : g.length < 2 ^ 32) (hw : derivedWidth g < 2 ^ 32)
    (endPayload : BitVec 64) :
    ∃ bytes code, encBeatsEffect (encodeBeats g endPayload) .reset = some (.reset, closedFrame bytes code) ∧
      obsEnc (closedFrame bytes code) = some (encodeFrame (intGrid g)) := by
  obtain ⟨e, bytes, code, heff, hcode, hobs⟩ := obsEnc_encBeatsEffect (w := .ofNat 32 (derivedWidth g))
    (h := .ofNat 32 g.length) (Nat.mod_eq_of_lt hw) (Nat.mod_eq_of_lt hh)
  have hend : encBeatEffect (gridBeat .close endPayload) e = some (.reset, [byteTokWord (.eof code)]) := by
    rw [encBeatEffect_end, endEffect, hcode]
  refine ⟨bytes, code, ?_, hobs⟩
  rw [closedFrame, List.map_append]
  exact encBeatsEffect_append_of_eq_some heff (encBeatsEffect_cons_of_eq_some hend rfl)

/-- Settles O49: a run over a grid's beats is their effect, which is observed as `encode`. -/
theorem encAgreesWithEncode : Obligations.EncAgreesWithEncode := by
  intro s g endPayload rest hh hw henc hr hd hcap hin
  obtain ⟨bytes, code, heff, hobs⟩ := encBeatsEffect_encodeBeats hh hw endPayload
  have hrun := run_enc _ rest s hr hd hcap hin
  rw [henc, heff] at hrun
  exact ⟨_, _, hrun, rfl, rfl, rfl, hobs⟩

end Sys2Proof.Machine
end

section
/-! SUPPORT. The gate between the two units, and the obligation about the way through both (R165, R219). -/

namespace Sys2Proof.Machine

/-- The gate forwards a frame that is observed as bytes (R219). -/
theorem gate_closedFrame {bytes f : List Byte} {code : BitVec 4} (h : obsEnc (closedFrame bytes code) = some (.ok f))
    (eofData : Byte) : gate (closedFrame bytes code) eofData = decodeBeats f eofData := by
  have hbeats : closedFrame bytes code = bytes.map (byteBeat false) ++ [byteTokWord (.eof code)] := by
    simp [closedFrame, Function.comp_def, byteTokWord]
  have hclosed : closedFrames [] (closedFrame bytes code) = [closedFrame bytes code] := by
    rw [hbeats, closedFrames_frame [] bytes (byteTokWord (.eof code)) [] (beatEof_byteBeat true _)]; rfl
  rw [gate, hclosed, List.flatMap_singleton, gateFrame, h]

/-- Where nothing stood on `dec_out`, a run over a frame leaves there what is observed as `decode` of it. -/
theorem obsDec_of_run {s t : State} {f : List Byte} {eofData : Byte} (hrun : run (f.length + 1) s = .next t)
    (hdec : s.dec = DecRegs.reset) (hr : s.rst = false) (he : s.encIn = []) (hcap : s.decOutCap = none)
    (hout : s.decOut = []) (hin : s.decIn = decodeBeats f eofData) :
    obsDec t.decOut = some (decodeFrame s.cfg f) := by
  obtain ⟨u, beats, hrun', -, -, hbeats, hobs⟩ :=
    decAgreesWithDecode s f eofData [] hdec hr he hcap (by rw [hin, List.append_nil])
  obtain rfl := Host.Outcome.next.inj (hrun'.symm.trans hrun)
  rw [hbeats, hout, List.nil_append, hobs]

/-- Settles O55: `ENC` sends the encoded grid, the gate forwards it, and `DEC` decodes it. -/
theorem gridGoesThroughBothUnitsUnchanged : Obligations.GridGoesThroughBothUnitsUnchanged := by
  intro s t u g endPayload eofData n hreg hw hh hsize hdec henc hr hdecIn hdecOut hencOut hdcap hecap hencIn hrunEnc
    hn hrunDec
  obtain ⟨f, hframe⟩ := exists_encodeFrame hreg hw hh
  obtain ⟨bytes, code, heff, hobs⟩ := encBeatsEffect_encodeBeats hh hw endPayload
  have ht := run_enc _ [] s hr hdecIn hecap (by rw [hencIn, List.append_nil])
  rw [henc, heff, hrunEnc] at ht
  obtain rfl := Host.Outcome.next.inj ht
  have hgate : gate (s.encOut ++ closedFrame bytes code) eofData = decodeBeats f eofData := by
    rw [hencOut]; exact gate_closedFrame (hframe ▸ hobs) eofData
  obtain rfl : n = f.length + 1 := by rw [hn, hgate]; simp [decodeBeats]
  rw [obsDec_of_run hrunDec hdec hr rfl hdcap hdecOut hgate]
  exact congrArg some (decodeFrame_encodeFrame hframe hsize)

end Sys2Proof.Machine
end

section
/-! SUPPORT. A unit whose port is empty, a step that raises, and the obligations about them (R180, R192, R202). -/

namespace Sys2Proof.Machine

/-! ### A unit with no beat (R202) -/

/-- Settles O10: a step is one unit's, which leaves the other alone and does nothing itself where it has no beat. -/
theorem unitWithoutBeatKeepsItsState : Obligations.UnitWithoutBeatKeepsItsState := by
  intro s t hr h
  refine ⟨fun hd => ?dec, fun he => ?enc, fun hd he => ?both⟩
  case dec =>
    obtain rfl | ⟨_, _, _, -, -, ht⟩ := stepUnit_enc_frame ((step_enc s hr hd).symm.trans h)
    · exact ⟨rfl, hd, rfl⟩
    · rw [ht]; exact ⟨rfl, hd, rfl⟩
  case enc =>
    obtain rfl | ⟨_, _, _, -, -, ht⟩ := stepUnit_dec_frame ((step_dec s hr he).symm.trans h)
    · exact ⟨rfl, he, rfl⟩
    · rw [ht]; exact ⟨rfl, he, rfl⟩
  case both => exact (Host.Outcome.next.inj ((step_idle s hr hd he).symm.trans h)).symm

/-! ### An effect that raises (R192) -/

section
variable {b : Byte} {c : Config} {d d' : DecRegs} {beats : List GridBeat}

/-- `DEC.MAGIC` raises `InvalidMagic` and nothing else (R101). -/
theorem magicEffect_raise (hp : d.phase = .magic) (h : magicEffect b c d = some (d', beats))
    (hraise : d'.phase = .drain) :
    beats = [] ∧ d' = { d with err := statusCode .invalidMagic, phase := .drain } := by
  unfold magicEffect at h
  split_ifs at h
  · cases h; exact ⟨rfl, rfl⟩
  · cases h; cases hraise
  · cases h; cases hp.symm.trans hraise

/-- `DEC.WIDTH` never raises (R102). -/
theorem widthEffect_phase_ne_drain (hp : d.phase = .width) (h : widthEffect b c d = some (d', beats)) :
    d'.phase ≠ .drain := by
  rw [widthEffect_phase hp h]
  split_ifs <;> decide

/-- `DEC.HEIGHT` raises `DimensionsTooLarge` and nothing else, with `d_h` and `d_idx` written before (R103). -/
theorem heightEffect_raise (hp : d.phase = .height) (h : heightEffect b c d = some (d', beats))
    (hraise : d'.phase = .drain) :
    beats = [] ∧ d' = { d with err := statusCode .dimensionsTooLarge, phase := .drain, h := d'.h, idx := 0 } := by
  unfold heightEffect at h
  split_ifs at h
  · cases h; cases hp.symm.trans hraise
  · cases h; exact ⟨rfl, rfl⟩
  · cases h; cases hraise

/-- `DEC.PAY` raises `TrailingData` and nothing else (R104). -/
theorem payEffect_raise (hp : d.phase = .pay) (h : payEffect b c d = some (d', beats)) (hraise : d'.phase = .drain) :
    beats = [] ∧ d' = { d with err := statusCode .trailingData, phase := .drain } := by
  obtain ⟨-, -, ⟨-, hkeep⟩ | ⟨-, hd, hbeats⟩⟩ := payEffect_writes h
  · cases hp.symm.trans (hkeep.symm.trans hraise)
  · exact ⟨hbeats, hd⟩

/-- What a step that takes `DEC` to its drain phase leaves in the registers, by the phase it came from (R192). -/
def DecRaised (d d' : DecRegs) : Prop :=
  d.phase = .magic ∧ d' = { d with err := statusCode .invalidMagic, phase := .drain } ∨
  d.phase = .height ∧ d' = { d with err := statusCode .dimensionsTooLarge, phase := .drain, h := d'.h, idx := 0 } ∨
  d.phase = .pay ∧ d' = { d with err := statusCode .trailingData, phase := .drain }

/-- A beat that takes `DEC` to its drain phase raises the error of the phase it found and sends nothing. -/
theorem decBeatEffect_raise {t : ByteBeat} (h : decBeatEffect t c d = some (d', beats)) (hp : d.phase ≠ .drain)
    (hraise : d'.phase = .drain) : beats = [] ∧ DecRaised d d' := by
  cases ht : beatEof t with
  | true =>
    rw [decBeatEffect, if_pos ht] at h
    obtain ⟨_, -, hreset⟩ := eofEffect_eq_some h
    cases hreset; cases hraise
  | false =>
    rw [decBeatEffect_byte ht] at h
    cases hphase : d.phase with
    | magic =>
      obtain ⟨hbeats, hd⟩ := magicEffect_raise hphase ((byteEffect_magic hphase).symm.trans h) hraise
      exact ⟨hbeats, .inl ⟨hphase, hd⟩⟩
    | width => exact absurd hraise (widthEffect_phase_ne_drain hphase ((byteEffect_width hphase).symm.trans h))
    | height =>
      obtain ⟨hbeats, hd⟩ := heightEffect_raise hphase ((byteEffect_height hphase).symm.trans h) hraise
      exact ⟨hbeats, .inr (.inl ⟨hphase, hd⟩)⟩
    | pay =>
      obtain ⟨hbeats, hd⟩ := payEffect_raise hphase ((byteEffect_pay hphase).symm.trans h) hraise
      exact ⟨hbeats, .inr (.inr ⟨hphase, hd⟩)⟩
    | drain => exact absurd hphase hp
    | unused5 | unused6 | unused7 => rw [byteEffect, hphase] at h; cases h

end

section
variable {p : Pixel} {e e' : EncRegs} {beats : List ByteBeat}

/-- `ENC.PIX` raises `IrregularGrid` and nothing else (R132). -/
theorem pixEffect_raise (hp : e.phase = .body) (h : pixEffect p e = some (e', beats)) (hraise : e'.phase = .drain) :
    beats = [] ∧ e' = { e with err := statusCode .irregularGrid, phase := .drain } := by
  unfold pixEffect at h
  split_ifs at h
  · cases h; exact ⟨rfl, rfl⟩
  · cases h; cases hp.symm.trans hraise

/-- `ENC.PIXL` raises what `ENC.PIX` raises (R133). -/
theorem pixlEffect_raise (hp : e.phase = .body) (h : pixlEffect p e = some (e', beats)) (hraise : e'.phase = .drain) :
    beats = [] ∧ e' = { e with err := statusCode .irregularGrid, phase := .drain } := by
  unfold pixlEffect at h
  split_ifs at h
  · cases h; exact ⟨rfl, rfl⟩
  · cases h; cases hp.symm.trans hraise

/-- `ENC.VIOL` raises `ProtocolViolation` and sends nothing (R136). -/
theorem violEffect_raise (h : violEffect e = some (e', beats)) :
    beats = [] ∧ e' = { e with err := statusCode .protocolViolation, phase := .drain } := by
  cases h; exact ⟨rfl, rfl⟩

/-- What a step that takes `ENC` to its drain phase leaves in the registers (R192). -/
def EncRaised (e e' : EncRegs) : Prop :=
  e' = { e with err := statusCode .protocolViolation, phase := .drain } ∨
  e.phase = .body ∧ e' = { e with err := statusCode .irregularGrid, phase := .drain }

/-- A beat that takes `ENC` to its drain phase raises one of its two errors and sends nothing. -/
theorem encBeatEffect_raise {t : GridBeat} (h : encBeatEffect t e = some (e', beats)) (hp : e.phase ≠ .drain)
    (hraise : e'.phase = .drain) : beats = [] ∧ EncRaised e e' := by
  by_cases hclose : beatKind t = .close
  · rw [encBeatEffect_of_close hclose] at h
    obtain ⟨_, -, hreset⟩ := endEffect_eq_some h
    cases hreset; cases hraise
  cases hphase : e.phase with
  | idle =>
    cases hk : beatKind t with
    | hdr =>
      cases (encBeatEffect_idle_hdr hphase hk).symm.trans h
      cases hraise
    | pix =>
      exact (violEffect_raise ((encBeatEffect_idle_pixel hphase (.inl hk)).symm.trans h)).imp_right .inl
    | pixl =>
      exact (violEffect_raise ((encBeatEffect_idle_pixel hphase (.inr hk)).symm.trans h)).imp_right .inl
    | close => exact absurd hk hclose
  | body =>
    cases hk : beatKind t with
    | hdr => exact (violEffect_raise ((encBeatEffect_body_hdr hphase hk).symm.trans h)).imp_right .inl
    | pix =>
      obtain ⟨hbeats, he⟩ := pixEffect_raise hphase ((encBeatEffect_body_pix hphase hk).symm.trans h) hraise
      exact ⟨hbeats, .inr ⟨hphase, he⟩⟩
    | pixl =>
      obtain ⟨hbeats, he⟩ := pixlEffect_raise hphase ((encBeatEffect_body_pixl hphase hk).symm.trans h) hraise
      exact ⟨hbeats, .inr ⟨hphase, he⟩⟩
    | close => exact absurd hk hclose
  | drain => exact absurd hphase hp
  | unused3 => rw [encBeatEffect_unreachable (by rw [hphase]; rfl)] at h; cases h

end

/-- Settles O32: a step that changes the phase took a beat, and a beat that leads to the drain phase raised. -/
theorem raiseLatchesTheCodeAndDrains : Obligations.RaiseLatchesTheCodeAndDrains := by
  refine ⟨fun s t h hp hraise => ?dec, fun s t h hp hraise => ?enc⟩
  case dec =>
    obtain rfl | ⟨b, d, beats, hin, heff, ht⟩ := stepUnit_dec_frame h
    · exact absurd hraise hp
    obtain rfl : t.dec = d := by rw [ht]
    obtain ⟨rfl, hraised⟩ := decBeatEffect_raise heff hp hraise
    refine ⟨by rw [ht, List.append_nil], by rw [hin, List.tail_cons], ?_⟩
    obtain ⟨hphase, hd⟩ | ⟨hphase, hd⟩ | ⟨hphase, hd⟩ := hraised
    · exact .inl ⟨hphase, by rw [hd]; rfl, hd⟩
    · exact .inr (.inl ⟨hphase, by rw [hd]; rfl, hd⟩)
    · exact .inr (.inr ⟨hphase, by rw [hd]; rfl, hd⟩)
  case enc =>
    obtain rfl | ⟨b, e, beats, hin, heff, ht⟩ := stepUnit_enc_frame h
    · exact absurd hraise hp
    obtain rfl : t.enc = e := by rw [ht]
    obtain ⟨rfl, hraised⟩ := encBeatEffect_raise heff hp hraise
    exact ⟨by rw [ht, List.append_nil], by rw [hin, List.tail_cons], hraised⟩

end Sys2Proof.Machine
end

section
/-! SUPPORT. The beats on a unit's ports, whichever unit it is, and when it can move: what a step of it takes, and that
a step of the other leaves it alone (R62, R218). -/

namespace Sys2Proof.Machine

/-! ### The ports of a unit -/

/-- How many beats stand on a unit's input port. -/
def State.waiting (s : State) : UnitId → Nat
  | .dec => s.decIn.length
  | .enc => s.encIn.length

/-- How many beats stand on a unit's output port. -/
def State.standing (s : State) : UnitId → Nat
  | .dec => s.decOut.length
  | .enc => s.encOut.length

/-- The bound on a unit's output port. -/
def State.outCap (s : State) : UnitId → Option Nat
  | .dec => s.decOutCap
  | .enc => s.encOutCap

/-- The state with what is kept of the choices replaced. -/
def State.withArb (s : State) (a : Arbiter) : State := { s with arb := a }

section
variable (s : State) (u : UnitId)

theorem State.withArb_self : s.withArb s.arb = s := rfl

@[simp] theorem State.withArb_cfg (a : Arbiter) : (s.withArb a).cfg = s.cfg := rfl
@[simp] theorem State.withArb_dec (a : Arbiter) : (s.withArb a).dec = s.dec := rfl
@[simp] theorem State.withArb_enc (a : Arbiter) : (s.withArb a).enc = s.enc := rfl

@[simp] theorem waiting_withArb (a : Arbiter) : (s.withArb a).waiting u = s.waiting u := by cases u <;> rfl

@[simp] theorem roomFor_withArb (t : State) (a : Arbiter) : (s.withArb a).roomFor u (t.withArb a) = s.roomFor u t := by
  cases u <;> rfl

@[simp] theorem waiting_chosen : s.chosen.waiting u = s.waiting u := by cases u <;> simp [State.waiting]

@[simp] theorem outCap_chosen : s.chosen.outCap u = s.outCap u := by cases u <;> simp [State.outCap]

@[simp] theorem standing_chosen : s.chosen.standing u = s.standing u := by cases u <;> simp [State.standing]

theorem chosen_phasesReachable : s.chosen.phasesReachable ↔ s.phasesReachable := by simp [State.phasesReachable]

theorem exists_chosen_eq : ∃ a, s.chosen = s.withArb a := by
  unfold State.chosen
  split
  · exact ⟨_, rfl⟩
  · exact ⟨s.arb, rfl⟩

theorem roomFor_iff (t : State) :
    s.roomFor u t = true ↔ canTake (s.outCap u) (mostEmitted u) (s.standing u) (t.standing u) := by
  cases u <;> exact portTakes_iff _ _ _ _

end

theorem other_eq_of_ne {u v : UnitId} (h : v ≠ u) : v.other = u := by
  cases u <;> cases v
  case dec.dec | enc.enc => exact absurd rfl h
  all_goals rfl

/-! ### A unit that can move -/

/-- From reachable phases the oldest beat asks for a next state, without that beat and with no more beats emitted than a
step may, whatever is kept of the choices (R37, R83, R108). -/
theorem attempt_next (u : UnitId) {s : State} (hs : s.phasesReachable) (hin : 0 < s.waiting u) :
    ∃ t : State, (∀ a, (s.withArb a).attempt u = some (.next (t.withArb a))) ∧
      t.waiting u + 1 = s.waiting u ∧ t.standing u ≤ s.standing u + mostEmitted u := by
  obtain ⟨hd, he⟩ := hs
  cases u with
  | dec =>
    obtain ⟨b, bs, hin⟩ := List.exists_cons_of_length_pos hin
    obtain ⟨d, beats, heff, -, hemits⟩ := decBeatEffect_ok hd s.cfg b
    refine ⟨{ s with decIn := bs, dec := d, decOut := s.decOut ++ beats }, fun a => ?_, ?_, ?_⟩
    · rw [attempt_dec_cons (s := s.withArb a) hin, State.withArb_cfg, State.withArb_dec, heff]; rfl
    · simp [State.waiting, hin]
    · simpa [State.standing] using hemits
  | enc =>
    obtain ⟨b, bs, hin⟩ := List.exists_cons_of_length_pos hin
    obtain ⟨e, beats, heff, -, hemits⟩ := encBeatEffect_ok he b
    refine ⟨{ s with encIn := bs, enc := e, encOut := s.encOut ++ beats }, fun a => ?_, ?_, ?_⟩
    · rw [attempt_enc_cons (s := s.withArb a) hin, State.withArb_enc, heff]; rfl
    · simp [State.waiting, hin]
    · simpa [State.standing] using hemits

theorem ready_of_attempt {s t : State} {u : UnitId} (h : s.attempt u = some (.next t)) : s.ready u = s.roomFor u t := by
  rw [ready_eq_attempt, h]; rfl

theorem waiting_pos_of_ready {s : State} {u : UnitId} (h : s.ready u = true) : 0 < s.waiting u := by
  refine Nat.pos_of_ne_zero fun hnone => ?_
  cases u with
  | dec => exact absurd h (by simp [ready_dec_nil (List.length_eq_zero_iff.mp hnone)])
  | enc => exact absurd h (by simp [ready_enc_nil (List.length_eq_zero_iff.mp hnone)])

/-- A unit with a beat can move where its output port is empty or has no bound, since a port holds at least what one
step emits (R218, assumption log 4). -/
theorem ready_of_room {s : State} {u : UnitId} (hs : s.phasesReachable) (hin : 0 < s.waiting u)
    (hroom : s.standing u = 0 ∨ s.outCap u = none) : s.ready u = true := by
  obtain ⟨t, hattempt, -, hemits⟩ := attempt_next u hs hin
  rw [← s.withArb_self, ready_of_attempt (hattempt s.arb), roomFor_withArb, roomFor_iff]
  refine .inr fun c hcap => ?_
  rcases hroom with hempty | hnone
  · rw [hempty, Nat.zero_add] at hemits
    exact hemits.trans (le_max_right _ _)
  · cases hcap.symm.trans hnone

/-- A unit that can move takes its oldest beat, whatever is kept of the choices. -/
theorem stepUnit_takes {s t : State} {u : UnitId} (hs : s.phasesReachable) (hready : s.ready u = true)
    (h : stepUnit u s.chosen = .next t) : t.waiting u + 1 = s.waiting u := by
  obtain ⟨v, hattempt, htakes, -⟩ := attempt_next u hs (waiting_pos_of_ready hready)
  obtain ⟨a, ha⟩ := exists_chosen_eq s
  rw [← s.withArb_self, ready_of_attempt (hattempt s.arb), roomFor_withArb] at hready
  rw [ha, stepUnit_eq_attempt, hattempt a, Option.elim_some, settle_next, roomFor_withArb, if_pos hready] at h
  cases h
  rw [waiting_withArb, htakes]

/-- A unit's step leaves the ports of the other alone (R100, R130). -/
theorem stepUnit_other {s t : State} {u v : UnitId} (huv : v ≠ u) (h : stepUnit v s = .next t) :
    t.waiting u = s.waiting u ∧ t.standing u = s.standing u := by
  cases u <;> cases v
  case dec.enc =>
    obtain rfl | ⟨_, _, _, -, -, ht⟩ := stepUnit_enc_frame h
    · exact ⟨rfl, rfl⟩
    · rw [ht]; exact ⟨rfl, rfl⟩
  case enc.dec =>
    obtain rfl | ⟨_, _, _, -, -, ht⟩ := stepUnit_dec_frame h
    · exact ⟨rfl, rfl⟩
    · rw [ht]; exact ⟨rfl, rfl⟩
  all_goals exact absurd rfl huv

theorem ne_other (v : UnitId) : v ≠ v.other := by cases v <;> nofun

theorem waiting_add_waiting_other (s : State) (v : UnitId) :
    s.waiting v + s.waiting v.other = s.waiting .dec + s.waiting .enc := by
  cases v with
  | dec => rfl
  | enc => exact Nat.add_comm _ _

theorem stepUnit_outCap {s t : State} {v : UnitId} (h : stepUnit v s = .next t) (u : UnitId) :
    t.outCap u = s.outCap u := by
  obtain ⟨-, -, hdec, henc, -⟩ := stepUnit_keeps h
  cases u with
  | dec => exact hdec
  | enc => exact henc

/-! ### Whose turn it is -/

theorem step_of_turn {s : State} {v : UnitId} (hr : s.rst = false) (hv : s.turn = some v) :
    step s = stepUnit v s.chosen := by simp [step, hr, hv]

theorem step_of_no_turn {s : State} (hr : s.rst = false) (hv : s.turn = none) : step s = .next s := by
  simp [step, hr, hv]

theorem ready_of_turn {s : State} {v : UnitId} (hv : s.turn = some v) : s.ready v = true := by
  unfold State.turn at hv
  split at hv
  case h_1 => cases hv
  case h_2 hd _ => cases hv; exact hd
  case h_3 _ he => cases hv; exact he
  case h_4 hd he =>
    cases hv
    cases s.arb.pick with
    | dec => exact hd
    | enc => exact he

theorem not_ready_of_no_turn {s : State} (hv : s.turn = none) (u : UnitId) : s.ready u = false := by
  unfold State.turn at hv
  split at hv
  case h_1 hd he =>
    cases u with
    | dec => exact hd
    | enc => exact he
  all_goals cases hv

/-- Where a unit that can move is not the one that does, both could, and the other was picked. -/
theorem chosen_of_passed_over {s : State} {u v : UnitId} (hv : s.turn = some v) (huv : v ≠ u)
    (hu : s.ready u = true) : v = s.arb.pick ∧ s.chosen.arb = s.arb.moved v := by
  have hboth : s.ready .dec = true ∧ s.ready .enc = true := by
    have hready := ready_of_turn hv
    cases u <;> cases v
    case dec.enc => exact ⟨hu, hready⟩
    case enc.dec => exact ⟨hready, hu⟩
    all_goals exact absurd rfl huv
  obtain ⟨hd, he⟩ := hboth
  have hpick : s.arb.pick = v := by simpa [State.turn, hd, he] using hv
  exact ⟨hpick.symm, by simp [State.chosen, hd, he, hpick]⟩

theorem chosen_arb_of_not_ready {s : State} {u : UnitId} (hu : s.ready u = false) : s.chosen.arb = s.arb := by
  cases u <;> simp [State.chosen, hu]

/-- From reachable phases, with no reset due, a step answers and the phases stay reachable. -/
theorem step_reachable {s : State} (hs : s.phasesReachable) (hr : s.rst = false) :
    ∃ t, step s = .next t ∧ t.phasesReachable ∧ t.rst = false := by
  cases hv : s.turn with
  | none => exact ⟨s, step_of_no_turn hr hv, hs, hr⟩
  | some v =>
    obtain ⟨t, hstep, ht⟩ := stepUnit_reachable v ((chosen_phasesReachable s).mpr hs)
    obtain ⟨-, hrst, -⟩ := stepUnit_keeps hstep
    exact ⟨t, (step_of_turn hr hv).trans hstep, ht, hrst.trans ((State.chosen_rst s).trans hr)⟩

end Sys2Proof.Machine
end

section
/-! SUPPORT. Runs with no bound on the output ports, and the obligation that they take every beat (R218, R221). -/

namespace Sys2Proof.Machine

/-- With no bound on the output ports a step takes a beat, if one stands on an input port. -/
theorem step_unbounded_takes {s : State} (hs : s.phasesReachable) (hr : s.rst = false) (hcap : ∀ u, s.outCap u = none)
    (hin : 0 < s.waiting .dec + s.waiting .enc) :
    ∃ t, step s = .next t ∧ t.phasesReachable ∧ t.rst = false ∧ (∀ u, t.outCap u = none) ∧
      t.waiting .dec + t.waiting .enc + 1 = s.waiting .dec + s.waiting .enc := by
  obtain ⟨t, hstep, ht, htr⟩ := step_reachable hs hr
  refine ⟨t, hstep, ht, htr, ?_⟩
  cases hv : s.turn with
  | none =>
    have hidle (u : UnitId) : ¬ 0 < s.waiting u := fun hpos =>
      Bool.false_ne_true ((not_ready_of_no_turn hv u).symm.trans (ready_of_room hs hpos (.inr (hcap u))))
    have hdec := hidle .dec
    have henc := hidle .enc
    omega
  | some v =>
    have hunit := (step_of_turn hr hv).symm.trans hstep
    have htakes := stepUnit_takes hs (ready_of_turn hv) hunit
    obtain ⟨hother, -⟩ := stepUnit_other (ne_other v) hunit
    rw [waiting_chosen] at hother
    refine ⟨fun u => ?_, ?_⟩
    · rw [stepUnit_outCap hunit, outCap_chosen, hcap]
    · rw [← waiting_add_waiting_other t v, ← waiting_add_waiting_other s v]
      omega

/-- So a run of as many steps as beats stand on the input ports takes them all. -/
theorem run_unbounded_takes_all {n : Nat} {s : State} (hs : s.phasesReachable) (hr : s.rst = false)
    (hcap : ∀ u, s.outCap u = none) (hn : s.waiting .dec + s.waiting .enc = n) :
    ∃ t, run n s = .next t ∧ t.waiting .dec = 0 ∧ t.waiting .enc = 0 := by
  induction n generalizing s with
  | zero => exact ⟨s, run_zero s, by omega, by omega⟩
  | succ n ih =>
    obtain ⟨u, hstep, hu, hur, hucap, htakes⟩ := step_unbounded_takes hs hr hcap (by omega)
    rw [run_succ, hstep, andThen_next]
    exact ih hu hur hucap (by omega)

/-- Settles O43: every step takes a beat as long as one stands on an input port. -/
theorem everyOfferedBeatIsConsumed : Obligations.EveryOfferedBeatIsConsumed := by
  intro s hs hr hdcap hecap
  have hcap : ∀ u, s.outCap u = none
    | .dec => hdcap
    | .enc => hecap
  obtain ⟨t, hrun, hd, he⟩ := run_unbounded_takes_all hs hr hcap rfl
  exact ⟨t, hrun, List.length_eq_zero_iff.mp hd, List.length_eq_zero_iff.mp he⟩

end Sys2Proof.Machine
end

section
/-! SUPPORT. Rounds under a host whose sink of a unit takes a beat again and again, and the obligation that they take
every beat that stood on the unit's input port (R218, assumption logs 2 and 4). -/

namespace Sys2Proof.Machine

/-! ### How long a unit may be passed over (assumption log 2) -/

/-- How many more times a unit may be passed over, if that is known. -/
def Arbiter.patience (a : Arbiter) (u : UnitId) : WithTop ℕ :=
  match a.passed with
  | none => ⊤
  | some (v, k) => if v = u then k else ⊤

theorem Arbiter.patience_of_passed {a : Arbiter} {u : UnitId} {k : Nat} (h : a.passed = some (u, k)) :
    a.patience u = k := by simp [Arbiter.patience, h]

/-- Where another unit is picked, the unit may be passed over fewer times from then on. -/
theorem Arbiter.patience_moved_lt {a : Arbiter} {u : UnitId} (h : a.pick ≠ u) :
    (a.moved a.pick).patience u < a.patience u := by
  by_cases hpassed : ∃ k, a.passed = some (u, k)
  · obtain ⟨k, hk⟩ := hpassed
    have hpos : k ≠ 0 := fun hzero => h (pick_passed (hzero ▸ hk))
    rw [patience_of_passed hk, patience_of_passed (moved_passed hk h)]
    exact Nat.cast_lt.mpr (by omega)
  · have htop : a.patience u = ⊤ := by
      unfold patience
      split
      · rfl
      · next v k hv => exact if_neg fun hvu : v = u => hpassed ⟨k, hvu ▸ hv⟩
    obtain ⟨k, hk⟩ := a.moved_passes a.pick
    rw [other_eq_of_ne h] at hk
    rw [htop, patience_of_passed hk]
    exact WithTop.natCast_lt_top k

/-- In a step a unit takes a beat; or nothing happens at its ports, and if it could have moved it may be passed over
fewer times from then on. -/
theorem step_takes_or_waits (u : UnitId) {s t : State} (hs : s.phasesReachable) (hr : s.rst = false)
    (h : step s = .next t) :
    t.waiting u + 1 = s.waiting u ∨
      t.waiting u = s.waiting u ∧ t.standing u = s.standing u ∧ t.arb.patience u ≤ s.arb.patience u ∧
        (s.ready u = true → t.arb.patience u < s.arb.patience u) := by
  cases hv : s.turn with
  | none =>
    cases (step_of_no_turn hr hv).symm.trans h
    exact .inr ⟨rfl, rfl, le_rfl, fun hu => (Bool.false_ne_true ((not_ready_of_no_turn hv u).symm.trans hu)).elim⟩
  | some v =>
    have hunit := (step_of_turn hr hv).symm.trans h
    by_cases huv : v = u
    · subst huv
      exact .inl (stepUnit_takes hs (ready_of_turn hv) hunit)
    · obtain ⟨hwaiting, hstanding⟩ := stepUnit_other huv hunit
      obtain ⟨-, -, -, -, harb⟩ := stepUnit_keeps hunit
      have hless (hu : s.ready u = true) : t.arb.patience u < s.arb.patience u := by
        obtain ⟨rfl, hchosen⟩ := chosen_of_passed_over hv huv hu
        rw [harb, hchosen]
        exact Arbiter.patience_moved_lt huv
      refine .inr ⟨hwaiting.trans (waiting_chosen s u), hstanding.trans (standing_chosen s u), ?_, hless⟩
      cases hu : s.ready u with
      | true => exact (hless hu).le
      | false => rw [harb, chosen_arb_of_not_ready hu]

/-! ### What the host offers and takes -/

/-- How many beats a unit's source offers in the first `n` rounds. -/
def offered (env : Nat → List HostAct) (n : Nat) : UnitId → Nat
  | .dec => (decOffers env n).length
  | .enc => (encOffers env n).length

/-- The act in which a unit's sink takes a beat. -/
def HostAct.sink : UnitId → HostAct
  | .dec => .sinkDec
  | .enc => .sinkEnc

theorem act_standing_le (s : State) (a : HostAct) (u : UnitId) : (s.act a).standing u ≤ s.standing u := by
  cases u with
  | dec => exact s.act_decOut_length a
  | enc => exact s.act_encOut_length a

theorem act_sink_standing (s : State) (u : UnitId) : (s.act (.sink u)).standing u = s.standing u - 1 := by
  cases u <;> exact List.length_tail

theorem acts_standing_le (s : State) (as : List HostAct) (u : UnitId) : (s.acts as).standing u ≤ s.standing u := by
  induction as generalizing s with
  | nil => rfl
  | cons a as ih => exact (ih (s.act a)).trans (act_standing_le s a u)

theorem acts_sink_standing {u : UnitId} {as : List HostAct} (h : .sink u ∈ as) (s : State) :
    (s.acts as).standing u ≤ s.standing u - 1 := by
  induction as generalizing s with
  | nil => cases h
  | cons a as ih =>
    rw [State.acts_cons]
    cases h with
    | head => exact (acts_standing_le _ as u).trans (act_sink_standing s u).le
    | tail _ h => exact (ih h (s.act a)).trans (Nat.sub_le_sub_right (act_standing_le s a u) 1)

/-- What a round's acts put on an input port is what is offered in that round. -/
theorem acts_waiting (s : State) (env : Nat → List HostAct) (n : Nat) (u : UnitId) :
    (s.acts (env n)).waiting u + offered env n u = s.waiting u + offered env (n + 1) u := by
  obtain ⟨hdec, henc⟩ := s.acts_inputs (env n)
  cases u with
  | dec => simp only [State.waiting, offered, hdec, decOffers_succ, List.length_append]; omega
  | enc => simp only [State.waiting, offered, henc, encOffers_succ, List.length_append]; omega

theorem acts_phasesReachable (s : State) (as : List HostAct) : (s.acts as).phasesReachable ↔ s.phasesReachable := by
  obtain ⟨-, hdec, henc, -⟩ := s.acts_keeps as
  rw [State.phasesReachable, State.phasesReachable, hdec, henc]

theorem acts_arb (s : State) (as : List HostAct) : (s.acts as).arb = s.arb := by
  obtain ⟨-, -, -, -, -, harb⟩ := s.acts_keeps as
  exact harb

/-! ### A round brings a unit nearer to its beats -/

/-- How far a unit is from having taken what stood on its input port: the beats it has still to take, then the beats on
its output port, then how often it may be passed over. -/
def distance (env : Nat → List HostAct) (u : UnitId) (n : Nat) (s : State) : ℕ ×ₗ ℕ ×ₗ WithTop ℕ :=
  toLex (s.waiting u - offered env n u, toLex (s.standing u, s.arb.patience u))

section
variable {env : Nat → List HostAct} {u : UnitId} {n : Nat} {s t : State}

theorem distance_lt_of_taken (hdue : offered env n u < s.waiting u)
    (htaken : t.waiting u + 1 = (s.acts (env n)).waiting u) : distance env u (n + 1) t < distance env u n s := by
  have := acts_waiting s env n u
  exact Prod.Lex.toLex_lt_toLex.mpr (.inl (by simp only; omega))

/-- Where a round leaves the input port alone, the rest of the distance decides. -/
theorem distance_of_waiting (hwaiting : t.waiting u = (s.acts (env n)).waiting u) :
    distance env u (n + 1) t =
      toLex (s.waiting u - offered env n u, toLex (t.standing u, t.arb.patience u)) := by
  have := acts_waiting s env n u
  rw [distance, show t.waiting u - offered env (n + 1) u = s.waiting u - offered env n u by omega]

variable (hs : s.phasesReachable) (hr : (s.acts (env n)).rst = false) (hdue : offered env n u < s.waiting u)
  (hstep : step (s.acts (env n)) = .next t)
include hs hr hdue hstep

theorem distance_le : distance env u (n + 1) t ≤ distance env u n s := by
  rcases step_takes_or_waits u ((acts_phasesReachable s _).mpr hs) hr hstep with
    htaken | ⟨hwaiting, hstanding, hpatience, -⟩
  · exact (distance_lt_of_taken hdue htaken).le
  · rw [distance_of_waiting hwaiting, hstanding]
    rw [acts_arb] at hpatience
    refine Prod.Lex.toLex_le_toLex.mpr (.inr ⟨rfl, Prod.Lex.toLex_le_toLex.mpr ?_⟩)
    exact (acts_standing_le s (env n) u).lt_or_eq.imp id fun hsame => ⟨hsame, hpatience⟩

/-- A round in which the unit's sink takes a beat brings it nearer: it makes room, or there is room already, and then
the unit moves or is passed over once more. -/
theorem distance_lt_of_sink (hsink : .sink u ∈ env n) : distance env u (n + 1) t < distance env u n s := by
  have hs' := (acts_phasesReachable s (env n)).mpr hs
  rcases step_takes_or_waits u hs' hr hstep with htaken | ⟨hwaiting, hstanding, -, hpassed⟩
  · exact distance_lt_of_taken hdue htaken
  · rw [distance_of_waiting hwaiting, hstanding]
    refine Prod.Lex.toLex_lt_toLex.mpr (.inr ⟨rfl, Prod.Lex.toLex_lt_toLex.mpr ?_⟩)
    have hroom := acts_sink_standing hsink s
    by_cases hempty : s.standing u = 0
    · have hin := acts_waiting s env n u
      have hmore : offered env n u ≤ offered env (n + 1) u := by
        cases u <;> simp [offered, decOffers_succ, encOffers_succ]
      have hpatience := hpassed (ready_of_room hs' (by omega) (.inl (by omega)))
      rw [acts_arb] at hpatience
      exact .inr ⟨by simp only; omega, hpatience⟩
    · exact .inl (by simp only; omega)

end

/-! ### Rounds -/

/-- A value that never rises does not fall again and again. -/
theorem not_antitone_of_drops {α : Type} [Preorder α] [WellFoundedLT α] {f : Nat → α} (hf : Antitone f) :
    ¬ ∀ n, ∃ m, n ≤ m ∧ f (m + 1) < f m := by
  intro hdrop
  obtain ⟨_, ⟨n, rfl⟩, hmin⟩ := wellFounded_lt.has_min (Set.range f) ⟨_, 0, rfl⟩
  obtain ⟨m, hnm, hlt⟩ := hdrop n
  exact hmin (f (m + 1)) ⟨_, rfl⟩ (hlt.trans_le (hf hnm))

/-- A step leaves of an input port's beats the ones behind those it takes. -/
theorem step_inputs_suffix {s t : State} (h : step s = .next t) : t.decIn <:+ s.decIn ∧ t.encIn <:+ s.encIn := by
  obtain ⟨-, hs⟩ | ⟨-, u, a, hs⟩ := step_cases s
  · cases hs.symm.trans h
    exact ⟨List.nil_suffix, List.nil_suffix⟩
  · have hunit := hs.symm.trans h
    cases u with
    | dec =>
      obtain rfl | ⟨b, _, _, hin, -, ht⟩ := stepUnit_dec_frame hunit
      · exact ⟨List.suffix_rfl, List.suffix_rfl⟩
      · exact ⟨hin ▸ List.suffix_cons b t.decIn, by rw [ht]⟩
    | enc =>
      obtain rfl | ⟨b, _, _, hin, -, ht⟩ := stepUnit_enc_frame hunit
      · exact ⟨List.suffix_rfl, List.suffix_rfl⟩
      · exact ⟨by rw [ht], hin ▸ List.suffix_cons b t.encIn⟩

/-- After rounds an input port holds the last of what stood on it and was offered since. -/
theorem rounds_inputs_suffix {env : Nat → List HostAct} {n : Nat} {s t : State} (h : rounds env n s = .next t) :
    t.decIn <:+ s.decIn ++ decOffers env n ∧ t.encIn <:+ s.encIn ++ encOffers env n := by
  induction n generalizing t with
  | zero => cases h; simp [decOffers, encOffers]
  | succ n ih =>
    obtain ⟨v, hrounds, hstep⟩ := andThen_eq_next (h : andThen _ _ = _)
    obtain ⟨hdec, henc⟩ := ih hrounds
    obtain ⟨hdec', henc'⟩ := step_inputs_suffix hstep
    obtain ⟨hdecIn, hencIn⟩ := v.acts_inputs (env n)
    rw [hdecIn] at hdec'
    rw [hencIn] at henc'
    rw [decOffers_succ, encOffers_succ, ← List.append_assoc, ← List.append_assoc]
    exact ⟨hdec'.trans (List.suffix_append_self_iff.mpr hdec), henc'.trans (List.suffix_append_self_iff.mpr henc)⟩

section
variable {env : Nat → List HostAct} {s : State} (hs : s.phasesReachable) (hr : s.rst = false)
  (hreset : ∀ n, HostAct.reset ∉ env n)
include hs hr hreset

theorem rounds_reachable (n : Nat) : ∃ t, rounds env n s = .next t ∧ t.phasesReachable ∧ t.rst = false := by
  induction n with
  | zero => exact ⟨s, rounds_zero s env, hs, hr⟩
  | succ n ih =>
    obtain ⟨t, hrounds, ht, htr⟩ := ih
    rw [rounds_succ, hrounds, andThen_next]
    exact step_reachable ((acts_phasesReachable t _).mpr ht) ((t.acts_rst (hreset n)).trans htr)

/-- Where a unit's sink takes a beat again and again, after some number of rounds no more beats stand on its input port
than were offered since. -/
theorem exists_rounds_waiting_le (u : UnitId) (hsink : ∀ n, ∃ m, n ≤ m ∧ HostAct.sink u ∈ env m) :
    ∃ n t, rounds env n s = .next t ∧ t.waiting u ≤ offered env n u := by
  choose t hrounds ht htr using rounds_reachable hs hr hreset
  by_contra! hnever
  have hdue (n : Nat) : offered env n u < (t n).waiting u := hnever n (t n) (hrounds n)
  have hrst (n : Nat) : ((t n).acts (env n)).rst = false := ((t n).acts_rst (hreset n)).trans (htr n)
  have hstep (n : Nat) : step ((t n).acts (env n)) = .next (t (n + 1)) := by
    rw [← hrounds (n + 1), rounds_succ, hrounds n, andThen_next]
  refine not_antitone_of_drops (f := fun n => distance env u n (t n))
    (antitone_nat_of_succ_le fun n => distance_le (ht n) (hrst n) (hdue n) (hstep n)) fun n => ?_
  obtain ⟨m, hnm, hm⟩ := hsink n
  exact ⟨m, hnm, distance_lt_of_sink (ht m) (hrst m) (hdue m) (hstep m) hm⟩

end

/-- Settles O44: each round in which the sink takes a beat brings the unit nearer to having taken what stood there, in
an order with no endless descent, and no round takes it further away. -/
theorem everyBeatIsTakenWhereTheSinkTakesBeats : Obligations.EveryBeatIsTakenWhereTheSinkTakesBeats := by
  intro s env hs hr hreset
  refine ⟨fun hsink => ?_, fun hsink => ?_⟩
  · obtain ⟨n, t, hrounds, hle⟩ := exists_rounds_waiting_le hs hr hreset .dec hsink
    obtain ⟨hdec, -⟩ := rounds_inputs_suffix hrounds
    exact ⟨n, t, hrounds, List.suffix_of_suffix_length_le hdec (List.suffix_append _ _) hle⟩
  · obtain ⟨n, t, hrounds, hle⟩ := exists_rounds_waiting_le hs hr hreset .enc hsink
    obtain ⟨-, henc⟩ := rounds_inputs_suffix hrounds
    exact ⟨n, t, hrounds, List.suffix_of_suffix_length_le henc (List.suffix_append _ _) hle⟩

end Sys2Proof.Machine
end

section
/-! SUPPORT. A step whose beats the output port cannot take, and the obligation about it (R218, assumption log 4). -/

namespace Sys2Proof.Machine

/-- A unit whose instruction answers a next state can move if its port takes what that emits. -/
theorem ready_of_decode {s t : State} {u : UnitId} {word : OpWord} {i : Instr} (hf : s.fetch u = some word)
    (hdec : decode word = .ok i) (hexec : exec i (s.take u) = .next t) : s.ready u = s.roomFor u t := by
  simp [State.ready, hf, hdec, hexec]

/-- A unit that cannot move keeps its state, and the step is the other's. -/
theorem stopped_of_not_ready {s : State} {u v : UnitId} (huv : v ≠ u) (h : s.ready u = false) :
    stepUnit u s = .next s ∧ (s.rst = false → step s = stepUnit v s) := by
  obtain ⟨-, -, hother, -⟩ := stepRunsTheDecodedInstruction
  exact ⟨stepUnit_not_ready h, fun hr => hother s v u hr huv h⟩

theorem not_canTake_of_full {c most before emitted : Nat} (hpos : 0 < emitted) (hfull : max c most < before + emitted) :
    ¬ canTake (some c) most before (before + emitted) := by
  rintro (hle | hle)
  · omega
  · exact absurd (hle c rfl) (Nat.not_le.mpr hfull)

/-- A full `dec_out` stops a beat that makes `DEC` emit. -/
theorem stepUnit_dec_full {s : State} {b : ByteBeat} {bs : List ByteBeat} {d : DecRegs} {beats : List GridBeat}
    {c : Nat} (hin : s.decIn = b :: bs) (heff : decBeatEffect b s.cfg s.dec = some (d, beats))
    (hcap : s.decOutCap = some c) (hpos : 0 < beats.length) (hfull : max c 1 < s.decOut.length + beats.length) :
    stepUnit .dec s = .next s := by
  rw [stepUnit_dec_cons hin, heff, applyDec, settle_next, if_neg]
  rw [roomFor_dec_iff, hcap, List.length_append]
  exact not_canTake_of_full hpos hfull

/-- A full `enc_out` stops a beat that makes `ENC` emit. -/
theorem stepUnit_enc_full {s : State} {b : GridBeat} {bs : List GridBeat} {e : EncRegs} {beats : List ByteBeat}
    {c : Nat} (hin : s.encIn = b :: bs) (heff : encBeatEffect b s.enc = some (e, beats))
    (hcap : s.encOutCap = some c) (hpos : 0 < beats.length) (hfull : max c 16 < s.encOut.length + beats.length) :
    stepUnit .enc s = .next s := by
  rw [stepUnit_enc_cons hin, heff, applyEnc, settle_next, if_neg]
  rw [roomFor_enc_iff, hcap, List.length_append]
  exact not_canTake_of_full hpos hfull

/-- Settles O11: a unit can move only where its port takes what its step emits; an `EOF` sends one beat, a header
sixteen, a pixel eight. -/
theorem fullOutputPortStopsTheUnit : Obligations.FullOutputPortStopsTheUnit := by
  refine ⟨fun s t b bs i hin hdec hexec hfull => ?dec, fun s t b bs i hin hdec hexec hfull => ?enc,
    fun s data bs c hd hin hcap hfull => ?eof, fun s w h bs c hp hin hcap hfull => ?header,
    fun s p bs c hp hrem hcol hin hcap hfull => ?pixel⟩
  case dec =>
    rw [← take_dec_eq hin] at hexec
    rw [← roomFor_dec_iff, Bool.not_eq_true] at hfull
    exact stopped_of_not_ready nofun ((ready_of_decode (fetch_dec_cons hin) hdec hexec).trans hfull)
  case enc =>
    rw [← take_enc_eq hin] at hexec
    rw [← roomFor_enc_iff, Bool.not_eq_true] at hfull
    exact stopped_of_not_ready nofun ((ready_of_decode (fetch_enc_cons hin) hdec hexec).trans hfull)
  case eof =>
    obtain ⟨code, hcode⟩ := exists_decEofCode hd
    have heff : decBeatEffect (byteBeat true data) s.cfg s.dec = some (.reset, [gridTokWord (.stat code)]) := by
      rw [decBeatEffect_eof, eofEffect, hcode]
    exact stepUnit_dec_full hin heff hcap Nat.one_pos (Nat.lt_succ_of_le hfull)
  case header =>
    have hlen (w h : BitVec 32) : ((headerToks w h).map byteTokWord).length = 16 := by
      rw [List.length_map, headerToks_length]
    refine stepUnit_enc_full hin (encBeatEffect_idle_hdr hp (beatKind_gridBeat _ _)) hcap ?_ ?_
    · rw [hlen]; decide
    · rw [hlen]; exact hfull
  case pixel =>
    have hlen (p : Pixel) : ((pixelToks p).map byteTokWord).length = 8 := by rw [List.length_map, pixelToks_length]
    have hpix := encBeatEffect_body_pix hp (beatKind_gridBeat .pix (pixelWord p))
    have heff := hpix.trans (pixEffect_regular _ hrem hcol)
    refine stepUnit_enc_full hin heff hcap ?_ ?_
    · rw [hlen]; decide
    · rw [hlen]; exact hfull

end Sys2Proof.Machine
end

section
/-! SUPPORT. The gate over several frames, and the obligation about it (R190, R219). -/

namespace Sys2Proof.Machine

theorem closedFrame_eq (bytes : List Byte) (code : BitVec 4) :
    closedFrame bytes code = bytes.map (byteBeat false) ++ [byteTokWord (.eof code)] := by
  simp [closedFrame, Function.comp_def, byteTokWord]

/-- Bytes with no `EOF` behind them are no closed frame. -/
theorem closedFrames_open (held : List ByteBeat) (bytes : List Byte) :
    closedFrames held (bytes.map (byteBeat false)) = [] := by
  induction bytes generalizing held with
  | nil => rfl
  | cons b bytes ih => rw [List.map_cons, closedFrames, beatEof_byteBeat, if_neg Bool.false_ne_true, ih]

/-- Frames one after another, with an open one behind them, are taken apart at their `EOF`s. -/
theorem closedFrames_of_frames (frames : List (List Byte × BitVec 4)) (tail : List Byte) :
    closedFrames [] ((frames.flatMap fun p => closedFrame p.1 p.2) ++ tail.map (byteBeat false)) =
      frames.map fun p => closedFrame p.1 p.2 := by
  induction frames with
  | nil => exact closedFrames_open [] tail
  | cons p frames ih =>
    have heof : beatEof (byteTokWord (.eof p.2)) = true := beatEof_byteBeat true _
    rw [List.flatMap_cons, List.map_cons, ← ih, List.append_assoc, closedFrame_eq p.1 p.2, List.append_assoc,
      List.singleton_append, closedFrames_frame [] p.1 _ _ heof, List.nil_append]

theorem statusOfCode_eq_ok_iff (code : BitVec 4) : statusOfCode code = some .ok ↔ code = 0 := by
  revert code; decide

/-- The gate forwards a frame closed with `OK` and voids one closed with any other code (R219). -/
theorem gateFrame_closedFrame (bytes : List Byte) (code : BitVec 4) (eofData : Byte) :
    gateFrame eofData (closedFrame bytes code) = if code = 0 then decodeBeats bytes eofData else [] := by
  split_ifs with hok
  · subst hok
    rw [gateFrame, show (0 : BitVec 4) = statusCode .ok from rfl, obsEnc_closedFrame_ok]
  · rw [← statusOfCode_eq_ok_iff] at hok
    rw [gateFrame, obsEnc, encFrameToks_closedFrame]
    cases hcode : statusOfCode code with
    | none => simp [hcode]
    | some e =>
      cases e with
      | ok => exact absurd hcode hok
      | _ => simp [hcode]

/-- Settles O56: the beats are taken apart at the `EOF`s, and each frame's code decides. -/
theorem gateForwardsTheAcceptedFramesOnly : Obligations.GateForwardsTheAcceptedFramesOnly := by
  intro frames tail eofData
  have hclosed := closedFrames_of_frames frames tail
  simp only [closedFrame] at hclosed
  rw [gate, hclosed, List.flatMap_map]
  exact List.flatMap_congr fun p _ => gateFrame_closedFrame p.1 p.2 eofData

end Sys2Proof.Machine
end

section
/-! SUPPORT. The reset event and the state between frames, and the obligations about them (R210, R211). -/

namespace Sys2Proof.Machine

/-- Settles O12: the step is the reset event where one is due, and no unit's where none has a beat. -/
theorem resetEventAndNothingElseWithoutABeat : Obligations.ResetEventAndNothingElseWithoutABeat :=
  ⟨step_rst, step_idle⟩

/-- A reset event between frames, with no beat on any port, lowers `rst` and changes nothing else (R211). -/
theorem resetEvent_between_frames {s : State} (hdec : s.dec = .reset) (henc : s.enc = .reset) (hdecIn : s.decIn = [])
    (hdecOut : s.decOut = []) (hencIn : s.encIn = []) (hencOut : s.encOut = []) :
    s.resetEvent = { s with rst := false } := by
  simp only [State.resetEvent, hdec, henc, hdecIn, hdecOut, hencIn, hencOut]

/-- Settles O13: the closing beat of a frame leaves the registers a reset event leaves. -/
theorem resetStateIsTheStateBetweenFrames : Obligations.ResetStateIsTheStateBetweenFrames := by
  refine ⟨⟨rfl, rfl⟩, fun s t data h => ?eof, fun s t p h => ?close,
    fun s hr hdec henc hdecIn hdecOut hencIn hencOut => ?reset⟩
  case eof =>
    obtain ⟨_, heff, -⟩ := applyDec_eq_next ((execDecEof_eq data s).symm.trans h)
    obtain ⟨_, -, hreset⟩ := eofEffect_eq_some heff
    exact congrArg Prod.fst hreset
  case close =>
    obtain ⟨_, heff, -⟩ := applyEnc_eq_next ((execEncEnd_eq p s).symm.trans h)
    obtain ⟨_, -, hreset⟩ := endEffect_eq_some heff
    exact congrArg Prod.fst hreset
  case reset => rw [step_rst s hr, resetEvent_between_frames hdec henc hdecIn hdecOut hencIn hencOut]

end Sys2Proof.Machine
end
